-- ==== Sys2Proof/Word.lean ====
section
/-! DEFINITION. The words of HUFFCORE: register words, bytes, word addresses, bit strings, and the two
formats in which a program writes an instruction (00_scope.md R8, R11; 30_encoding.md R71, R77). -/

namespace Sys2Proof

/-- A word of the register bus (R8, R50): 32 bits. -/
abbrev Word := BitVec 32

/-- A symbol or a payload byte (R8): 8 bits. -/
abbrev Byte := BitVec 8

/-- A word address of the register space (R45): 13 bits. -/
abbrev Addr := BitVec 13

/-- A bit string (R11): its first element is the bit emitted and consumed first. -/
abbrev Bits := List Bool

/-- The word of one line of a host program, in the format the line has: a command word of format CMD
(R71, written `CMD <m>`, R82) or a transaction word of format BUS (R77). -/
inductive HostWord where
  | cmd (w : BitVec 32)
  | bus (t : BitVec 46)
  deriving DecidableEq, Repr

end Sys2Proof
end

