-- ==== Sys2Proof/Syntax.lean ====
section
/-! DEFINITION. The instructions of HUFFCORE: the nine commands of 30_encoding.md R72 and the two host
transactions of R77, one constructor for each row of the opcode table. -/

namespace Sys2Proof

/-- One constructor for each row of spec/opcode_table.json. The commands carry no operand (R71);
a transaction carries its address and its data field (R77; for a read the field is 0). -/
inductive Instr where
  | nop
  | clrfreq
  | count
  | build
  | gencodes
  | encode
  | decode
  | flush
  | softreset
  | rd (addr : Addr) (data : Word)
  | wr (addr : Addr) (data : Word)
  deriving DecidableEq, Repr

end Sys2Proof
end

