-- ==== Sys2Proof/WellFormed.lean ====
section
/-! DEFINITION. Which terms of `Instr` are written by an encoding (30_encoding.md R77, R78). -/

namespace Sys2Proof

/-- R77: the data field of a transaction is "the written value (for a read: 0)"; R78 calls 0 "the
canonical value". Every other field of every instruction is of its exact width by its type. -/
def Instr.wellFormed : Instr → Bool
  | .nop => true
  | .clrfreq => true
  | .count => true
  | .build => true
  | .gencodes => true
  | .encode => true
  | .decode => true
  | .flush => true
  | .softreset => true
  | .rd _ data => data == 0#32
  | .wr _ _ => true

end Sys2Proof
end

