-- ==== Sys2Proof/Decode.lean ====
section
/-! DEFINITION. The decoder and the encoder of 30_encoding.md: command words (R71 to R76) and
transaction words (R77, R78). Decoding is total; a word that is no instruction is rejected by name. -/

namespace Sys2Proof

/-- Why a word is no instruction. R74 gives the two illegal kinds of command words. -/
inductive DecodeError where
  /-- R74: bits 31:4 are not all 0. -/
  | reservedBitsSet
  /-- R74: bits 3:0 are in 0x8..0xE. -/
  | reservedOpcode
  deriving DecidableEq, Repr

/-- OPC, bits 3:0 of a command word (R71). -/
def cmdOpcode (w : Word) : BitVec 4 := w.extractLsb' 0 4

/-- RSV, bits 31:4 of a command word (R71). -/
def cmdReserved (w : Word) : BitVec 28 := w.extractLsb' 4 28

/-- R75, decode_cmd, total on every 32-bit value; ILLEGAL says which of R74's two reasons holds. -/
def decodeCmd (w : Word) : Except DecodeError Instr :=
  if w = 0x0000000F#32 then .ok .softreset
  else if cmdReserved w ≠ 0#28 then .error .reservedBitsSet
  else
    match (cmdOpcode w).toNat with
    | 0x0 => .ok .nop
    | 0x1 => .ok .clrfreq
    | 0x2 => .ok .count
    | 0x3 => .ok .build
    | 0x4 => .ok .gencodes
    | 0x5 => .ok .encode
    | 0x6 => .ok .decode
    | 0x7 => .ok .flush
    | _ => .error .reservedOpcode

/-- R78, decoding a transaction word, total: W is bit 45, ADDR bits 44:32, DATA bits 31:0. The data
field of a read is ignored and comes out as its canonical value 0. -/
def decodeBus (t : BitVec 46) : Instr :=
  if t.getLsbD 45 then .wr (t.extractLsb' 32 13) (t.extractLsb' 0 32)
  else .rd (t.extractLsb' 32 13) 0#32

/-- Decoding one line of a host program. -/
def decode : HostWord → Except DecodeError Instr
  | .cmd w => decodeCmd w
  | .bus t => .ok (decodeBus t)

/-- R77: the transaction word with the given fields. -/
def busWord (w : Bool) (addr : Addr) (data : Word) : BitVec 46 :=
  BitVec.ofBool w ++ addr ++ data

/-- The word of an instruction, from the encoding tables of R72 and R77. -/
def encode : Instr → HostWord
  | .nop => .cmd 0x00000000#32
  | .clrfreq => .cmd 0x00000001#32
  | .count => .cmd 0x00000002#32
  | .build => .cmd 0x00000003#32
  | .gencodes => .cmd 0x00000004#32
  | .encode => .cmd 0x00000005#32
  | .decode => .cmd 0x00000006#32
  | .flush => .cmd 0x00000007#32
  | .softreset => .cmd 0x0000000F#32
  | .rd addr data => .bus (busWord false addr data)
  | .wr addr data => .bus (busWord true addr data)

/-- An instruction's word numbered as spec/opcode_table.json numbers it: rows of at most 32 bits are
of format CMD, longer ones of format BUS (46 bits, 48 in whole bytes). -/
def tableWord (nbits w : Nat) : HostWord :=
  if nbits ≤ 32 then .cmd (BitVec.ofNat 32 w) else .bus (BitVec.ofNat 46 w)

/-- The instruction the decoder reads from a word of the opcode table. A number that does not fit the
format (bits 47:46 of a BUS word in whole bytes, log 13) is no instruction. -/
def decodeTableWord (nbits w : Nat) : Option Instr :=
  if w < (if nbits ≤ 32 then 2 ^ 32 else 2 ^ 46) then (decode (tableWord nbits w)).toOption else none

end Sys2Proof
end

