-- ==== Sys2Proof/Config.lean ====
section
/-! DEFINITION. What an implementation of HUFFCORE fixes (00_scope.md R8, R9) and the free values
(20_memory.md R67). The constants without a body can be evaluated by nothing: a claim that is proved
holds whatever they are. -/

namespace Sys2Proof

/-- A FIFO depth (R9: "an integer 1..65535"), held as the depth less one. -/
structure Depth where
  pred : Fin 65535
  deriving DecidableEq, Repr, Inhabited

/-- The depth in bytes, 1..65535. -/
def Depth.val (d : Depth) : Nat := d.pred.val + 1

/-- R8: NULL, the no-child index. -/
abbrev nullIdx : BitVec 9 := 0x1FF#9

/-- R21: the constant the ID register reads. -/
abbrev idValue : Word := 0x48554631#32

/-- R9: the depth of the input FIFO after reset; an open parameter (log 4). -/
opaque Config.inDepth : Depth

/-- R9: the depth of the output FIFO after reset; an open parameter (log 4). -/
opaque Config.outDepth : Depth

/-- R67: the n-th free draw, "any 32-bit value ... unrelated to the state" (log 5). -/
opaque Config.freeRead : Nat → Word

end Sys2Proof
end

