-- ==== Sys2Proof/Machine/State.lean ====
section
/-! DEFINITION. The architectural state of HUFFCORE (10_state.md R20 to R41), its reset value
(R44; 70_reset_and_hazards.md R200), and the reasons a step can stop. -/

namespace Sys2Proof.Machine

/-- The error codes of STATUS.ERR (60_exceptions.md R185). Codes 8..15 are never produced. -/
inductive Err where
  | noError
  | invalidInput
  | unknownSymbol
  | corruptStream
  | malformedContainer
  | countOverflow
  | illegalCommand
  | notReady
  deriving DecidableEq, Repr

/-- One entry of the arena (R30). -/
structure Node where
  weight : BitVec 40
  left   : BitVec 9
  right  : BitVec 9
  isLeaf : Bool
  symbol : Byte
  deriving DecidableEq, Repr

/-- R31: the zero record. -/
def Node.zero : Node := { weight := 0, left := 0, right := 0, isLeaf := false, symbol := 0 }

/-- The tree arena (R30), TREEINFO (R32) and the builder's queue bits (R40). -/
structure Arena where
  node   : Vector Node 511
  root   : BitVec 9
  nnodes : BitVec 10
  live   : Vector Bool 511
  deriving DecidableEq, Repr

/-- The arena of reset (R44) and of the start of BUILD (R114). -/
def Arena.zero : Arena :=
  { node := Vector.replicate 511 Node.zero, root := 0, nnodes := 0, live := Vector.replicate 511 false }

/-- The code table (R34). -/
structure CodeTable where
  len  : Vector (BitVec 8) 256
  code : Vector (BitVec 256) 256
  deriving DecidableEq, Repr

/-- The code table of reset (R44), and the start of GENCODES (R120). -/
def CodeTable.zero : CodeTable :=
  { len := Vector.replicate 256 0, code := Vector.replicate 256 0 }

/-- The two agents (R16). -/
inductive Agent where
  | host
  | core
  deriving DecidableEq, Repr

/-- One turn of an interleaving (R15, R64): a host step, a core step, or the reset input (R200). -/
inductive Turn where
  | host (w : HostWord)
  | core
  | reset
  deriving DecidableEq, Repr

/-- The state. The fields from `busy` to `dbitsRem` are the block's (R20: "the tuple of the elements
in rules R21 to R41 and nothing else"); the last six are the model's own. -/
structure State where
  /-- STATUS (R22): 1 while an accepted command has not completed. -/
  busy : Bool
  treeValid : Bool
  codesValid : Bool
  done : Bool
  cmdDropped : Bool
  inOvf : Bool
  err : Err
  lastcmd : BitVec 4
  /-- IRQEN.EN (R24). -/
  irqEn : Bool
  /-- R25 to R27. -/
  inlen : BitVec 64
  bitcnt : BitVec 64
  outlen : BitVec 64
  /-- FREQ (R28). -/
  freq : Vector (BitVec 32) 256
  /-- NODE, ROOT, NNODES, LIVE (R30 to R32, R40). -/
  arena : Arena
  /-- CODE_LEN, CODE (R34). -/
  codes : CodeTable
  /-- INQ and OUTQ, head first (R35, R36). -/
  inq : List Byte
  outq : List Byte
  /-- OP and JOB_REM (R37). -/
  op : BitVec 4
  jobRem : BitVec 64
  /-- PB, ENC_BITS, OUT_N (R38). -/
  pb : Bits
  encBits : BitVec 64
  outN : BitVec 64
  /-- DNODE, DBUF, DBITS_REM (R39; 90_conflicts.md C9). -/
  dnode : BitVec 9
  dbuf : Bits
  dbitsRem : BitVec 64
  /-- IN_DEPTH and OUT_DEPTH, the parameters of R9 (model's own; log 4). -/
  inDepth : Depth
  outDepth : Depth
  /-- Whose step `exec` performs (model's own; log 3). -/
  agent : Agent
  /-- The interleaving still to be performed (model's own; log 1, 2). -/
  script : List Turn
  /-- What BusRead returned to the host (R13), newest first (model's own; log 6). -/
  readLog : List Word
  /-- How many free draws of R67 have been made (model's own; log 5). -/
  draws : Nat
  deriving DecidableEq, Repr

/-- The machine right after reset (R44, R200). The model's own fields: log 3 to 6. -/
def State.reset : State where
  busy := false
  treeValid := false
  codesValid := false
  done := false
  cmdDropped := false
  inOvf := false
  err := .noError
  lastcmd := 0
  irqEn := false
  inlen := 0
  bitcnt := 0
  outlen := 0
  freq := Vector.replicate 256 0
  arena := Arena.zero
  codes := CodeTable.zero
  inq := []
  outq := []
  op := 0
  jobRem := 0
  pb := []
  encBits := 0
  outN := 0
  dnode := 0
  dbuf := []
  dbitsRem := 0
  inDepth := Config.inDepth
  outDepth := Config.outDepth
  agent := .host
  script := []
  readLog := []
  draws := 0

/-- Why a step stops. Both reasons are met only in states that no run reaches, and both are safe: the
machine stops where the spec gives no entry to read or no end of the traversal. -/
inductive Fault where
  /-- Raised by DEC_WALK and by GENCODES when an arena index is 511 or more: R30 gives the arena the
  indices 0..510 only. Safe (log 10). -/
  | arenaIndexOutOfRange
  /-- Raised by GENCODES when the traversal of R121 goes deeper than the 256 calls that suffice for
  every tree BUILD makes: a cyclic arena, on which R121's recursion has no end. Safe (log 11). -/
  | walkTooDeep
  deriving DecidableEq, Repr

/-- Why an instruction has no meaning. -/
inductive Refusal where
  /-- Raised by `exec`'s arm of an instruction that is not modelled yet. Safe. -/
  | notModelled (mnemonic : String)
  deriving DecidableEq, Repr

/-- The outcomes of a step of this machine. -/
abbrev Result := Host.Outcome State Fault Refusal

end Sys2Proof.Machine
end

