-- ==== Sys2Proof/Machine/Operands.lean ====
section
/-! DEFINITION. Operand forms: bit strings and their numbers (00_scope.md R11), the halves of the
64-bit registers (20_memory.md R51), and the address map (R46 to R48). -/

namespace Sys2Proof.Machine

/-- R11, `num(c)`: the sum of c_i x 2^(L-1-i). -/
def num : Bits → Nat
  | [] => 0
  | b :: c => b.toNat * 2 ^ c.length + num c

/-- R11, `bits_L(v)`: the L-bit list whose number is v (v below 2^L), most significant bit first. -/
def bits : Nat → Nat → Bits
  | 0, _ => []
  | n + 1, v => v.testBit n :: bits n v

/-- R140, `ceil8(x) = (x >> 3) + (1 if x[2:0] != 0 else 0)`. -/
def ceil8 (x : BitVec 64) : BitVec 64 :=
  (x >>> 3) + (if x.extractLsb' 0 3 ≠ 0 then 1 else 0)

/-- R51: LO holds bits 31:0, HI holds bits 63:32. -/
def lo32 (x : BitVec 64) : Word := x.extractLsb' 0 32
def hi32 (x : BitVec 64) : Word := x.extractLsb' 32 32
def setLo32 (x : BitVec 64) (v : Word) : BitVec 64 := hi32 x ++ v
def setHi32 (x : BitVec 64) (v : Word) : BitVec 64 := v ++ lo32 x

/-- What a word address names (R46 to R48). -/
inductive Target where
  | id
  | cmd
  | status
  | irqen
  | inlenLo
  | inlenHi
  | bitcntLo
  | bitcntHi
  | outlenLo
  | outlenHi
  | inData
  | outData
  | fifoLevel
  | nsym
  | treeinfo
  | freq (s : Fin 256)
  | codeLen (s : Fin 256)
  | code (s : Fin 256) (j : Fin 8)
  | node (i : Fin 511) (k : Fin 4)
  | reserved
  deriving DecidableEq, Repr

/-- R46: the control registers, by address below 0x0010. -/
def controlTarget : Nat → Target
  | 0x0 => .id
  | 0x1 => .cmd
  | 0x2 => .status
  | 0x3 => .irqen
  | 0x4 => .inlenLo
  | 0x5 => .inlenHi
  | 0x6 => .bitcntLo
  | 0x7 => .bitcntHi
  | 0x8 => .outlenLo
  | 0x9 => .outlenHi
  | 0xA => .inData
  | 0xB => .outData
  | 0xC => .fifoLevel
  | 0xD => .nsym
  | 0xE => .treeinfo
  | _ => .reserved

/-- The address map of R46 to R48; every address decodes (R78), the reserved ones to `reserved`. -/
def target (addr : Addr) : Target :=
  let a := addr.toNat
  if a < 0x100 then controlTarget a
  else if a < 0x200 then .freq (Fin.ofNat 256 (a - 0x100))
  else if a < 0x300 then .codeLen (Fin.ofNat 256 (a - 0x200))
  else if a < 0x800 then .reserved
  else if a < 0x1000 then .code (Fin.ofNat 256 ((a - 0x800) / 8)) (Fin.ofNat 8 (a - 0x800))
  else if a < 0x17FC then .node (Fin.ofNat 511 ((a - 0x1000) / 4)) (Fin.ofNat 4 (a - 0x1000))
  else .reserved

/-- R84: the canonical address of a register or of a word of a window. -/
def Target.addr : Target → Option Addr
  | .id => some 0x0000
  | .cmd => some 0x0001
  | .status => some 0x0002
  | .irqen => some 0x0003
  | .inlenLo => some 0x0004
  | .inlenHi => some 0x0005
  | .bitcntLo => some 0x0006
  | .bitcntHi => some 0x0007
  | .outlenLo => some 0x0008
  | .outlenHi => some 0x0009
  | .inData => some 0x000A
  | .outData => some 0x000B
  | .fifoLevel => some 0x000C
  | .nsym => some 0x000D
  | .treeinfo => some 0x000E
  | .freq s => some (BitVec.ofNat 13 (0x0100 + s))
  | .codeLen s => some (BitVec.ofNat 13 (0x0200 + s))
  | .code s j => some (BitVec.ofNat 13 (0x0800 + 8 * s + j))
  | .node i k => some (BitVec.ofNat 13 (0x1000 + 4 * i + k))
  | .reserved => none

/-- R67: the registers whose reads are free draws while BUSY = 1. -/
def Target.freeWhileBusy : Target → Bool
  | .freq _ => true
  | .codeLen _ => true
  | .code _ _ => true
  | .node _ _ => true
  | .treeinfo => true
  | .nsym => true
  | .bitcntLo => true
  | .bitcntHi => true
  | .outlenLo => true
  | .outlenHi => true
  | .id => false
  | .cmd => false
  | .status => false
  | .irqen => false
  | .inlenLo => false
  | .inlenHi => false
  | .inData => false
  | .outData => false
  | .fifoLevel => false
  | .reserved => false

/-- R48: word k of an arena entry. -/
def nodeWord (n : Node) (k : Fin 4) : Word :=
  match k with
  | 0 => n.weight.extractLsb' 0 32
  | 1 => (n.weight.extractLsb' 32 8).setWidth 32
  | 2 => (0#7 ++ n.right ++ 0#7 ++ n.left : BitVec 32)
  | 3 => (0#16 ++ n.symbol ++ 0#7 ++ BitVec.ofBool n.isLeaf : BitVec 32)

/-- R47: word j of a 256-bit code number. -/
def codeWord (c : BitVec 256) (j : Fin 8) : Word := c.extractLsb' (32 * j) 32

end Sys2Proof.Machine
end

