-- ==== Sys2Proof/Machine/Ops.lean ====
section
/-! DEFINITION. The named operations over the state that the commands share: the table lookups
(00_scope.md R12), raising an error (R14) and completing a command (40_control.md R94), the FIFO
steps (R13), the reset (70_reset_and_hazards.md R200). HUFFCORE has no trap: `raise`, `complete` and
the refusal of an illegal word (Accept.lean) are all there is of exception handling (R187). -/

namespace Sys2Proof.Machine

/-- FREQ[b]. -/
def State.freqOf (s : State) (b : Byte) : BitVec 32 := s.freq[b.toNat]'b.isLt

/-- CODE_LEN[b]. -/
def CodeTable.lenOf (t : CodeTable) (b : Byte) : BitVec 8 := t.len[b.toNat]'b.isLt

/-- CODE[b]. -/
def CodeTable.codeOf (t : CodeTable) (b : Byte) : BitVec 256 := t.code[b.toNat]'b.isLt

/-- R122: code(b), read back as bits_{CODE_LEN[b]}(CODE[b]). -/
def CodeTable.bitsOf (t : CodeTable) (b : Byte) : Bits := bits (t.lenOf b).toNat (t.codeOf b).toNat

/-- R29: NSYM, the number of symbols with a frequency other than 0. -/
def nsym (freq : Vector (BitVec 32) 256) : Nat := freq.toList.countP (· != 0#32)

/-- R14: `raise E`. What the running command still does after it is in the command's own steps
(60_exceptions.md R188). -/
def State.raise (s : State) (e : Err) : State := { s with err := e }

/-- R94: complete(), part of the completing core step of every command. -/
def State.complete (s : State) : State := { s with busy := false, done := true }

/-- R43: TREE_VALID and CODES_VALID cleared together. -/
def State.invalidate (s : State) : State := { s with treeValid := false, codesValid := false }

/-- R200 and R97: every state element of the block takes its reset value; the model's own fields are no
state of the block and stay (log 7). -/
def State.softreset (s : State) : State :=
  { State.reset with
    inDepth := s.inDepth, outDepth := s.outDepth, agent := s.agent,
    script := s.script, readLog := s.readLog, draws := s.draws }

/-- BUSY = 1 and OP names the command: the part of every enabling condition that all core steps share
(R91, R100). -/
def State.running (s : State) (op : BitVec 4) : Bool := s.busy && s.op == op

/-- INQ has room (R59), OUTQ has room (R36). -/
def State.inRoom (s : State) : Bool := decide (s.inq.length < s.inDepth.val)
def State.outRoom (s : State) : Bool := decide (s.outq.length < s.outDepth.val)

/-- `push(OUTQ, b)` with its count in OUT_N, modulo 2^64 (R132, R141; D41). -/
def State.pushOut (s : State) (b : Byte) : State :=
  { s with outq := s.outq ++ [b], outN := s.outN + 1 }

/-- `b <- pop(INQ); JOB_REM <- JOB_REM - 1`, then `f` on b if ERR = NONE; otherwise the byte is drained
(R108, R131, R143; R188). On an empty INQ it is never performed (R13) and changes nothing. -/
def State.consume (s : State) (f : Byte → State → State) : State :=
  match s.inq with
  | [] => s
  | b :: q =>
    let s' := { s with inq := q, jobRem := s.jobRem - 1 }
    if s'.err = .noError then f b s' else s'

/-- R59: BusWrite(IN_DATA, v). -/
def State.pushIn (s : State) (b : Byte) : State :=
  if s.inRoom then { s with inq := s.inq ++ [b] } else { s with inOvf := true }

/-- R58: BusRead(OUT_DATA), the only read with a side effect. -/
def State.popOut (s : State) : Word × State :=
  match s.outq with
  | [] => (0#32, s)
  | b :: q => (0x80000000#32 ||| b.setWidth 32, { s with outq := q })

/-- An accepted host write to FREQ[i] (R57). -/
def State.writeFreq (s : State) (i : Fin 256) (v : BitVec 32) : State :=
  { s.invalidate with freq := s.freq.set i v }

end Sys2Proof.Machine
end

