-- ==== Sys2Proof/Machine/Flags.lean ====
section
/-! DEFINITION. Every flag computation: the error codes (60_exceptions.md R185), the derived STATUS
fields (10_state.md R23), STATUS as read (R22), its write-1-to-clear (20_memory.md R55), and the
interrupt line (R41, 60_exceptions.md R192). -/

namespace Sys2Proof.Machine

/-- R185: the code of an error in STATUS bits 15:12. -/
def Err.code : Err → BitVec 4
  | .noError => 0
  | .invalidInput => 1
  | .unknownSymbol => 2
  | .corruptStream => 3
  | .malformedContainer => 4
  | .countOverflow => 5
  | .illegalCommand => 6
  | .notReady => 7

/-- R22, R23: the derived fields, computed from the FIFOs at every read. -/
def State.inFull (s : State) : Bool := decide (s.inq.length = s.inDepth.val)
def State.inEmpty (s : State) : Bool := decide (s.inq.length = 0)
def State.outFull (s : State) : Bool := decide (s.outq.length = s.outDepth.val)
def State.outEmpty (s : State) : Bool := decide (s.outq.length = 0)

/-- R22: STATUS as read, bit 31 first. -/
def State.statusWord (s : State) : Word :=
  (0#12 ++ s.lastcmd ++ s.err.code ++ 0#2 ++
    BitVec.ofBool s.outEmpty ++ BitVec.ofBool s.outFull ++ BitVec.ofBool s.inEmpty ++ BitVec.ofBool s.inFull ++
    BitVec.ofBool s.inOvf ++ BitVec.ofBool s.cmdDropped ++ BitVec.ofBool s.done ++
    BitVec.ofBool s.codesValid ++ BitVec.ofBool s.treeValid ++ BitVec.ofBool s.busy : BitVec 32)

/-- R55: a write to STATUS clears each of DONE, CMD_DROPPED and IN_OVF whose written bit is 1. -/
def State.clearStatus (s : State) (v : Word) : State :=
  { s with
    done := s.done && !v.getLsbD 3
    cmdDropped := s.cmdDropped && !v.getLsbD 4
    inOvf := s.inOvf && !v.getLsbD 5 }

/-- R41, R192: the level of the interrupt line. -/
def State.irq (s : State) : Bool := s.irqEn && s.done

end Sys2Proof.Machine
end

