-- ==== Sys2Proof/Machine/Accept.lean ====
section
/-! DEFINITION. A write to CMD (40_control.md R90 to R93): acceptance with each command's acceptance
action, the refusal of an illegal word, the drop while busy, SOFTRESET; and how the meaning of a
command is split between its host step and its core steps. -/

namespace Sys2Proof.Machine

/-- The opcodes of R72. -/
abbrev opNop : BitVec 4 := 0x0
abbrev opClrfreq : BitVec 4 := 0x1
abbrev opCount : BitVec 4 := 0x2
abbrev opBuild : BitVec 4 := 0x3
abbrev opGencodes : BitVec 4 := 0x4
abbrev opEncode : BitVec 4 := 0x5
abbrev opDecode : BitVec 4 := 0x6
abbrev opFlush : BitVec 4 := 0x7

/-- R108: the acceptance action of COUNT. -/
def acceptCount (s : State) : State := { s.invalidate with jobRem := s.inlen }

/-- R120: the acceptance action of GENCODES. -/
def acceptGencodes (s : State) : State := { s with codesValid := false }

/-- R130: the acceptance action of ENCODE. -/
def acceptEncode (s : State) : State :=
  let s' := { s with jobRem := s.inlen, pb := [], encBits := 0, outN := 0 }
  if s.inlen ≠ 0 ∧ s.codesValid = false then s'.raise .notReady else s'

/-- R140: the acceptance action of DECODE, with its two checks in the order of R190. -/
def acceptDecode (s : State) : State :=
  let s' := { s with jobRem := s.inlen, dbitsRem := s.bitcnt, dbuf := [], outN := 0, dnode := s.arena.root }
  if s.inlen ≠ ceil8 s.bitcnt then s'.raise .malformedContainer
  else if s.bitcnt ≠ 0 ∧ s.treeValid = false then s'.raise .notReady
  else s'

/-- R91: the acceptance action of each opcode (CLRFREQ: R106, BUILD: R113; NOP and FLUSH: none). -/
def acceptAction (op : BitVec 4) (s : State) : State :=
  if op = opClrfreq then s.invalidate
  else if op = opCount then acceptCount s
  else if op = opBuild then s.invalidate
  else if op = opGencodes then acceptGencodes s
  else if op = opEncode then acceptEncode s
  else if op = opDecode then acceptDecode s
  else s

/-- R91: accept(op). -/
def State.accept (s : State) (op : BitVec 4) : State :=
  acceptAction op { s with lastcmd := op, op := op, err := .noError, done := false, busy := true }

/-- R92: refuse(w), how an illegal command word is reported. -/
def State.refuse (s : State) (w : Word) : State :=
  { s with lastcmd := cmdOpcode w, err := .illegalCommand, done := true }

/-- R93: a CMD write dropped because BUSY = 1. -/
def State.drop (s : State) : State := { s with cmdDropped := true }

/-- R90: BusWrite(CMD, w). -/
def State.cmdWrite (s : State) (w : Word) : State :=
  if w = 0x0000000F#32 then s.softreset
  else if s.busy then s.drop
  else
    match decodeCmd w with
    | .error _ => s.refuse w
    | .ok _ => s.accept (cmdOpcode w)

/-- The meaning of a command: in the host's step the write of its word to CMD (R90; R82: `CMD <m>` is
`WR CMD, <opcode of m>`), in the core's step the core step of the command that is enabled (R91). -/
def byTurn (word : Word) (coreStep : State → Result) (s : State) : Result :=
  match s.agent with
  | .host => .next (s.cmdWrite word)
  | .core => coreStep s

end Sys2Proof.Machine
end

