-- ==== Sys2Proof/Machine/Bus.lean ====
section
/-! DEFINITION. The host transactions RD and WR (40_control.md R98, R99): what each access of the
register space does (20_memory.md R53 to R59, R67). -/

namespace Sys2Proof.Machine

/-- R53: what a register reads as, for every read without a side effect. -/
def readValue (s : State) : Target → Word
  | .id => idValue
  | .cmd => 0
  | .status => s.statusWord
  | .irqen => (BitVec.ofBool s.irqEn).setWidth 32
  | .inlenLo => lo32 s.inlen
  | .inlenHi => hi32 s.inlen
  | .bitcntLo => lo32 s.bitcnt
  | .bitcntHi => hi32 s.bitcnt
  | .outlenLo => lo32 s.outlen
  | .outlenHi => hi32 s.outlen
  | .inData => 0
  | .outData => s.popOut.1
  | .fifoLevel => BitVec.ofNat 16 s.outq.length ++ BitVec.ofNat 16 s.inq.length
  | .nsym => (BitVec.ofNat 9 (nsym s.freq)).setWidth 32
  | .treeinfo => (0#6 ++ s.arena.nnodes ++ 0#7 ++ s.arena.root : BitVec 32)
  | .freq i => s.freq[i]
  | .codeLen i => (s.codes.len[i]).setWidth 32
  | .code i j => codeWord s.codes.code[i] j
  | .node i k => nodeWord s.arena.node[i] k
  | .reserved => 0

/-- R53, R58, R67: BusRead(a), the value and the state after it. -/
def State.busRead (s : State) (addr : Addr) : Word × State :=
  let t := target addr
  if t = .outData then s.popOut
  else if s.busy && t.freeWhileBusy then (Config.freeRead s.draws, { s with draws := s.draws + 1 })
  else (readValue s t, s)

/-- R54 to R57, R59: what a write to a register does; read-only and reserved ones ignore it (R49), and
INLEN, BITCNT and FREQ ignore it while BUSY = 1 (R56). -/
def writeTarget (s : State) (v : Word) : Target → State
  | .cmd => s.cmdWrite v
  | .status => s.clearStatus v
  | .irqen => { s with irqEn := v.getLsbD 0 }
  | .inlenLo => if s.busy then s else { s with inlen := setLo32 s.inlen v }
  | .inlenHi => if s.busy then s else { s with inlen := setHi32 s.inlen v }
  | .bitcntLo => if s.busy then s else { s with bitcnt := setLo32 s.bitcnt v }
  | .bitcntHi => if s.busy then s else { s with bitcnt := setHi32 s.bitcnt v }
  | .inData => s.pushIn (v.extractLsb' 0 8)
  | .freq i => if s.busy then s else s.writeFreq i v
  | .id => s
  | .outlenLo => s
  | .outlenHi => s
  | .outData => s
  | .fifoLevel => s
  | .nsym => s
  | .treeinfo => s
  | .codeLen _ => s
  | .code _ _ => s
  | .node _ _ => s
  | .reserved => s

/-- R54: BusWrite(a, v). -/
def State.busWrite (s : State) (addr : Addr) (v : Word) : State := writeTarget s v (target addr)

/-- R98: RD. The value read goes to the host, which the model keeps in `readLog`. The data field is
ignored (R78). -/
def execRd (addr : Addr) (_data : Word) (s : State) : Result :=
  let (v, s') := s.busRead addr
  .next { s' with readLog := v :: s'.readLog }

/-- R99: WR. -/
def execWr (addr : Addr) (data : Word) (s : State) : Result := .next (s.busWrite addr data)

end Sys2Proof.Machine
end

