-- ==== Sys2Proof/Machine/CodeTable.lean ====
section
/-! DEFINITION. The code table generator and GENCODES (43_code_table.md R120 to R122). -/

namespace Sys2Proof.Machine

/-- NODE[i], where the arena has an entry i (R30: 0..510). -/
def Arena.nodeAt (a : Arena) (i : BitVec 9) : Option Node := a.node[i.toNat]?

/-- R121: the entry of a leaf, CODE_LEN <- len(path), CODE <- num(path). -/
def CodeTable.record (t : CodeTable) (symbol : Byte) (path : Bits) : CodeTable :=
  { len := t.len.set symbol.toNat (BitVec.ofNat 8 path.length) symbol.isLt
    code := t.code.set symbol.toNat (BitVec.ofNat 256 (num path)) symbol.isLt }

/-- R121: walk(i, path), depth first, left before right. The first argument is the number of stack
entries left; R121: "A hardware stack of 256 entries suffices". -/
def walk (a : Arena) : Nat → BitVec 9 → Bits → CodeTable → Except Fault CodeTable
  | 0, _, _, _ => .error .walkTooDeep
  | depth + 1, i, path, t =>
    match a.nodeAt i with
    | none => .error .arenaIndexOutOfRange
    | some n =>
      if n.isLeaf then .ok (t.record n.symbol path)
      else
        match (if n.left = nullIdx then .ok t else walk a depth n.left (path ++ [false]) t) with
        | .error f => .error f
        | .ok t' => if n.right = nullIdx then .ok t' else walk a depth n.right (path ++ [true]) t'

/-- R120: the table of an arena, all 256 entries rewritten (D37). -/
def genCodes (a : Arena) : Except Fault CodeTable := walk a 256 a.root [] CodeTable.zero

/-- R120: GENCODES_EXEC is enabled when BUSY = 1 and OP = GENCODES. -/
def gencodesExecEnabled (s : State) : Bool := s.running opGencodes

/-- R120: GENCODES_EXEC. -/
def gencodesExec (s : State) : Result :=
  if s.treeValid = false then .next (s.raise .notReady).complete
  else
    match genCodes s.arena with
    | .error f => .fault f
    | .ok t => .next { s.complete with codes := t, codesValid := true }

/-- R120: GENCODES. -/
def execGencodes (s : State) : Result :=
  byTurn 0x00000004#32 (fun s => if gencodesExecEnabled s then gencodesExec s else .next s) s

end Sys2Proof.Machine
end

