-- ==== Sys2Proof/Machine/Control.lean ====
section
/-! DEFINITION. The housekeeping commands NOP, FLUSH and SOFTRESET (40_control.md R95 to R97). -/

namespace Sys2Proof.Machine

/-- R95: NOP_EXEC is enabled when BUSY = 1 and OP = NOP. -/
def nopExecEnabled (s : State) : Bool := s.running opNop

/-- R95: NOP_EXEC. -/
def nopExec (s : State) : State := s.complete

/-- R95: NOP. -/
def execNop (s : State) : Result :=
  byTurn 0x00000000#32 (fun s => .next (if nopExecEnabled s then nopExec s else s)) s

/-- R96: FLUSH_EXEC is enabled when BUSY = 1 and OP = FLUSH. -/
def flushExecEnabled (s : State) : Bool := s.running opFlush

/-- R96: FLUSH_EXEC. -/
def flushExec (s : State) : State := { s.complete with inq := [], outq := [] }

/-- R96: FLUSH. -/
def execFlush (s : State) : Result :=
  byTurn 0x00000007#32 (fun s => .next (if flushExecEnabled s then flushExec s else s)) s

/-- R97: SOFTRESET acts in the host step of the write, with no core step. -/
def execSoftreset (s : State) : Result :=
  byTurn 0x0000000F#32 (fun s => .next s) s

end Sys2Proof.Machine
end

