-- ==== Sys2Proof/Machine/Decoder.lean ====
section
/-! DEFINITION. The bit-stream decoder and DECODE (45_decoder.md R140 to R147). -/

namespace Sys2Proof.Machine

/-- Where one bit leads from a position in the tree (R141). -/
inductive WalkTo where
  /-- The position or the child is no entry of the arena (R30). -/
  | outside
  /-- The child is NULL. -/
  | missing
  /-- The child is a leaf with this symbol. -/
  | leaf (symbol : Byte)
  /-- The child is an internal node. -/
  | inner (i : BitVec 9)
  deriving DecidableEq, Repr

/-- R141: the child of NODE[i] on a bit, 0 = left, 1 = right, and what it is. -/
def Arena.walkBit (a : Arena) (i : BitVec 9) (bit : Bool) : WalkTo :=
  match a.nodeAt i with
  | none => .outside
  | some n =>
    let child := if bit then n.right else n.left
    if child = nullIdx then .missing
    else
      match a.nodeAt child with
      | none => .outside
      | some c => if c.isLeaf then .leaf c.symbol else .inner child

/-- R143: the valid bits of a loaded byte, bit 7 first. -/
def loadBits (b : Byte) (n : Nat) : Bits := (bits 8 b.toNat).take n

/-- R143: what DEC_LOAD does with a byte while ERR = NONE; the pad bits are ignored. -/
def loadByte (b : Byte) (s : State) : State :=
  let n : BitVec 64 := if s.dbitsRem < 8 then s.dbitsRem else 8
  { s with dbuf := loadBits b n.toNat, dbitsRem := s.dbitsRem - n }

/-- R143: the enabling condition of DEC_LOAD. -/
def decLoadEnabled (s : State) : Bool :=
  s.running opDecode && s.jobRem != 0 && !s.inq.isEmpty && (s.err != .noError || s.dbuf.isEmpty)

/-- R143: DEC_LOAD. -/
def decLoad (s : State) : State := s.consume loadByte

/-- R141: the enabling condition of DEC_WALK. -/
def decWalkEnabled (s : State) : Bool :=
  s.running opDecode && s.err == .noError && !s.dbuf.isEmpty && s.outRoom

/-- R141: DEC_WALK. -/
def decWalk (s : State) : Result :=
  match s.dbuf with
  | [] => .next s
  | bit :: rest =>
    let s' := { s with dbuf := rest }
    match s.arena.walkBit s.dnode bit with
    | .outside => .fault .arenaIndexOutOfRange
    | .missing => .next { s'.raise .corruptStream with dbuf := [] }
    | .leaf symbol => .next { s'.pushOut symbol with dnode := s.arena.root }
    | .inner i => .next { s' with dnode := i }

/-- R144: the enabling condition of DEC_DONE. -/
def decDoneEnabled (s : State) : Bool :=
  s.running opDecode && s.jobRem == 0 && (s.err != .noError || s.dbuf.isEmpty)

/-- R144: DEC_DONE; a stream that ends mid-code is CORRUPT_STREAM. -/
def decDone (s : State) : State :=
  let s' := if s.err = .noError ∧ s.dnode ≠ s.arena.root then s.raise .corruptStream else s
  { s'.complete with dbuf := [], outlen := s.outN }

/-- The core step of DECODE that is enabled; none, and the core holds, on an empty INQ or a full OUTQ. -/
def decodeStep (s : State) : Result :=
  if decLoadEnabled s then .next (decLoad s)
  else if decWalkEnabled s then decWalk s
  else if decDoneEnabled s then .next (decDone s)
  else .next s

/-- R140: DECODE. -/
def execDecode (s : State) : Result := byTurn 0x00000006#32 decodeStep s

end Sys2Proof.Machine
end

