-- ==== Sys2Proof/Machine/Encoder.lean ====
section
/-! DEFINITION. The bit-stream encoder and ENCODE (44_encoder.md R130 to R137). -/

namespace Sys2Proof.Machine

/-- R132: the byte of eight bits, the first of them bit 7. -/
def packByte (c : Bits) : Byte := BitVec.ofNat 8 (num (c.take 8))

/-- R133: the final partial byte, zero-padded. -/
def padByte (c : Bits) : Byte := packByte (c ++ List.replicate (8 - c.length) false)

/-- R131: what ENC_CONSUME does with a symbol while ERR = NONE. On a symbol without a code the pending
bits are discarded (R136). -/
def encodeSymbol (b : Byte) (s : State) : State :=
  if s.codes.lenOf b = 0 then { s.raise .unknownSymbol with pb := [] }
  else
    { s with
      pb := s.pb ++ s.codes.bitsOf b
      encBits := s.encBits + (s.codes.lenOf b).setWidth 64 }

/-- R131: the enabling condition of ENC_CONSUME. -/
def encConsumeEnabled (s : State) : Bool :=
  s.running opEncode && s.jobRem != 0 && !s.inq.isEmpty && (s.err != .noError || decide (s.pb.length < 8))

/-- R131: ENC_CONSUME. -/
def encConsume (s : State) : State := s.consume encodeSymbol

/-- R132: the enabling condition of ENC_EMIT. -/
def encEmitEnabled (s : State) : Bool :=
  s.running opEncode && s.err == .noError && decide (8 ≤ s.pb.length) && s.outRoom

/-- R132: ENC_EMIT. -/
def encEmit (s : State) : State := { s.pushOut (packByte s.pb) with pb := s.pb.drop 8 }

/-- R133: the enabling condition of ENC_DONE. -/
def encDoneEnabled (s : State) : Bool :=
  s.running opEncode && s.jobRem == 0 && (s.err != .noError || decide (s.pb.length < 8)) &&
    (s.err != .noError || s.pb.isEmpty || s.outRoom)

/-- R133: ENC_DONE. -/
def encDone (s : State) : State :=
  let s' := if s.err = .noError ∧ s.pb ≠ [] then s.pushOut (padByte s.pb) else s
  { s'.complete with pb := [], bitcnt := s'.encBits, outlen := s'.outN }

/-- The core step of ENCODE that is enabled; none, and the core holds, on an empty INQ or a full OUTQ. -/
def encodeStep (s : State) : State :=
  if encConsumeEnabled s then encConsume s
  else if encEmitEnabled s then encEmit s
  else if encDoneEnabled s then encDone s
  else s

/-- R130: ENCODE. -/
def execEncode (s : State) : Result := byTurn 0x00000005#32 (fun s => .next (encodeStep s)) s

end Sys2Proof.Machine
end

