-- ==== Sys2Proof/Machine/Frequency.lean ====
section
/-! DEFINITION. The frequency table commands CLRFREQ and COUNT (41_frequency.md R105 to R109). -/

namespace Sys2Proof.Machine

/-- R106: CLRFREQ_EXEC is enabled when BUSY = 1 and OP = CLRFREQ. -/
def clrfreqExecEnabled (s : State) : Bool := s.running opClrfreq

/-- R106: CLRFREQ_EXEC. -/
def clrfreqExec (s : State) : State := { s.complete with freq := Vector.replicate 256 0 }

/-- R106: CLRFREQ. -/
def execClrfreq (s : State) : Result :=
  byTurn 0x00000001#32 (fun s => .next (if clrfreqExecEnabled s then clrfreqExec s else s)) s

/-- R108: what COUNT_BYTE does with a byte while ERR = NONE. The increment never wraps (R109). -/
def countSymbol (b : Byte) (s : State) : State :=
  if s.freqOf b = 0xFFFFFFFF#32 then s.raise .countOverflow
  else { s with freq := s.freq.set b.toNat (s.freqOf b + 1) b.isLt }

/-- R108: the enabling condition of COUNT_BYTE. -/
def countByteEnabled (s : State) : Bool := s.running opCount && s.jobRem != 0 && !s.inq.isEmpty

/-- R108: COUNT_BYTE. -/
def countByte (s : State) : State := s.consume countSymbol

/-- R108: the enabling condition of COUNT_DONE. -/
def countDoneEnabled (s : State) : Bool := s.running opCount && s.jobRem == 0

/-- R108: COUNT_DONE. -/
def countDone (s : State) : State := s.complete

/-- The core step of COUNT that is enabled; none, and the core holds, while INQ is empty (R108). -/
def countStep (s : State) : State :=
  if countByteEnabled s then countByte s
  else if countDoneEnabled s then countDone s
  else s

/-- R108: COUNT. -/
def execCount (s : State) : Result := byTurn 0x00000002#32 (fun s => .next (countStep s)) s

end Sys2Proof.Machine
end

