-- ==== Sys2Proof/Machine/TreeBuilder.lean ====
section
/-! DEFINITION. The Huffman-tree constructor and BUILD (42_tree_builder.md R110 to R117). -/

namespace Sys2Proof.Machine

/-- A live node in the priority queue: its arena index and its weight, the two parts of its key (R110). -/
structure Entry where
  idx    : Nat
  weight : BitVec 40
  deriving DecidableEq, Repr

/-- R110: before(i, j), the lexicographic order of the keys (weight, index). -/
def Entry.before (x y : Entry) : Bool :=
  decide (x.weight < y.weight) || (x.weight == y.weight && decide (x.idx < y.idx))

/-- R110: the queue, "the live nodes", in order of index. -/
def Arena.queue (a : Arena) : List Entry :=
  ((a.live.toList.zip a.node.toList).zipIdx).filterMap
    fun p => if p.1.1 then some { idx := p.2, weight := p.1.2.weight } else none

/-- The entry of a list that is before every other. -/
def leastEntry : List Entry → Option Entry
  | [] => none
  | x :: xs =>
    match leastEntry xs with
    | none => some x
    | some y => if x.before y then some x else some y

/-- R110: extract_min(). -/
def Arena.extractMin (a : Arena) : Option (Entry × Arena) :=
  match leastEntry a.queue with
  | none => none
  | some x => some (x, { a with live := a.live.setIfInBounds x.idx false })

/-- NODE[NNODES] <- n; LIVE[NNODES] <- 1; NNODES <- NNODES + 1 (R111, R114). BUILD never makes more than
511 nodes; beyond the arena nothing is written (log 12). -/
def Arena.append (a : Arena) (n : Node) : Arena :=
  if a.nnodes.toNat < 511 then
    { a with
      node := a.node.setIfInBounds a.nnodes.toNat n
      live := a.live.setIfInBounds a.nnodes.toNat true
      nnodes := a.nnodes + 1 }
  else a

/-- R31: the leaf record of a symbol. -/
def Node.leaf (symbol : Byte) (freq : BitVec 32) : Node :=
  { weight := freq.setWidth 40, left := nullIdx, right := nullIdx, isLeaf := true, symbol := symbol }

/-- R31: an internal record. -/
def Node.internal (weight : BitVec 40) (left right : BitVec 9) : Node :=
  { weight := weight, left := left, right := right, isLeaf := false, symbol := 0 }

/-- R111: one merge, performed while two or more nodes are live. -/
def Arena.merge (a : Arena) : Arena :=
  match a.extractMin with
  | none => a
  | some (x, a₁) =>
    match a₁.extractMin with
    | none => a
    | some (y, a₂) =>
      a₂.append (Node.internal (x.weight + y.weight) (BitVec.ofNat 9 x.idx) (BitVec.ofNat 9 y.idx))

/-- R114: the leaves of the first `n` symbols, in ascending order (R112). -/
def insertLeaves (freq : Vector (BitVec 32) 256) : Nat → Arena
  | 0 => Arena.zero
  | n + 1 =>
    let a := insertLeaves freq n
    let f := freq[n]?.getD 0
    if f ≠ 0 then a.append (Node.leaf (BitVec.ofNat 8 n) f) else a

/-- R114: `while (number of i with LIVE[i] = 1) > 1: merge()`. The bound on the number of turns is more
than the 255 merges that 256 leaves need (log 12). -/
def mergeWhile : Nat → Arena → Arena
  | 0, a => a
  | n + 1, a => if a.queue.length > 1 then mergeWhile n a.merge else a

/-- R116: the synthetic root over the one leaf. -/
def Arena.wrapSingle (a : Arena) : Arena :=
  { node := a.node.set 1 (Node.internal (a.node[0]).weight 0 nullIdx)
    live := (a.live.set 0 false).set 1 true
    nnodes := 2
    root := 1 }

/-- R114: build_tree, a function of FREQ alone (R119). With no symbol it leaves the zero arena (R117). -/
def buildTree (freq : Vector (BitVec 32) 256) : Arena :=
  let a := insertLeaves freq 256
  if a.nnodes = 0 then a
  else if a.nnodes = 1 then a.wrapSingle
  else
    let b := mergeWhile 511 a
    { b with root := (b.nnodes - 1).setWidth 9 }

/-- R113: BUILD_EXEC is enabled when BUSY = 1 and OP = BUILD. -/
def buildExecEnabled (s : State) : Bool := s.running opBuild

/-- R113, R114: BUILD_EXEC. INVALID_INPUT when no symbol is present (R117). -/
def buildExec (s : State) : State :=
  let s' := { s with arena := buildTree s.freq }
  (if nsym s.freq = 0 then s'.raise .invalidInput else { s' with treeValid := true }).complete

/-- R113: BUILD. -/
def execBuild (s : State) : Result :=
  byTurn 0x00000003#32 (fun s => .next (if buildExecEnabled s then buildExec s else s)) s

end Sys2Proof.Machine
end

