-- ==== Sys2Proof/Machine/Turns.lean ====
section
/-! DEFINITION. Whose turn it is and which instruction that agent runs (00_scope.md R15, R16;
40_control.md R91, R100): the parts of a step other than the meaning of the instruction. -/

namespace Sys2Proof.Machine

/-- The turn performed next: the head of the script; when the script is exhausted the core moves, so
that it takes "every step that became enabled until none is enabled" (30_encoding.md R79; log 2). -/
def State.nextTurn (s : State) : Turn := s.script.head?.getD .core

/-- The state in which an agent takes its turn: the turn is used up, and `agent` says who moves. -/
def State.forAgent (s : State) (a : Agent) : State := { s with script := s.script.tail, agent := a }

/-- The command whose core steps may be enabled: while BUSY = 1, the one OP names (R91, R100). OP holds
no command without core steps in any state a run reaches; then nothing is enabled (log 16). -/
def State.coreInstr (s : State) : Option Instr :=
  if s.busy then
    match decodeCmd (s.op.setWidth 32) with
    | .ok i => some i
    | .error _ => none
  else none

/-- What the host's turn does with a word that is no instruction: only a command word can be illegal
(R74, R78), and it is written to CMD like any other (R90, R92, R93). -/
def State.illegalWord (s : State) : HostWord → State
  | .cmd w => s.cmdWrite w
  | .bus _ => s

end Sys2Proof.Machine
end

