-- ==== Sys2Proof/Machine/Step.lean ====
section
/-! DEFINITION. One step of an execution: one host step, one core step or one reset event (00_scope.md
R15; 20_memory.md R64), and where the next instruction is placed. -/

namespace Sys2Proof.Machine

/-- One step. On a core turn with no enabled core step the core holds or is idle and nothing changes
(40_control.md R100, R101). -/
def step (s : State) : Host.Outcome State Fault Refusal :=
  match s.nextTurn with
  | .reset => .next (s.forAgent s.agent).softreset
  | .core =>
    match s.coreInstr with
    | some i => exec i (s.forAgent .core)
    | none => .next (s.forAgent .core)
  | .host w =>
    match decode w with
    | .ok i => exec i (s.forAgent .host)
    | .error _ => .next ((s.forAgent .host).illegalWord w)

/-- The state with an instruction of the opcode table placed where the next step takes it: as the
host's next line, in front of the script. -/
def State.withFetchWord (s : State) (nbits w : Nat) : State :=
  { s with script := .host (tableWord nbits w) :: s.script }

end Sys2Proof.Machine
end

