-- ==== Sys2Proof/Machine/Container.lean ====
section
/-! DEFINITION. The serialized container (46_container.md R151 to R160): its byte layout, the checks of
R158, and the host's two procedures as turns: saving (R155) and restoring (R156). The host assembles and
parses it (R151); no step of the block uses this file (log 20). -/

namespace Sys2Proof.Machine

/-- R153: "Big-endian unsigned" means the most significant byte comes first. -/
def be32 (v : BitVec 32) : List Byte :=
  [v.extractLsb' 24 8, v.extractLsb' 16 8, v.extractLsb' 8 8, v.extractLsb' 0 8]

def be64 (v : BitVec 64) : List Byte := be32 (v.extractLsb' 32 32) ++ be32 (v.extractLsb' 0 32)

/-- The number of a big-endian byte list. -/
def beNat (x : List Byte) : Nat := x.foldl (fun n b => 256 * n + b.toNat) 0

/-- The contents of a container (R153). -/
structure Container where
  entries  : List (Byte × BitVec 32)
  bitCount : BitVec 64
  payload  : List Byte
  deriving DecidableEq, Repr

/-- R154: the present symbols below `n` and their frequencies, in strictly ascending order. -/
def presentBelow (freq : Vector (BitVec 32) 256) : Nat → List (Byte × BitVec 32)
  | 0 => []
  | n + 1 =>
    let f := freq[n]?.getD 0
    presentBelow freq n ++ (if f ≠ 0 then [(BitVec.ofNat 8 n, f)] else [])

/-- R151, R155: the container of a frequency table, a valid-bit-count and a payload. -/
def Container.ofTable (freq : Vector (BitVec 32) 256) (bitCount : BitVec 64) (payload : List Byte) : Container :=
  { entries := presentBelow freq 256, bitCount := bitCount, payload := payload }

def entryBytes (e : Byte × BitVec 32) : List Byte := e.1 :: be32 e.2

/-- R153: the bytes of a container. -/
def Container.serialize (c : Container) : List Byte :=
  be32 (BitVec.ofNat 32 c.entries.length) ++ c.entries.flatMap entryBytes ++ be64 c.bitCount ++ c.payload

/-- The declared N of a byte list, and the fields at the offsets of R153. -/
def headerCount (x : List Byte) : Nat := beNat (x.take 4)
def headerEntry (x : List Byte) (k : Nat) : Byte × BitVec 32 :=
  (((x.drop (4 + 5 * k)).head?).getD 0, BitVec.ofNat 32 (beNat ((x.drop (5 + 5 * k)).take 4)))
def headerEntries (x : List Byte) : List (Byte × BitVec 32) := (List.range (headerCount x)).map (headerEntry x)
def headerBits (x : List Byte) : BitVec 64 := BitVec.ofNat 64 (beNat ((x.drop (4 + 5 * headerCount x)).take 8))

/-- R158 (e): strictly ascending symbols. -/
def ascending : List (Byte × BitVec 32) → Bool
  | [] => true
  | [_] => true
  | x :: y :: r => decide (x.1 < y.1) && ascending (y :: r)

/-- R158: a container of L bytes is malformed when any of (a) to (g) holds. -/
def malformed (x : List Byte) : Bool :=
  let n := headerCount x
  decide (x.length < 12)
    || decide (256 < n)
    || decide (x.length < 12 + 5 * n)
    || (headerEntries x).any (fun e => e.2 == 0)
    || !ascending (headerEntries x)
    || decide (x.length - 12 - 5 * n ≠ (ceil8 (headerBits x)).toNat)
    || (decide (n = 0) && headerBits x != 0)

/-- R156: parse and check; `none` is the host's MalformedContainer report. -/
def Container.parse (x : List Byte) : Option Container :=
  if malformed x then none
  else some
    { entries := headerEntries x
      bitCount := headerBits x
      payload := x.drop (12 + 5 * headerCount x) }

/-- R84: the address of FREQ[b]. -/
def freqAddr (b : Byte) : Addr := BitVec.ofNat 13 (0x100 + b.toNat)

/-- R156, R160: `for k in 0..N-1: WR FREQ[s_k], f_k`. -/
def loadEntries (s : State) (entries : List (Byte × BitVec 32)) : State :=
  entries.foldl (fun s e => s.busWrite (freqAddr e.1) e.2) s

/-- A line of the host's program, as a turn. -/
def hostLine (i : Instr) : Turn := .host (encode i)

/-- R82: `WAIT` is `RD STATUS`, shown once; the turns in front of it are what lets it read BUSY = 0. -/
def waitLine : Turn := hostLine (.rd 0x0002 0)

/-- R82: `POP 1`, after a core turn that may push a symbol. -/
def popTurns : List Turn := [.core, hostLine (.rd 0x000B 0)]

/-- R82, R206: `PUSH b`, the core turn that loads b (R143), and a pop after each of the eight core turns
that may walk its bits (R141): so no depth of the FIFOs is too small, no byte is dropped, and no symbol
of b stays unread. -/
def payloadTurns (b : Byte) : List Turn :=
  [hostLine (.wr 0x000A (b.setWidth 32)), .core] ++ (List.replicate 8 popTurns).flatten

/-- R156, the last line: DECODE; PUSH of the payload; POP until OUTLEN symbols are read; WAIT. The pop
behind the payload comes after the core turn of DEC_DONE, which fixes OUTLEN (R206); the reads of OUTLEN
after WAIT tell the host how many symbols it was to read. That the pops of this one interleaving reach
OUTLEN whatever the payload is a law, `decodeTurns_read_every_symbol` (log 20). -/
def decodeTurns (payload : List Byte) : List Turn :=
  [hostLine .decode] ++ payload.flatMap payloadTurns ++ popTurns
    ++ [waitLine, hostLine (.rd 0x0008 0), hostLine (.rd 0x0009 0)]

/-- R82: CLRFREQ or BUILD, the core turn that completes it, and WAIT. -/
def commandTurns (i : Instr) : List Turn := [hostLine i, .core, waitLine]

/-- R82: `WR64 BITCNT, B; WR64 INLEN, n`. -/
def lengthTurns (bitCount : BitVec 64) (n : Nat) : List Turn :=
  [hostLine (.wr 0x0006 (lo32 bitCount)), hostLine (.wr 0x0007 (hi32 bitCount)),
   hostLine (.wr 0x0004 (lo32 (BitVec.ofNat 64 n))), hostLine (.wr 0x0005 (hi32 (BitVec.ofNat 64 n)))]

/-- R156 up to DECODE. For N = 0 BUILD reports INVALID_INPUT, which the host may ignore (R157). -/
def loadTurns (c : Container) : List Turn :=
  commandTurns .clrfreq
    ++ c.entries.map (fun e => hostLine (.wr (freqAddr e.1) e.2))
    ++ commandTurns .build
    ++ lengthTurns c.bitCount c.payload.length

/-- R156 of a parsed container, on an idle block whose FIFOs are empty. R156 leaves the interleaving of the
host's lines with the core's steps open, and this is one (log 20, DESIGN CHOICE). -/
def restoreScript (c : Container) : List Turn := loadTurns c ++ decodeTurns c.payload

/-- R156 whole: parse and check first; `none` is the report of MalformedContainer, after which the host
stops. -/
def restoreTurns (x : List Byte) : Option (List Turn) := (Container.parse x).map restoreScript

/-- R58: the symbols among the words that OUT_DATA reads returned, first one first: those with VALID = 1. The
words stand newest first, as in `readLog`. -/
def symbolsRead (words : List Word) : List Byte :=
  ((words.filter (·.getLsbD 31)).map (·.extractLsb' 0 8)).reverse

/-- R155: the reads of the host's serialisation before the payload: NSYM, every FREQ in ascending order,
BITCNT_LO and BITCNT_HI; then `n` reads of OUT_DATA. -/
def saveScript (n : Nat) : List Turn :=
  let rd (a : Addr) : Turn := hostLine (.rd a 0)
  [rd 0x000D]
    ++ (List.range 256).map (fun k => rd (BitVec.ofNat 13 (0x100 + k)))
    ++ [rd 0x0006, rd 0x0007]
    ++ List.replicate n (rd 0x000B)

end Sys2Proof.Machine
end

