-- ==== Sys2Proof/Machine/BigStep.lean ====
section
/-! DEFINITION. The big-step readings that the spec gives "for testing" (44_encoder.md R134, R138;
45_decoder.md R148) and the core's run to the point where no core step is enabled (30_encoding.md
R79): what a whole command makes of its input. No step uses them. -/

namespace Sys2Proof.Machine

/-- `n` turns of the core with no host step between them (R79). -/
def coreTurns : Nat → State → Result
  | 0, s => .next s
  | n + 1, s =>
    match s.coreInstr with
    | none => .next s
    | some i =>
      match exec i { s with agent := .core } with
      | .next t => coreTurns n t
      | .fault f => .fault f
      | .refused r => .refused r

/-- A command from its acceptance: the host writes it, then the core has `n` turns. -/
def runCommand (i : Instr) (n : Nat) (s : State) : Result :=
  match exec i { s with agent := .host } with
  | .next t => coreTurns n t
  | .fault f => .fault f
  | .refused r => .refused r

/-- `n` steps of the machine, each taking its turn from the script. -/
def run : Nat → State → Result
  | 0, s => .next s
  | n + 1, s =>
    match step s with
    | .next t => run n t
    | .fault f => .fault f
    | .refused r => .refused r

/-- The whole of a list of turns, from a state (R15, R64). -/
def runTurns (turns : List Turn) (s : State) : Result := run turns.length { s with script := turns }

/-- R134: P, the codes of the input symbols one after another. -/
def encodeBits (t : CodeTable) (input : List Byte) : Bits := input.flatMap t.bitsOf

/-- The first `n` bytes of a bit list, each packed most significant bit first, padded with 0. -/
def packBytes : Nat → Bits → List Byte
  | 0, _ => []
  | n + 1, c => padByte (c.take 8) :: packBytes n (c.drop 8)

/-- R134: the ceil(B/8) payload bytes of a bit list. -/
def packBits (c : Bits) : List Byte := packBytes ((c.length + 7) / 8) c

/-- How a decoding ends (R148). -/
inductive DecodeEnd where
  | ok
  | missingChild
  | midCode
  | outside
  deriving DecidableEq, Repr

/-- R148: dec(T, P) from a position, the symbols emitted and how the walk ends. -/
def decodeBits (a : Arena) (pos : BitVec 9) : Bits → List Byte × DecodeEnd
  | [] => ([], if pos = a.root then .ok else .midCode)
  | bit :: c =>
    match a.walkBit pos bit with
    | .outside => ([], .outside)
    | .missing => ([], .missingChild)
    | .leaf symbol =>
      let r := decodeBits a a.root c
      (symbol :: r.1, r.2)
    | .inner i => decodeBits a i c

/-- R134: the bits of payload bytes, most significant bit first within each byte. -/
def payloadBits (bytes : List Byte) : Bits := bytes.flatMap fun b => bits 8 b.toNat

/-- R185: the error a decoding reports (R141, R144). -/
def DecodeEnd.err : DecodeEnd → Err
  | .ok => .noError
  | .missingChild => .corruptStream
  | .midCode => .corruptStream
  | .outside => .noError

end Sys2Proof.Machine
end

