-- ==== Sys2Proof/Machine/CoreSteps.lean ====
section
/-! DEFINITION. The named core steps of 40_control.md to 45_decoder.md (00_scope.md R15), each with its
enabling condition, in one list: what R100 and R212 speak of. -/

namespace Sys2Proof.Machine

/-- The core steps, by the names the rules give them. -/
inductive CoreStep where
  | nopExec
  | clrfreqExec
  | countByte
  | countDone
  | buildExec
  | gencodesExec
  | encConsume
  | encEmit
  | encDone
  | decLoad
  | decWalk
  | decDone
  | flushExec
  deriving DecidableEq, Repr

/-- The enabling condition of a core step (R95, R96, R106, R108, R113, R120, R131 to R133, R141, R143,
R144). -/
def CoreStep.enabled : CoreStep → State → Bool
  | .nopExec, s => nopExecEnabled s
  | .clrfreqExec, s => clrfreqExecEnabled s
  | .countByte, s => countByteEnabled s
  | .countDone, s => countDoneEnabled s
  | .buildExec, s => buildExecEnabled s
  | .gencodesExec, s => gencodesExecEnabled s
  | .encConsume, s => encConsumeEnabled s
  | .encEmit, s => encEmitEnabled s
  | .encDone, s => encDoneEnabled s
  | .decLoad, s => decLoadEnabled s
  | .decWalk, s => decWalkEnabled s
  | .decDone, s => decDoneEnabled s
  | .flushExec, s => flushExecEnabled s

/-- What a core step does. -/
def CoreStep.perform : CoreStep → State → Result
  | .nopExec, s => .next (Machine.nopExec s)
  | .clrfreqExec, s => .next (Machine.clrfreqExec s)
  | .countByte, s => .next (Machine.countByte s)
  | .countDone, s => .next (Machine.countDone s)
  | .buildExec, s => .next (Machine.buildExec s)
  | .gencodesExec, s => Machine.gencodesExec s
  | .encConsume, s => .next (Machine.encConsume s)
  | .encEmit, s => .next (Machine.encEmit s)
  | .encDone, s => .next (Machine.encDone s)
  | .decLoad, s => .next (Machine.decLoad s)
  | .decWalk, s => Machine.decWalk s
  | .decDone, s => .next (Machine.decDone s)
  | .flushExec, s => .next (Machine.flushExec s)

end Sys2Proof.Machine
end

