-- ==== Sys2Proof/Safety.lean ====
section
/-! DEFINITION. What a sound state of HUFFCORE is, in the terms the claims use: the bounds of 10_state.md
on its lists, what BUSY, the valid flags and ERR promise, and where the decoder may stand. -/

namespace Sys2Proof.Machine

/-- R35, R36: neither FIFO holds more than its depth. -/
structure FifoBounds (s : State) : Prop where
  inq_le : s.inq.length ≤ s.inDepth.val
  outq_le : s.outq.length ≤ s.outDepth.val

/-- R38, R39: the bounds of the bit buffers. -/
structure BufferBounds (s : State) : Prop where
  pb_le : s.pb.length ≤ 262
  dbuf_le : s.dbuf.length ≤ 8

/-- R34: the bits of CODE[b] at CODE_LEN[b] and above are 0. -/
def CodesFit (s : State) : Prop :=
  ∀ b : Byte, (s.codes.codeOf b).toNat < 2 ^ (s.codes.lenOf b).toNat

/-- R185, R190: the errors a running command can have recorded. -/
def errOf (op : BitVec 4) (e : Err) : Bool :=
  e == .noError ||
  (op == opCount && e == .countOverflow) ||
  (op == opEncode && (e == .notReady || e == .unknownSymbol)) ||
  (op == opDecode && (e == .malformedContainer || e == .notReady || e == .corruptStream))

/-- R22, R37, R43: OP is a command with core steps; while BUSY = 1, DONE is 0, LASTCMD is OP, and ERR is
an error of that command. -/
structure JobConsistent (s : State) : Prop where
  op_le : s.op.toNat ≤ 7
  not_done : s.busy = true → s.done = false
  lastcmd_eq : s.busy = true → s.lastcmd = s.op
  err_of : s.busy = true → errOf s.op s.err = true

/-- R22, R43, D19, D35: what the arena and the code table hold, and what TREE_VALID and CODES_VALID
promise about them; no running command that changes FREQ or the tables leaves them valid. -/
structure TreeConsistent (s : State) : Prop where
  built : ∃ freq, s.arena = buildTree freq
  tree_valid : s.treeValid = true → s.arena = buildTree s.freq ∧ nsym s.freq ≠ 0
  codes_valid : s.codesValid = true → s.treeValid = true ∧ genCodes s.arena = .ok s.codes
  freq_writer : s.busy = true → s.op = opClrfreq ∨ s.op = opCount ∨ s.op = opBuild →
    s.treeValid = false ∧ s.codesValid = false
  codes_writer : s.busy = true → s.op = opGencodes → s.codesValid = false
  encoder : s.busy = true → s.op = opEncode → s.err = .noError → s.jobRem ≠ 0 → s.codesValid = true

/-- R39, R141 to R143: while a DECODE runs, the decoder stands at an internal node; while it has met no
error, the bytes still to come are exactly those of the bits still to come, and it has a tree. -/
structure DecoderConsistent (s : State) : Prop where
  position : s.busy = true → s.op = opDecode → ∃ n, s.arena.nodeAt s.dnode = some n ∧ n.isLeaf = false
  remaining : s.busy = true → s.op = opDecode → s.err = .noError → s.jobRem = ceil8 s.dbitsRem
  has_tree : s.busy = true → s.op = opDecode → s.err = .noError → s.dbitsRem ≠ 0 ∨ s.dbuf ≠ [] → s.treeValid = true

/-- A sound state. -/
structure Inv (s : State) : Prop where
  fifo : FifoBounds s
  buffers : BufferBounds s
  codes : CodesFit s
  job : JobConsistent s
  tree : TreeConsistent s
  decoder : DecoderConsistent s

/-- R122: the node that a path of edge bits leads to, through internal nodes only. -/
def Arena.follow (a : Arena) (i : BitVec 9) : Bits → Option Node
  | [] => a.nodeAt i
  | b :: c =>
    match a.nodeAt i with
    | none => none
    | some n =>
      let child := if b then n.right else n.left
      if n.isLeaf || child == nullIdx then none else a.follow child c

/-- R122: the path of edge bits from ROOT to the leaf of a symbol. -/
def Arena.IsCodeOf (a : Arena) (b : Byte) (path : Bits) : Prop :=
  ∃ n, a.follow a.root path = some n ∧ n.isLeaf = true ∧ n.symbol = b

/-- R105: a symbol is present when its frequency is at least 1. -/
def present (freq : Vector (BitVec 32) 256) (b : Byte) : Bool := freq[b.toNat]'b.isLt != 0

/-- R112: how many present symbols are below a symbol. -/
def rank (freq : Vector (BitVec 32) 256) (b : Byte) : Nat :=
  (List.range b.toNat).countP fun k => freq[k]?.getD 0 != 0

/-- R119: the cost of code lengths, the sum of FREQ[b] x length(b). -/
def cost (freq : Vector (BitVec 32) 256) (len : Byte → Nat) : Nat :=
  ((List.range 256).map fun k => (freq[k]?.getD 0).toNat * len (BitVec.ofNat 8 k)).sum

/-- R212, R79: no core step is enabled. -/
def State.coreQuiet (s : State) : Prop := ∀ c : CoreStep, c.enabled s = false

/-- R205, R206, R212: the core waits for the host, for an input byte or for room in OUTQ. -/
def State.waitsForHost (s : State) : Prop :=
  (s.inq = [] ∧ s.jobRem ≠ 0) ∨ s.outq.length = s.outDepth.val

/-- R98, R13: a read returns this value to the host and changes nothing else. -/
def ReadsAs (s : State) (addr : Addr) (v : Word) : Prop :=
  exec (.rd addr 0) s = .next { s with readLog := v :: s.readLog }

end Sys2Proof.Machine
end

