-- ==== Sys2Proof/Certificates/Slice0/Obligations.lean ====
section
/-! DEFINITION. The statements about HUFFCORE for the provers. Each docstring names the rules it comes
from, and the log entry where a clause rests on a choice of the model. -/

open Sys2Proof Sys2Proof.Machine

/-! ### Encoding -/

/-- R72, R75, R78 on a few words written out from their encodings. -/
def Obligations.TabledWordsDecode : Prop :=
  decodeCmd 0x00000000#32 = .ok .nop ∧
  decodeCmd 0x00000001#32 = .ok .clrfreq ∧
  decodeCmd 0x00000002#32 = .ok .count ∧
  decodeCmd 0x00000003#32 = .ok .build ∧
  decodeCmd 0x00000004#32 = .ok .gencodes ∧
  decodeCmd 0x00000005#32 = .ok .encode ∧
  decodeCmd 0x00000006#32 = .ok .decode ∧
  decodeCmd 0x00000007#32 = .ok .flush ∧
  decodeCmd 0x0000000F#32 = .ok .softreset ∧
  decodeCmd 0x00000008#32 = .error .reservedOpcode ∧
  decodeCmd 0x0000001F#32 = .error .reservedBitsSet ∧
  decodeBus 0x200100000003#46 = .wr 0x0001 0x00000003 ∧
  decodeBus 0x217A00000004#46 = .wr 0x017A 0x00000004 ∧
  decodeBus 0x000212345678#46 = .rd 0x0002 0x00000000

/-- R75: decode_cmd on every 32-bit word. A word is legal exactly when it is the table's word of a
command; it is illegal exactly when bits 31:4 are not 0 or bits 3:0 are in 0x8..0xE (R74). -/
def Obligations.CommandWordsAreExactlyTheTabled : Prop :=
  (∀ (w : Word) (i : Instr), decodeCmd w = .ok i ↔ encode i = .cmd w) ∧
  (∀ w : Word, (∃ e, decodeCmd w = .error e) ↔
    (w.toNat / 16 ≠ 0 ∨ (8 ≤ w.toNat % 16 ∧ w.toNat % 16 ≤ 14)))

/-- R71, R77: decoding the encoding of a well-formed instruction gives it back, and every word that
decodes gives a well-formed instruction. -/
def Obligations.DecodeOfEncodeIsTheInstruction : Prop :=
  (∀ i : Instr, i.wellFormed = true → decode (encode i) = .ok i) ∧
  (∀ (w : HostWord) (i : Instr), decode w = .ok i → i.wellFormed = true)

/-- R78: a transaction word decodes by its fields, bit 45, bits 44:32 and bits 31:0; the data field of a
read is ignored, and 0 is its canonical value. -/
def Obligations.TransactionWordsDecodeByFields : Prop :=
  (∀ t : BitVec 46,
    decodeBus t =
      (if t.getLsbD 45 then .wr (BitVec.ofNat 13 (t.toNat / 2 ^ 32)) (BitVec.ofNat 32 t.toNat)
       else .rd (BitVec.ofNat 13 (t.toNat / 2 ^ 32)) 0) ∧
    encode (decodeBus t) =
      .bus (if t.getLsbD 45 then t else BitVec.ofNat 46 (t.toNat / 2 ^ 32 * 2 ^ 32))) ∧
  (∀ (a : Addr) (d : Word) (s : State), exec (.rd a d) s = exec (.rd a 0) s)

/-- R46 to R48, R84: the canonical address of every register and window word names it, and the reserved
addresses are exactly those the tables leave. -/
def Obligations.AddressMapNamesEveryRegister : Prop :=
  (∀ (t : Target) (a : Addr), t.addr = some a → target a = t) ∧
  (∀ a : Addr, target a = .reserved ↔
    ((0x000F ≤ a.toNat ∧ a.toNat ≤ 0x00FF) ∨ (0x0300 ≤ a.toNat ∧ a.toNat ≤ 0x07FF) ∨ 0x17FC ≤ a.toNat))

/-! ### The step -/

/-- R15, R79: on the host's turn a step runs the decoded line of the program; an illegal command word is
written to CMD like any other (R90). The script is the model's form of an interleaving (log 2, 3). -/
def Obligations.StepRunsTheHostLine : Prop :=
  ∀ (s : State) (w : HostWord) (rest : List Turn), s.script = .host w :: rest →
    (∀ i : Instr, decode w = .ok i → step s = exec i { s with script := rest, agent := .host }) ∧
    (∀ (c : Word) (e : DecodeError), w = .cmd c → decodeCmd c = .error e →
      step s = exec (.wr 0x0001 c) { s with script := rest, agent := .host })

/-- R91: on the core's turn a step runs the command that OP names while BUSY = 1. Two parts are the model's own
choice and no rule of the spec: that a step with BUSY = 0, where R100 enables no core step, answers the same
block state (log 9, DESIGN CHOICE: an ended run repeats its state), and that an exhausted script leaves the
turn to the core (log 2). -/
def Obligations.StepRunsTheRunningCommand : Prop :=
  ∀ s : State, (s.script = [] ∨ ∃ rest, s.script = .core :: rest) →
    (∀ i : Instr, s.busy = true → encode i = .cmd (s.op.setWidth 32) →
      step s = exec i { s with script := s.script.tail, agent := .core }) ∧
    (s.busy = false → step s = .next { s with script := s.script.tail, agent := .core })

/-- R200: the reset input and SOFTRESET give every element of the block its reset value in one step,
whether or not a command runs, and STATUS then reads 0x00000280, NSYM 0 and IRQ 0; SOFTRESET has no core
step (R97). What is no state of the block stays (log 7). -/
def Obligations.ResetRestoresEveryElement : Prop :=
  ∀ s : State, ∃ t : State,
    t =
      { busy := false, treeValid := false, codesValid := false, done := false, cmdDropped := false,
        inOvf := false, err := .noError, lastcmd := 0, irqEn := false, inlen := 0, bitcnt := 0, outlen := 0,
        freq := Vector.replicate 256 0,
        arena :=
          { node := Vector.replicate 511 { weight := 0, left := 0, right := 0, isLeaf := false, symbol := 0 },
            root := 0, nnodes := 0, live := Vector.replicate 511 false },
        codes := { len := Vector.replicate 256 0, code := Vector.replicate 256 0 },
        inq := [], outq := [], op := 0, jobRem := 0, pb := [], encBits := 0, outN := 0, dnode := 0,
        dbuf := [], dbitsRem := 0,
        inDepth := s.inDepth, outDepth := s.outDepth, agent := s.agent, script := s.script,
        readLog := s.readLog, draws := s.draws } ∧
    (∀ rest, s.script = .reset :: rest → step s = .next { t with script := rest }) ∧
    (s.agent = .host → exec .softreset s = .next t) ∧
    (s.agent = .core → exec .softreset s = .next s) ∧
    exec (.wr 0x0001 0x0000000F) s = .next t ∧
    t.statusWord = 0x00000280 ∧ nsym t.freq = 0 ∧ t.irq = false

/-! ### A write to CMD -/

/-- R82, R99: `CMD <m>` is `WR CMD, <opcode of m>`, for every command. -/
def Obligations.CommandLineIsTheWriteToCmd : Prop :=
  ∀ (i : Instr) (w : Word) (s : State), encode i = .cmd w → s.agent = .host →
    exec i s = exec (.wr 0x0001 w) s

/-- R91, R106, R108, R113, R120: acceptance of the commands whose acceptance checks nothing. -/
def Obligations.AcceptanceStartsTheCommand : Prop :=
  ∀ s : State, s.agent = .host → s.busy = false →
    exec .nop s = .next { s with lastcmd := 0x0, op := 0x0, err := .noError, done := false, busy := true } ∧
    exec .clrfreq s = .next
      { s with
        lastcmd := 0x1, op := 0x1, err := .noError, done := false, busy := true,
        treeValid := false, codesValid := false } ∧
    exec .count s = .next
      { s with
        lastcmd := 0x2, op := 0x2, err := .noError, done := false, busy := true,
        treeValid := false, codesValid := false, jobRem := s.inlen } ∧
    exec .build s = .next
      { s with
        lastcmd := 0x3, op := 0x3, err := .noError, done := false, busy := true,
        treeValid := false, codesValid := false } ∧
    exec .gencodes s = .next
      { s with
        lastcmd := 0x4, op := 0x4, err := .noError, done := false, busy := true, codesValid := false } ∧
    exec .flush s = .next { s with lastcmd := 0x7, op := 0x7, err := .noError, done := false, busy := true }

/-- R91, R130: acceptance of ENCODE, with its check. -/
def Obligations.EncodeAcceptanceChecksTheTable : Prop :=
  ∀ s : State, s.agent = .host → s.busy = false →
    exec .encode s = .next
      { s with
        lastcmd := 0x5, op := 0x5, done := false, busy := true,
        err := if s.inlen ≠ 0 ∧ s.codesValid = false then .notReady else .noError,
        jobRem := s.inlen, pb := [], encBits := 0, outN := 0 }

/-- R91, R140, R142, R146, R190: acceptance of DECODE, with its two checks in order; ceil8 is the exact
ceiling of BITCNT/8. -/
def Obligations.DecodeAcceptanceChecksLengthThenTree : Prop :=
  ∀ s : State, s.agent = .host → s.busy = false →
    exec .decode s = .next
      { s with
        lastcmd := 0x6, op := 0x6, done := false, busy := true,
        err :=
          if s.inlen.toNat ≠ (s.bitcnt.toNat + 7) / 8 then .malformedContainer
          else if s.bitcnt ≠ 0 ∧ s.treeValid = false then .notReady
          else .noError,
        jobRem := s.inlen, dbitsRem := s.bitcnt, dbuf := [], outN := 0, dnode := s.arena.root }

/-- R93: a CMD write while BUSY = 1, of any word except 0x0000000F. -/
def Obligations.BusyCommandWriteIsDropped : Prop :=
  ∀ (s : State) (w : Word), s.busy = true → w ≠ 0x0000000F →
    exec (.wr 0x0001 w) s = .next { s with cmdDropped := true }

/-- R92: an illegal word written while BUSY = 0, and the rule's example from reset. -/
def Obligations.IllegalCommandWordIsRefused : Prop :=
  (∀ (s : State) (w : Word), s.busy = false →
    (w.extractLsb' 4 28 ≠ 0 ∨ (0x8 ≤ w.extractLsb' 0 4 ∧ w.extractLsb' 0 4 ≤ 0xE)) →
    exec (.wr 0x0001 w) s = .next
      { s with lastcmd := w.extractLsb' 0 4, err := .illegalCommand, done := true }) ∧
  (∃ t, exec (.wr 0x0001 0x00000008) State.reset = .next t ∧ t.statusWord = 0x00086288)

/-! ### Control and frequency commands -/

/-- R95, R96, R94: the core steps of NOP and FLUSH. -/
def Obligations.NopAndFlushComplete : Prop :=
  ∀ s : State, s.agent = .core → s.busy = true →
    (s.op = 0x0 → exec .nop s = .next { s with busy := false, done := true }) ∧
    (s.op = 0x7 → exec .flush s = .next { s with busy := false, done := true, inq := [], outq := [] })

/-- R106: the core step of CLRFREQ zeroes every FREQ entry, so NSYM is 0, and changes nothing else but
BUSY and DONE. -/
def Obligations.ClrfreqZeroesTheTable : Prop :=
  ∀ s : State, s.agent = .core → s.busy = true → s.op = 0x1 →
    ∃ t : State, exec .clrfreq s = .next t ∧
      t = { s with busy := false, done := true, freq := t.freq } ∧
      (∀ b : Byte, t.freqOf b = 0) ∧ nsym t.freq = 0

/-- R108, R109: every core step of COUNT: a byte is counted, overflows or is drained; the job completes;
the core holds on an empty INQ. -/
def Obligations.CountCountsEachByte : Prop :=
  ∀ s : State, s.agent = .core → s.busy = true → s.op = 0x2 →
    (∀ (b : Byte) (q : List Byte), s.jobRem ≠ 0 → s.inq = b :: q →
      (s.err = .noError → s.freqOf b ≠ 0xFFFFFFFF →
        exec .count s = .next
          { s with
            inq := q, jobRem := s.jobRem - 1,
            freq := s.freq.set b.toNat (s.freqOf b + 1) b.isLt } ∧
        (s.freqOf b + 1).toNat = (s.freqOf b).toNat + 1) ∧
      (s.err = .noError → s.freqOf b = 0xFFFFFFFF →
        exec .count s = .next { s with inq := q, jobRem := s.jobRem - 1, err := .countOverflow }) ∧
      (s.err ≠ .noError → exec .count s = .next { s with inq := q, jobRem := s.jobRem - 1 })) ∧
    (s.jobRem = 0 → exec .count s = .next { s with busy := false, done := true }) ∧
    (s.jobRem ≠ 0 → s.inq = [] → exec .count s = .next s)

/-- R107: the counting law of one job: from its acceptance, with its input in INQ and no count beyond 32
bits, COUNT adds to each entry the number of occurrences of its symbol and completes. -/
def Obligations.CountJobAddsOccurrences : Prop :=
  ∀ (s : State) (input rest : List Byte), s.busy = false → s.inq = input ++ rest →
    s.inlen.toNat = input.length →
    (∀ b : Byte, (s.freqOf b).toNat + input.count b < 2 ^ 32) →
    ∃ (n : Nat) (t : State), runCommand .count n s = .next t ∧
      (∀ b : Byte, (t.freqOf b).toNat = (s.freqOf b).toNat + input.count b) ∧
      t.busy = false ∧ t.done = true ∧ t.err = .noError ∧ t.inq = rest ∧ t.outq = s.outq ∧
      t.treeValid = false ∧ t.codesValid = false ∧ t.arena = s.arena ∧ t.codes = s.codes ∧
      t.inlen = s.inlen ∧ t.bitcnt = s.bitcnt ∧ t.outlen = s.outlen

/-! ### The tree -/

/-- R113, R114, R117: the core step of BUILD. With no symbol present it raises INVALID_INPUT and leaves
the zero arena; otherwise it leaves the tree of FREQ and sets TREE_VALID. -/
def Obligations.BuildStepBuildsOrReportsEmpty : Prop :=
  ∀ s : State, s.agent = .core → s.busy = true → s.op = 0x3 →
    ((∀ b : Byte, s.freqOf b = 0) →
      exec .build s = .next
        { s with arena := Arena.zero, err := .invalidInput, busy := false, done := true }) ∧
    ((∃ b : Byte, s.freqOf b ≠ 0) →
      exec .build s = .next
        { s with arena := buildTree s.freq, treeValid := true, busy := false, done := true })

/-- R110: extract_min removes the live node that is before every other live node; of two different indices
exactly one is before the other. -/
def Obligations.ExtractMinTakesTheLeastKey : Prop :=
  ∀ a : Arena,
    (a.extractMin = none ↔ ∀ (j : Nat) (h : j < 511), a.live[j] = false) ∧
    (∀ (x : Entry) (a' : Arena), a.extractMin = some (x, a') →
      ∃ h : x.idx < 511,
        a.live[x.idx] = true ∧ x.weight = a.node[x.idx].weight ∧
        a' = { a with live := a.live.set x.idx false } ∧
        ∀ (j : Nat) (hj : j < 511), a.live[j] = true → j ≠ x.idx →
          x.weight < a.node[j].weight ∨ (x.weight = a.node[j].weight ∧ x.idx < j)) ∧
    (∀ (i j : Nat) (hi : i < 511) (hj : j < 511), i ≠ j →
      ((a.node[i].weight < a.node[j].weight ∨ (a.node[i].weight = a.node[j].weight ∧ i < j)) ↔
        ¬(a.node[j].weight < a.node[i].weight ∨ (a.node[j].weight = a.node[i].weight ∧ j < i))))

/-- R111: a merge replaces the two least live nodes by a new internal node over them, left = first
removed, right = second removed. -/
def Obligations.MergeJoinsTheTwoLeast : Prop :=
  ∀ (a a₁ a₂ : Arena) (x y : Entry) (h : a.nnodes.toNat < 511),
    a.extractMin = some (x, a₁) → a₁.extractMin = some (y, a₂) →
    a.merge =
      { node :=
          a.node.set a.nnodes.toNat
            { weight := x.weight + y.weight, left := BitVec.ofNat 9 x.idx, right := BitVec.ofNat 9 y.idx,
              isLeaf := false, symbol := 0 }
        root := a.root
        nnodes := a.nnodes + 1
        live := a₂.live.set a.nnodes.toNat true } ∧
    x.idx ≠ y.idx ∧ (BitVec.ofNat 9 x.idx).toNat = x.idx ∧ (BitVec.ofNat 9 y.idx).toNat = y.idx

/-- R112: the queue starts with one leaf per present symbol, at the indices below NSYM; the leaf of the k-th
smallest present symbol has index k, with the symbol's frequency as its weight (R31), and BUILD keeps it. -/
def Obligations.LeavesStandInSymbolOrder : Prop :=
  ∀ freq : Vector (BitVec 32) 256,
    (∀ (i : Nat) (_ : i < 511), (insertLeaves freq 256).live[i] = true ↔ i < nsym freq) ∧
    (insertLeaves freq 256).nnodes.toNat = nsym freq ∧
    ∀ b : Byte, present freq b = true →
      rank freq b < nsym freq ∧
      ∃ leaf : Node,
        leaf =
          { weight := (freq[b.toNat]'b.isLt).setWidth 40, left := 0x1FF, right := 0x1FF, isLeaf := true, symbol := b } ∧
        (insertLeaves freq 256).nodeAt (BitVec.ofNat 9 (rank freq b)) = some leaf ∧
        (buildTree freq).nodeAt (BitVec.ofNat 9 (rank freq b)) = some leaf

/-- R116: the tree of a table with one symbol, its code, and where a 1 bit at the root leads: to no child, which
the decoder reports as CORRUPT_STREAM. -/
def Obligations.SingleSymbolTreeHasSyntheticRoot : Prop :=
  ∀ (freq : Vector (BitVec 32) 256) (b : Byte), present freq b = true →
    (∀ c : Byte, c ≠ b → present freq c = false) →
    (buildTree freq).node[0] =
      { weight := (freq[b.toNat]'b.isLt).setWidth 40, left := 0x1FF, right := 0x1FF, isLeaf := true, symbol := b } ∧
    (buildTree freq).node[1] =
      { weight := (freq[b.toNat]'b.isLt).setWidth 40, left := 0, right := 0x1FF, isLeaf := false, symbol := 0 } ∧
    (buildTree freq).nnodes = 2 ∧ (buildTree freq).root = 1 ∧
    (∃ t, genCodes (buildTree freq) = .ok t ∧ t.bitsOf b = [false]) ∧
    (buildTree freq).walkBit 1 true = .missing ∧
    decodeBits (buildTree freq) (buildTree freq).root [true] = ([], .missingChild) ∧
    DecodeEnd.missingChild.err = .corruptStream

/-- R115: with two or more symbols, BUILD is exactly NSYM - 1 merges, each of which makes one live node out of
two; it ends with 2 x NSYM - 1 nodes, one of them live, the root the last; the root's weight is the sum of all
FREQ entries. -/
def Obligations.BuildMergesDownToOneRoot : Prop :=
  ∀ freq : Vector (BitVec 32) 256, 2 ≤ nsym freq →
    (∀ k : Nat, k ≤ nsym freq - 1 →
      ((Arena.merge)^[k] (insertLeaves freq 256)).queue.length = nsym freq - k) ∧
    buildTree freq =
      { (Arena.merge)^[nsym freq - 1] (insertLeaves freq 256) with
        root := BitVec.ofNat 9 (2 * nsym freq - 2) } ∧
    (buildTree freq).nnodes.toNat = 2 * nsym freq - 1 ∧
    (buildTree freq).root.toNat = 2 * nsym freq - 2 ∧
    (∀ (i : Nat) (_ : i < 511), (buildTree freq).live[i] = true ↔ i = 2 * nsym freq - 2) ∧
    ∃ r, (buildTree freq).nodeAt (buildTree freq).root = some r ∧
      r.weight.toNat = (freq.toList.map BitVec.toNat).sum

/-- R118, R31: the shape of a built tree. Leaves are below NSYM, internal nodes at NSYM or above with
children below them and the sum of their children's weights; every entry but the root is the child of
exactly one node; the entries at NNODES and above are zero records; a leaf's depth is at most NSYM - 1
(1 for one symbol). -/
def Obligations.BuiltTreeShape : Prop :=
  ∀ (freq : Vector (BitVec 32) 256), nsym freq ≠ 0 →
    let a := buildTree freq
    a.root.toNat + 1 = a.nnodes.toNat ∧
    (∀ (i : Nat) (h : i < 511), i < nsym freq → (a.node[i]).isLeaf = true) ∧
    (∀ (i : Nat) (h : i < 511), nsym freq ≤ i → i < a.nnodes.toNat →
      (a.node[i]).isLeaf = false ∧
      ∃ (hl : (a.node[i]).left.toNat < i),
        ((a.node[i]).right = 0x1FF ∧ nsym freq = 1 ∧ (a.node[i]).weight = a.node[(a.node[i]).left.toNat].weight) ∨
        ∃ (hr : (a.node[i]).right.toNat < i),
          (a.node[i]).left ≠ (a.node[i]).right ∧
          (a.node[i]).weight.toNat =
            a.node[(a.node[i]).left.toNat].weight.toNat + a.node[(a.node[i]).right.toNat].weight.toNat) ∧
    (∀ j : BitVec 9, j.toNat < a.root.toNat →
      ∃ i : Nat, (∃ h : i < 511, nsym freq ≤ i ∧ i < a.nnodes.toNat ∧ ((a.node[i]).left = j ∨ (a.node[i]).right = j)) ∧
        ∀ (k : Nat) (hk : k < 511), nsym freq ≤ k → k < a.nnodes.toNat →
          ((a.node[k]).left = j ∨ (a.node[k]).right = j) → k = i) ∧
    (∀ (i : Nat) (h : i < 511), a.nnodes.toNat ≤ i → a.node[i] = Node.zero) ∧
    (∀ (b : Byte) (path : Bits), a.IsCodeOf b path → 1 ≤ path.length ∧ path.length ≤ max 1 (nsym freq - 1))

/-- R119: for two or more symbols no prefix-free assignment of bit strings to the present symbols costs
less than the code table of the built tree. -/
def Obligations.HuffmanCodeIsOptimal : Prop :=
  ∀ (freq : Vector (BitVec 32) 256) (t : CodeTable) (c : Byte → Bits), 2 ≤ nsym freq →
    genCodes (buildTree freq) = .ok t →
    (∀ x y : Byte, present freq x = true → present freq y = true → x ≠ y → ¬ c x <+: c y) →
    cost freq (fun b => (t.lenOf b).toNat) ≤ cost freq (fun b => (c b).length)

/-! ### The code table -/

/-- R120, R122: the core step of GENCODES in every sound state. With a valid tree it records the path of
every leaf of the tree, and nothing for other symbols; without one it raises NOT_READY. -/
def Obligations.GencodesRecordsEveryPath : Prop :=
  ∀ s : State, Inv s → s.agent = .core → s.busy = true → s.op = 0x4 →
    (s.treeValid = true →
      ∃ t : CodeTable,
        exec .gencodes s = .next { s with codes := t, codesValid := true, busy := false, done := true } ∧
        (∀ (b : Byte) (path : Bits), s.arena.IsCodeOf b path →
          (t.lenOf b).toNat = path.length ∧ (t.codeOf b).toNat = num path ∧ t.bitsOf b = path) ∧
        (∀ b : Byte, present s.freq b = true → ∃ path, s.arena.IsCodeOf b path) ∧
        (∀ b : Byte, present s.freq b = false → t.lenOf b = 0 ∧ t.codeOf b = 0)) ∧
    (s.treeValid = false →
      exec .gencodes s = .next { s with err := .notReady, busy := false, done := true })

/-- R123: the laws of the table: coverage, prefix-free, code-space sum, length bound. -/
def Obligations.CodeTableLaws : Prop :=
  ∀ freq : Vector (BitVec 32) 256, nsym freq ≠ 0 →
    ∃ t : CodeTable, genCodes (buildTree freq) = .ok t ∧
      (∀ b : Byte, t.lenOf b ≠ 0 ↔ present freq b = true) ∧
      (∀ x y : Byte, present freq x = true → present freq y = true → x ≠ y → ¬ t.bitsOf x <+: t.bitsOf y) ∧
      (((List.range 256).map fun k =>
          if freq[k]?.getD 0 = 0 then 0 else 2 ^ (255 - (t.lenOf (BitVec.ofNat 8 k)).toNat)).sum =
        if nsym freq = 1 then 2 ^ 254 else 2 ^ 255) ∧
      (∀ b : Byte, present freq b = true →
        1 ≤ (t.lenOf b).toNat ∧
        (2 ≤ nsym freq → (t.lenOf b).toNat ≤ nsym freq - 1) ∧
        (nsym freq = 1 → (t.lenOf b).toNat = 1))

/-! ### The encoder -/

/-- R131: ENC_CONSUME appends the code of the symbol, reports a symbol without a code, or drains; PB
stays within 7 + 255 bits. -/
def Obligations.EncConsumeAppendsTheCode : Prop :=
  ∀ (s : State) (b : Byte) (q : List Byte), s.agent = .core → s.busy = true → s.op = 0x5 →
    s.jobRem ≠ 0 → s.inq = b :: q →
    (s.err = .noError → s.pb.length < 8 → s.codes.lenOf b ≠ 0 →
      exec .encode s = .next
        { s with
          inq := q, jobRem := s.jobRem - 1,
          pb := s.pb ++ bits (s.codes.lenOf b).toNat (s.codes.codeOf b).toNat,
          encBits := s.encBits + (s.codes.lenOf b).setWidth 64 } ∧
      (s.pb ++ bits (s.codes.lenOf b).toNat (s.codes.codeOf b).toNat).length ≤ 7 + 255) ∧
    (s.err = .noError → s.pb.length < 8 → s.codes.lenOf b = 0 →
      exec .encode s = .next { s with inq := q, jobRem := s.jobRem - 1, err := .unknownSymbol, pb := [] }) ∧
    (s.err ≠ .noError → exec .encode s = .next { s with inq := q, jobRem := s.jobRem - 1 })

/-- R132: ENC_EMIT pushes the first eight pending bits, the first of them as bit 7; a full OUTQ holds it. -/
def Obligations.EncEmitPushesEightBits : Prop :=
  ∀ s : State, s.agent = .core → s.busy = true → s.op = 0x5 → s.err = .noError → 8 ≤ s.pb.length →
    (s.outq.length < s.outDepth.val →
      ∃ byte : Byte,
        byte.toNat = num (s.pb.take 8) ∧ (some (byte.getLsbD 7) = s.pb.head?) ∧
        exec .encode s = .next
          { s with outq := s.outq ++ [byte], pb := s.pb.drop 8, outN := s.outN + 1 }) ∧
    (s.outDepth.val ≤ s.outq.length → exec .encode s = .next s)

/-- R133: ENC_DONE pushes the zero-padded last partial byte, if there is one and no error, writes BITCNT
and OUTLEN, and completes; a full OUTQ holds it only when it has a byte to push. -/
def Obligations.EncDonePadsAndReports : Prop :=
  ∀ s : State, s.agent = .core → s.busy = true → s.op = 0x5 → s.jobRem = 0 →
    (s.err = .noError → s.pb = [] →
      exec .encode s = .next
        { s with bitcnt := s.encBits, outlen := s.outN, busy := false, done := true }) ∧
    (s.err = .noError → s.pb ≠ [] → s.pb.length < 8 → s.outq.length < s.outDepth.val →
      ∃ byte : Byte,
        byte.toNat = num (s.pb ++ List.replicate (8 - s.pb.length) false) ∧
        exec .encode s = .next
          { s with
            outq := s.outq ++ [byte], outN := s.outN + 1, pb := [],
            bitcnt := s.encBits, outlen := s.outN + 1, busy := false, done := true }) ∧
    (s.err = .noError → s.pb ≠ [] → s.pb.length < 8 → s.outDepth.val ≤ s.outq.length →
      exec .encode s = .next s) ∧
    (s.err ≠ .noError →
      exec .encode s = .next
        { s with pb := [], bitcnt := s.encBits, outlen := s.outN, busy := false, done := true })

/-- R134: where each payload bit stands: B bits make ceil(B/8) bytes, bit k is bit 7 - (k mod 8) of byte
k/8, and the bits past B are 0. -/
def Obligations.PayloadBitsStandMostSignificantFirst : Prop :=
  ∀ p : Bits,
    (packBits p).length = (p.length + 7) / 8 ∧
    (∀ (k : Nat) (byte : Byte), (packBits p)[k / 8]? = some byte →
      byte.getLsbD (7 - k % 8) = p[k]?.getD false) ∧
    payloadBits (packBits p) = p ++ List.replicate (8 * ((p.length + 7) / 8) - p.length) false

/-- R134, R135, R138: a whole ENCODE job without error, from its acceptance with its input in INQ and room
for its output: it pushes the packed codes of its input, reports their length and the byte count, takes
exactly its input, and leaves the tables as they were. -/
def Obligations.EncodeJobPushesThePackedCodes : Prop :=
  ∀ (s : State) (input rest : List Byte), s.busy = false → (input ≠ [] → s.codesValid = true) →
    s.inq = input ++ rest → s.inlen.toNat = input.length →
    (∀ b ∈ input, s.codes.lenOf b ≠ 0) →
    s.outq.length + ((encodeBits s.codes input).length + 7) / 8 ≤ s.outDepth.val →
    ∃ (n : Nat) (t : State), runCommand .encode n s = .next t ∧
      t.outq = s.outq ++ packBits (encodeBits s.codes input) ∧
      t.bitcnt = BitVec.ofNat 64 (encodeBits s.codes input).length ∧
      t.outlen = BitVec.ofNat 64 (((encodeBits s.codes input).length + 7) / 8) ∧
      t.inq = rest ∧ t.busy = false ∧ t.done = true ∧ t.err = .noError ∧ t.inlen = s.inlen ∧
      t.freq = s.freq ∧ t.arena = s.arena ∧ t.codes = s.codes ∧
      t.treeValid = s.treeValid ∧ t.codesValid = s.codesValid

/-- R136: an ENCODE job that meets a symbol without a code: the codes of the symbols before it are
counted, their complete bytes pushed, the bits left over discarded, and the rest of the input drained. -/
def Obligations.EncodeJobStopsAtUnknownSymbol : Prop :=
  ∀ (s : State) (input : List Byte) (b : Byte) (tail rest : List Byte), s.busy = false → s.codesValid = true →
    s.inq = input ++ b :: tail ++ rest → s.inlen.toNat = input.length + 1 + tail.length →
    (∀ x ∈ input, s.codes.lenOf x ≠ 0) → s.codes.lenOf b = 0 →
    s.outq.length + (encodeBits s.codes input).length / 8 ≤ s.outDepth.val →
    ∃ (n : Nat) (t : State), runCommand .encode n s = .next t ∧
      t.err = .unknownSymbol ∧
      t.outq = s.outq ++ packBytes ((encodeBits s.codes input).length / 8) (encodeBits s.codes input) ∧
      t.bitcnt = BitVec.ofNat 64 (encodeBits s.codes input).length ∧
      t.outlen = BitVec.ofNat 64 ((encodeBits s.codes input).length / 8) ∧
      t.inq = rest ∧ t.busy = false ∧ t.done = true ∧ t.pb = []

/-! ### The decoder -/

/-- R143: DEC_LOAD takes the valid bits of a byte, bit 7 first, or drains the byte. -/
def Obligations.DecLoadTakesTheValidBits : Prop :=
  ∀ (s : State) (b : Byte) (q : List Byte), s.agent = .core → s.busy = true → s.op = 0x6 →
    s.jobRem ≠ 0 → s.inq = b :: q →
    (s.err = .noError → s.dbuf = [] →
      exec .decode s = .next
        { s with
          inq := q, jobRem := s.jobRem - 1,
          dbuf := (bits 8 b.toNat).take (min 8 s.dbitsRem.toNat),
          dbitsRem := s.dbitsRem - BitVec.ofNat 64 (min 8 s.dbitsRem.toNat) }) ∧
    (s.err ≠ .noError → exec .decode s = .next { s with inq := q, jobRem := s.jobRem - 1 })

/-- R141: DEC_WALK moves to the child of a bit, 0 = left, 1 = right; a missing child is CORRUPT_STREAM, a
leaf is emitted and the position returns to ROOT; a full OUTQ holds it. -/
def Obligations.DecWalkFollowsOneBit : Prop :=
  ∀ (s : State) (bit : Bool) (rest : Bits) (n : Node) (child : BitVec 9), s.agent = .core → s.busy = true →
    s.op = 0x6 → s.err = .noError → s.dbuf = bit :: rest → s.arena.nodeAt s.dnode = some n →
    child = (if bit = false then n.left else n.right) →
    (s.outq.length < s.outDepth.val →
      (child = 0x1FF →
        exec .decode s = .next { s with dbuf := [], err := .corruptStream }) ∧
      (∀ c : Node, child ≠ 0x1FF → s.arena.nodeAt child = some c → c.isLeaf = true →
        exec .decode s = .next
          { s with dbuf := rest, outq := s.outq ++ [c.symbol], outN := s.outN + 1, dnode := s.arena.root }) ∧
      (∀ c : Node, child ≠ 0x1FF → s.arena.nodeAt child = some c → c.isLeaf = false →
        exec .decode s = .next { s with dbuf := rest, dnode := child })) ∧
    (s.outDepth.val ≤ s.outq.length → exec .decode s = .next s) ∧
    (child ≠ 0x1FF → ∃ c, s.arena.nodeAt child = some c)

/-- R144: DEC_DONE reports the symbol count and completes; a position other than ROOT is CORRUPT_STREAM. -/
def Obligations.DecDoneChecksForMidCode : Prop :=
  ∀ s : State, s.agent = .core → s.busy = true → s.op = 0x6 → s.jobRem = 0 →
    (s.err = .noError → s.dbuf = [] →
      exec .decode s = .next
        { s with
          err := if s.dnode = s.arena.root then .noError else .corruptStream,
          outlen := s.outN, busy := false, done := true }) ∧
    (s.err ≠ .noError →
      exec .decode s = .next { s with dbuf := [], outlen := s.outN, busy := false, done := true })

/-- R145, R147, R148: a whole DECODE job whose length check passes, from its acceptance with its payload in
INQ and room in OUTQ: it pushes what the walk of exactly BITCNT bits emits and reports how it ends. -/
def Obligations.DecodeJobWalksTheValidBits : Prop :=
  ∀ (s : State) (payload rest : List Byte) (out : List Byte) (e : DecodeEnd), s.busy = false →
    (s.bitcnt ≠ 0 → s.treeValid = true) →
    s.inq = payload ++ rest → s.inlen.toNat = payload.length →
    payload.length = (s.bitcnt.toNat + 7) / 8 →
    decodeBits s.arena s.arena.root ((payloadBits payload).take s.bitcnt.toNat) = (out, e) →
    e ≠ .outside →
    s.outq.length + out.length < s.outDepth.val →
    ∃ (n : Nat) (t : State), runCommand .decode n s = .next t ∧
      t.outq = s.outq ++ out ∧ t.outlen = BitVec.ofNat 64 out.length ∧ t.err = e.err ∧
      t.inq = rest ∧ t.busy = false ∧ t.done = true ∧ t.bitcnt = s.bitcnt ∧ t.inlen = s.inlen ∧
      t.freq = s.freq ∧ t.arena = s.arena ∧ t.codes = s.codes

/-- R130, R137, R142, R146: an ENCODE job without a code table, and a DECODE job that fails its length check
or has no tree, drain exactly their input, push nothing and report 0. -/
def Obligations.RejectedJobsDrainTheirInput : Prop :=
  ∀ (s : State) (input rest : List Byte), s.busy = false → s.inq = input ++ rest →
    s.inlen.toNat = input.length →
    (s.codesValid = false → input ≠ [] →
      ∃ (n : Nat) (t : State), runCommand .encode n s = .next t ∧
        t.err = .notReady ∧ t.outq = s.outq ∧ t.bitcnt = 0 ∧ t.outlen = 0 ∧
        t.inq = rest ∧ t.busy = false ∧ t.done = true) ∧
    ((input.length ≠ (s.bitcnt.toNat + 7) / 8 ∨ (s.bitcnt ≠ 0 ∧ s.treeValid = false)) →
      ∃ (n : Nat) (t : State), runCommand .decode n s = .next t ∧
        t.err = (if input.length ≠ (s.bitcnt.toNat + 7) / 8 then .malformedContainer else .notReady) ∧
        t.outq = s.outq ∧ t.outlen = 0 ∧ t.inq = rest ∧ t.busy = false ∧ t.done = true)

/-- R149, R150: with the code table of a built tree, decoding the codes of any sequence of present symbols
gives the sequence back with no error; and "a complete walk of a bit list P gives a sequence whose encoding
is P", so no changed list of valid bits decodes to the same sequence. -/
def Obligations.DecodeInvertsEncode : Prop :=
  ∀ (freq : Vector (BitVec 32) 256) (t : CodeTable), genCodes (buildTree freq) = .ok t →
    (∀ input : List Byte, (∀ b ∈ input, present freq b = true) →
      decodeBits (buildTree freq) (buildTree freq).root (encodeBits t input) = (input, .ok)) ∧
    (∀ (c : Bits) (out : List Byte),
      decodeBits (buildTree freq) (buildTree freq).root c = (out, .ok) → encodeBits t out = c)

/-! ### Host transactions -/

/-- R53, R47, R48: what each register reads as; the reads of the last two groups while BUSY = 0 (R67). No
read of these changes any state but the host's record of it. -/
def Obligations.ReadsReturnTheRegisters : Prop :=
  ∀ s : State, s.inq.length < 65536 → s.outq.length < 65536 →
    (ReadsAs s 0x0000 0x48554631 ∧ ReadsAs s 0x0001 0 ∧ ReadsAs s 0x0002 s.statusWord ∧
      ReadsAs s 0x0003 (if s.irqEn then 1 else 0) ∧
      ReadsAs s 0x0004 (BitVec.ofNat 32 s.inlen.toNat) ∧ ReadsAs s 0x0005 (BitVec.ofNat 32 (s.inlen.toNat / 2 ^ 32)) ∧
      ReadsAs s 0x000A 0 ∧ ReadsAs s 0x000C (BitVec.ofNat 32 (s.inq.length + 65536 * s.outq.length)) ∧
      (∀ a : Addr, target a = .reserved → ReadsAs s a 0)) ∧
    (s.busy = false →
      ReadsAs s 0x0006 (BitVec.ofNat 32 s.bitcnt.toNat) ∧ ReadsAs s 0x0007 (BitVec.ofNat 32 (s.bitcnt.toNat / 2 ^ 32)) ∧
      ReadsAs s 0x0008 (BitVec.ofNat 32 s.outlen.toNat) ∧ ReadsAs s 0x0009 (BitVec.ofNat 32 (s.outlen.toNat / 2 ^ 32)) ∧
      ReadsAs s 0x000D (BitVec.ofNat 32 (nsym s.freq)) ∧
      ReadsAs s 0x000E (BitVec.ofNat 32 (s.arena.root.toNat + 65536 * s.arena.nnodes.toNat))) ∧
    (s.busy = false →
      (∀ b : Byte,
        ReadsAs s (BitVec.ofNat 13 (0x0100 + b.toNat)) (s.freqOf b) ∧
        ReadsAs s (BitVec.ofNat 13 (0x0200 + b.toNat)) (BitVec.ofNat 32 (s.codes.lenOf b).toNat) ∧
        ∀ j : Nat, j < 8 →
          ReadsAs s (BitVec.ofNat 13 (0x0800 + 8 * b.toNat + j))
            (BitVec.ofNat 32 ((s.codes.codeOf b).toNat / 2 ^ (32 * j)))) ∧
      (∀ (i : Nat) (h : i < 511),
        ReadsAs s (BitVec.ofNat 13 (0x1000 + 4 * i)) (BitVec.ofNat 32 (s.arena.node[i]).weight.toNat) ∧
        ReadsAs s (BitVec.ofNat 13 (0x1000 + 4 * i + 1)) (BitVec.ofNat 32 ((s.arena.node[i]).weight.toNat / 2 ^ 32)) ∧
        ReadsAs s (BitVec.ofNat 13 (0x1000 + 4 * i + 2))
          (BitVec.ofNat 32 ((s.arena.node[i]).left.toNat + 65536 * (s.arena.node[i]).right.toNat)) ∧
        ReadsAs s (BitVec.ofNat 13 (0x1000 + 4 * i + 3))
          (BitVec.ofNat 32 ((if (s.arena.node[i]).isLeaf then 1 else 0) + 256 * (s.arena.node[i]).symbol.toNat))))

/-- R67: while BUSY = 1 the listed registers return a free draw, and no state of the block changes. The
draw is a constant of the model with no value (log 5). -/
def Obligations.BusyReadsOfTablesAreFreeDraws : Prop :=
  ∀ (s : State) (a : Addr), s.busy = true →
    ((0x0006 ≤ a.toNat ∧ a.toNat ≤ 0x0009) ∨ a = 0x000D ∨ a = 0x000E ∨ (0x0100 ≤ a.toNat ∧ a.toNat ≤ 0x02FF) ∨
      (0x0800 ≤ a.toNat ∧ a.toNat ≤ 0x17FB)) →
    exec (.rd a 0) s = .next
      { s with readLog := Config.freeRead s.draws :: s.readLog, draws := s.draws + 1 }

/-- R58: a read of OUT_DATA pops the head of OUTQ, whether or not BUSY = 1; on an empty OUTQ it returns 0. No
other read changes the block (what it returns is recorded in the model's readLog, log 6, and its free draws are
counted, log 5); and a pop can enable a core step that was held on a full OUTQ. -/
def Obligations.OutDataReadPopsTheHead : Prop :=
  (∀ s : State,
    (∀ (b : Byte) (q : List Byte), s.outq = b :: q →
      exec (.rd 0x000B 0) s = .next
        { s with outq := q, readLog := (0x80000000 ||| b.setWidth 32) :: s.readLog }) ∧
    (s.outq = [] → exec (.rd 0x000B 0) s = .next { s with readLog := 0x00000000 :: s.readLog }) ∧
    (∀ a : Addr, a ≠ 0x000B →
      ∃ (v : Word) (n : Nat), exec (.rd a 0) s = .next { s with readLog := v :: s.readLog, draws := n })) ∧
  (∃ s t : State, s.busy = true ∧ s.coreQuiet ∧ s.outq.length = s.outDepth.val ∧
    exec (.rd 0x000B 0) s = .next t ∧ ¬t.coreQuiet)

/-- R22, R23, R185, R41: every field of STATUS as read, and the interrupt line. -/
def Obligations.StatusWordLayout : Prop :=
  ∀ s : State,
    s.statusWord.getLsbD 0 = s.busy ∧ s.statusWord.getLsbD 1 = s.treeValid ∧
    s.statusWord.getLsbD 2 = s.codesValid ∧ s.statusWord.getLsbD 3 = s.done ∧
    s.statusWord.getLsbD 4 = s.cmdDropped ∧ s.statusWord.getLsbD 5 = s.inOvf ∧
    (s.statusWord.getLsbD 6 = true ↔ s.inq.length = s.inDepth.val) ∧
    (s.statusWord.getLsbD 7 = true ↔ s.inq = []) ∧
    (s.statusWord.getLsbD 8 = true ↔ s.outq.length = s.outDepth.val) ∧
    (s.statusWord.getLsbD 9 = true ↔ s.outq = []) ∧
    s.statusWord.extractLsb' 10 2 = 0 ∧ s.statusWord.extractLsb' 20 12 = 0 ∧
    (s.statusWord.extractLsb' 12 4).toNat =
      (match s.err with
        | .noError => 0
        | .invalidInput => 1
        | .unknownSymbol => 2
        | .corruptStream => 3
        | .malformedContainer => 4
        | .countOverflow => 5
        | .illegalCommand => 6
        | .notReady => 7) ∧
    s.statusWord.extractLsb' 16 4 = s.lastcmd ∧
    ¬(s.statusWord.getLsbD 6 = true ∧ s.statusWord.getLsbD 7 = true) ∧
    ¬(s.statusWord.getLsbD 8 = true ∧ s.statusWord.getLsbD 9 = true) ∧
    s.irq = (s.irqEn && s.statusWord.getLsbD 3)

/-- R55: STATUS is write-1-to-clear in bits 3, 4 and 5, whether or not BUSY = 1. -/
def Obligations.StatusWriteClearsWrittenOnes : Prop :=
  ∀ (s : State) (v : Word),
    exec (.wr 0x0002 v) s = .next
      { s with
        done := if v.getLsbD 3 then false else s.done
        cmdDropped := if v.getLsbD 4 then false else s.cmdDropped
        inOvf := if v.getLsbD 5 then false else s.inOvf }

/-- R54, R24, R56: writes to IRQEN, INLEN and BITCNT. -/
def Obligations.ConfigurationWrites : Prop :=
  ∀ (s : State) (v : Word),
    exec (.wr 0x0003 v) s = .next { s with irqEn := v.getLsbD 0 } ∧
    (s.busy = false →
      exec (.wr 0x0004 v) s = .next { s with inlen := BitVec.ofNat 64 (s.inlen.toNat / 2 ^ 32 * 2 ^ 32 + v.toNat) } ∧
      exec (.wr 0x0005 v) s = .next { s with inlen := BitVec.ofNat 64 (v.toNat * 2 ^ 32 + s.inlen.toNat % 2 ^ 32) } ∧
      exec (.wr 0x0006 v) s = .next { s with bitcnt := BitVec.ofNat 64 (s.bitcnt.toNat / 2 ^ 32 * 2 ^ 32 + v.toNat) } ∧
      exec (.wr 0x0007 v) s = .next { s with bitcnt := BitVec.ofNat 64 (v.toNat * 2 ^ 32 + s.bitcnt.toNat % 2 ^ 32) }) ∧
    (s.busy = true →
      exec (.wr 0x0004 v) s = .next s ∧ exec (.wr 0x0005 v) s = .next s ∧
      exec (.wr 0x0006 v) s = .next s ∧ exec (.wr 0x0007 v) s = .next s)

/-- R57, R56: an accepted write to FREQ[b] stores the value and clears both valid flags, even for the value
it holds; while BUSY = 1 it does nothing. -/
def Obligations.FreqWriteStoresAndInvalidates : Prop :=
  ∀ (s : State) (b : Byte) (v : Word),
    (s.busy = false →
      exec (.wr (BitVec.ofNat 13 (0x0100 + b.toNat)) v) s = .next
        { s with freq := s.freq.set b.toNat v b.isLt, treeValid := false, codesValid := false }) ∧
    (s.busy = true → exec (.wr (BitVec.ofNat 13 (0x0100 + b.toNat)) v) s = .next s)

/-- R59: a write to IN_DATA appends its low byte, or is lost with IN_OVF when INQ is full. -/
def Obligations.InDataWritePushesOrOverflows : Prop :=
  ∀ (s : State) (v : Word),
    (s.inq.length < s.inDepth.val →
      exec (.wr 0x000A v) s = .next { s with inq := s.inq ++ [BitVec.ofNat 8 v.toNat] }) ∧
    (s.inDepth.val ≤ s.inq.length → exec (.wr 0x000A v) s = .next { s with inOvf := true })

/-- R49, R54: a write to a read-only register, a read-only window or a reserved address has no effect. -/
def Obligations.OtherWritesHaveNoEffect : Prop :=
  ∀ (s : State) (a : Addr) (v : Word),
    (a.toNat = 0 ∨ a.toNat = 8 ∨ a.toNat = 9 ∨ (0xB ≤ a.toNat ∧ a.toNat ≤ 0xFF) ∨ 0x200 ≤ a.toNat) →
    exec (.wr a v) s = .next s

/-! ### The core's schedule and rules of the whole machine -/

/-- R100: with BUSY = 0 no core step is enabled; in any state at most one is, and it is what the core's
turn performs. That the core's turn with none enabled answers the same state is the model's own (log 8,
DEDUCED: the spec has no step there). -/
def Obligations.AtMostOneCoreStepIsEnabled : Prop :=
  ∀ s : State,
    (s.busy = false → s.coreQuiet) ∧
    (∀ c d : CoreStep, c.enabled s = true → d.enabled s = true → c = d) ∧
    (s.agent = .core → ∀ i : Instr, s.coreInstr = some i →
      (∀ c : CoreStep, c.enabled s = true → exec i s = c.perform s) ∧
      (s.coreQuiet → exec i s = .next s))

/-- R101, R205, R206, R212: in a sound state a running command whose core step is not enabled is a stream
command that waits for the host. -/
def Obligations.CoreHoldsOnlyForTheHost : Prop :=
  ∀ s : State, Inv s → s.busy = true → s.coreQuiet →
    s.waitsForHost ∧ (s.op = 0x2 ∨ s.op = 0x5 ∨ s.op = 0x6)

/-- R79, R101: in a sound state the core, left alone, takes at most this many steps until none is enabled;
it never runs for ever. -/
def Obligations.CoreRunsOutOfSteps : Prop :=
  ∀ s : State, Inv s →
    ∃ (n : Nat) (t : State), n ≤ 300 * s.inq.length + s.pb.length + s.dbuf.length + 1 ∧
      coreTurns n s = .next t ∧ t.coreQuiet

/-- R30, R34, R43, D35, R24 to R27: who changes the tables, the valid flags and the data registers. -/
def Obligations.TablesChangeOnlyByTheirCommands : Prop :=
  ∀ (i : Instr) (s t : State), exec i s = .next t →
    (t.arena ≠ s.arena → (i = .build ∧ s.agent = .core ∧ s.op = 0x3) ∨ t = s.softreset) ∧
    (t.codes ≠ s.codes → (i = .gencodes ∧ s.agent = .core ∧ s.op = 0x4) ∨ t = s.softreset) ∧
    (s.treeValid = false → t.treeValid = true → i = .build ∧ s.agent = .core ∧ t.err = s.err) ∧
    (s.codesValid = false → t.codesValid = true → i = .gencodes ∧ s.agent = .core ∧ t.err = s.err) ∧
    (t.outlen ≠ s.outlen → ((i = .encode ∨ i = .decode) ∧ s.agent = .core ∧ t.busy = false) ∨ t = s.softreset) ∧
    (t.inlen ≠ s.inlen → ((∃ a v, i = .wr a v ∧ (a = 0x0004 ∨ a = 0x0005)) ∧ s.busy = false) ∨ t = s.softreset) ∧
    (t.bitcnt ≠ s.bitcnt →
      ((∃ a v, i = .wr a v ∧ (a = 0x0006 ∨ a = 0x0007)) ∧ s.busy = false) ∨
      (i = .encode ∧ s.agent = .core ∧ t.busy = false) ∨ t = s.softreset) ∧
    (t.irqEn ≠ s.irqEn → (∃ v, i = .wr 0x0003 v) ∨ t = s.softreset)

/-- R28, D19: in a sound state any change to FREQ leaves TREE_VALID and CODES_VALID clear. -/
def Obligations.FreqChangeLeavesNoValidTable : Prop :=
  ∀ (i : Instr) (s t : State), Inv s → exec i s = .next t → t.freq ≠ s.freq →
    t.treeValid = false ∧ t.codesValid = false

/-- R188, R189: in a sound state, once a running command has an error, nothing but SOFTRESET replaces it and
the core produces no further result; and BUSY falls only with DONE, but for SOFTRESET. -/
def Obligations.FirstErrorStaysUntilCompletion : Prop :=
  ∀ (i : Instr) (s t : State), Inv s → s.busy = true → exec i s = .next t →
    (s.err ≠ .noError → t.err = s.err ∨ t = s.softreset) ∧
    (s.err ≠ .noError → s.agent = .core → (∀ a d, i ≠ .rd a d) → (∀ a d, i ≠ .wr a d) →
      t.freq = s.freq ∧ t.outq = s.outq ∧ (t.pb = s.pb ∨ t.pb = []) ∧ t.arena = s.arena ∧ t.codes = s.codes) ∧
    (t.busy = false → t.done = true ∨ t = s.softreset)

/-- R138, R148, R15: a host's push to IN_DATA or pop of OUT_DATA and an enabled core step (other than
FLUSH_EXEC, which empties both queues) give the same state in either order. -/
def Obligations.HostTransfersCommuteWithCoreSteps : Prop :=
  ∀ (s t : State) (i : Instr), s.agent = .core → s.coreInstr = some i → s.op ≠ 0x7 →
    exec i s = .next t → t ≠ s →
    (∀ v : Word, s.inq.length < s.inDepth.val →
      ∃ s' t' : State, exec (.wr 0x000A v) s = .next s' ∧ exec (.wr 0x000A v) t = .next t' ∧
        exec i s' = .next t') ∧
    (s.outq ≠ [] →
      ∃ s' t' : State, exec (.rd 0x000B 0) s = .next s' ∧ exec (.rd 0x000B 0) t = .next t' ∧
        exec i s' = .next t')

/-! ### Soundness -/

/-- Every step from a sound state that answers a next state gives a sound state, and no step changes the
depths of the FIFOs (R9). -/
def Obligations.StepKeepsSoundness : Prop :=
  ∀ s t : State, Inv s → step s = .next t → Inv t ∧ t.inDepth = s.inDepth ∧ t.outDepth = s.outDepth

/-- The state after reset is sound (R44, R202). -/
def Obligations.ResetIsSound : Prop := Inv State.reset

/-- R187: from a sound state no step stops: there is no trap, and the faults of the model (log 10, 11) are
met in no sound state. -/
def Obligations.SoundStatesNeverStop : Prop := ∀ s : State, Inv s → ∃ t, step s = .next t

/-! ### The container -/

/-- R153, R155, R156, R158, R159: serialising a table, a valid-bit-count and its payload and parsing the
bytes gives them back; the bytes have the length of R153; and loading the entries into an idle block with
a cleared table restores FREQ. The functions are the model's form of the host's procedures (log 20). -/
def Obligations.ContainerRoundTrip : Prop :=
  ∀ (freq : Vector (BitVec 32) 256) (bitCount : BitVec 64) (payload : List Byte),
    payload.length = (bitCount.toNat + 7) / 8 → (nsym freq = 0 → bitCount = 0) →
    Container.parse (Container.ofTable freq bitCount payload).serialize = some (Container.ofTable freq bitCount payload) ∧
    (Container.ofTable freq bitCount payload).serialize.length = 12 + 5 * nsym freq + payload.length ∧
    ∀ s : State, s.busy = false → (∀ b : Byte, s.freqOf b = 0) →
      (loadEntries s (Container.ofTable freq bitCount payload).entries).freq = freq
end

