-- ==== Sys2Proof/Laws/Bits.lean ====
section
/-! SUPPORT. Bit strings and their numbers (00_scope.md R11), and the halves of 64-bit registers. -/

namespace Sys2Proof.Machine

@[simp] theorem bits_length (n v : Nat) : (bits n v).length = n := by
  induction n with
  | zero => rfl
  | succ n ih => simp [bits, ih]

theorem num_lt (c : Bits) : num c < 2 ^ c.length := by
  induction c with
  | nil => simp [num]
  | cons b c ih =>
    have hb : b.toNat ≤ 1 := by cases b <;> simp
    have : b.toNat * 2 ^ c.length ≤ 1 * 2 ^ c.length := Nat.mul_le_mul_right _ hb
    simp only [num, List.length_cons, Nat.pow_succ]
    omega

theorem num_append (c d : Bits) : num (c ++ d) = num c * 2 ^ d.length + num d := by
  induction c with
  | nil => simp [num]
  | cons b c ih =>
    simp only [List.cons_append, num, List.length_append, Nat.pow_add, ih, Nat.add_mul, Nat.mul_assoc]
    omega

/-- R11: bits_L(v) is the L-bit list with num(bits_L(v)) = v. -/
theorem num_bits (n v : Nat) : num (bits n v) = v % 2 ^ n := by
  induction n with
  | zero => simp [bits, num, Nat.mod_one]
  | succ n ih =>
    have h := Nat.testBit_eq_decide_div_mod_eq (x := v) (i := n)
    have hm := Nat.mod_pow_succ (b := 2) (k := n) (x := v)
    simp only [bits, num, bits_length, ih, h]
    rcases Nat.mod_two_eq_zero_or_one (v / 2 ^ n) with h0 | h0 <;> simp [h0] at hm ⊢ <;> omega

/-- The bits of a number depend on the number modulo 2^L only. -/
theorem bits_mod (n v : Nat) : bits n (v % 2 ^ n) = bits n v := by
  suffices h : ∀ m, m ≤ n → bits m (v % 2 ^ n) = bits m v from h n (Nat.le_refl n)
  intro m
  induction m with
  | zero => intro; rfl
  | succ m ih =>
    intro hm
    simp only [bits, ih (Nat.le_of_succ_le hm), Nat.testBit_mod_two_pow, List.cons.injEq, and_true]
    simp [Nat.lt_of_succ_le hm]

/-- The number of a bit string determines it, given its length. -/
theorem bits_num (c : Bits) : bits c.length (num c) = c := by
  induction c with
  | nil => rfl
  | cons b c ih =>
    have hlt := num_lt c
    have hbit : (b.toNat * 2 ^ c.length + num c).testBit c.length = b := by
      cases b
      · simpa using Nat.testBit_lt_two_pow hlt
      · have := Nat.testBit_two_pow_add_eq (num c) c.length
        simpa [Nat.testBit_lt_two_pow hlt] using this
    have hrest : bits c.length (b.toNat * 2 ^ c.length + num c) = c := by
      rw [← bits_mod, Nat.add_comm, Nat.add_mul_mod_self_right, Nat.mod_eq_of_lt hlt, ih]
    simp [num, bits, hbit, hrest]

theorem bits_getElem? (n v k : Nat) : (bits n v)[k]? = if k < n then some (v.testBit (n - 1 - k)) else none := by
  induction n generalizing k with
  | zero => simp [bits]
  | succ n ih =>
    cases k with
    | zero => simp [bits]
    | succ k =>
      simp only [bits, List.getElem?_cons_succ, ih, Nat.add_lt_add_iff_right]
      congr 3
      omega

/-- R140: ceil8 is "exact, no overflow". -/
theorem ceil8_toNat (x : BitVec 64) : (ceil8 x).toNat = (x.toNat + 7) / 8 := by
  have hx := x.isLt
  have hlow : (x.extractLsb' 0 3).toNat = x.toNat % 8 := by simp [BitVec.extractLsb'_toNat]
  unfold ceil8
  by_cases h : x.extractLsb' 0 3 = 0
  · have h8 : x.toNat % 8 = 0 := by rw [← hlow, h]; rfl
    simp [h, Nat.shiftRight_eq_div_pow]
    omega
  · have h8 : x.toNat % 8 ≠ 0 := by
      rw [← hlow]
      intro h0
      exact h (BitVec.eq_of_toNat_eq (by simpa using h0))
    simp only [ne_eq, h, not_false_eq_true, if_true, BitVec.toNat_add, BitVec.toNat_ushiftRight,
      Nat.shiftRight_eq_div_pow]
    have : ((1 : BitVec 64)).toNat = 1 := rfl
    omega

/-- Fields side by side as numbers. -/
theorem toNat_append_fields {m n : Nat} (x : BitVec m) (y : BitVec n) :
    (x ++ y).toNat = x.toNat * 2 ^ n + y.toNat := by
  rw [BitVec.toNat_append, ← Nat.shiftLeft_add_eq_or_of_lt y.isLt, Nat.shiftLeft_eq]

@[simp] theorem lo32_toNat (x : BitVec 64) : (lo32 x).toNat = x.toNat % 2 ^ 32 := by
  simp [lo32, BitVec.extractLsb'_toNat]

@[simp] theorem hi32_toNat (x : BitVec 64) : (hi32 x).toNat = x.toNat / 2 ^ 32 := by
  have := x.isLt
  simp [hi32, BitVec.extractLsb'_toNat, Nat.shiftRight_eq_div_pow]
  omega

/-- R51: a write to LO keeps HI, a write to HI keeps LO. -/
theorem setLo32_toNat (x : BitVec 64) (v : Word) : (setLo32 x v).toNat = x.toNat / 2 ^ 32 * 2 ^ 32 + v.toNat := by
  rw [setLo32, toNat_append_fields, hi32_toNat]

theorem setHi32_toNat (x : BitVec 64) (v : Word) : (setHi32 x v).toNat = v.toNat * 2 ^ 32 + x.toNat % 2 ^ 32 := by
  rw [setHi32, toNat_append_fields, lo32_toNat]

end Sys2Proof.Machine
end

