-- ==== Sys2Proof/Laws/Tree.lean ====
section
/-! SUPPORT. The priority queue and the arena operations of BUILD (42_tree_builder.md R110, R111, R114). -/

namespace Sys2Proof.Machine

/-- R110: the keys are compared lexicographically. -/
theorem Entry.before_iff (x y : Entry) :
    x.before y = true ↔ x.weight < y.weight ∨ (x.weight = y.weight ∧ x.idx < y.idx) := by
  simp [Entry.before]

theorem Entry.before_trans {x y z : Entry} (h₁ : x.before y = true) (h₂ : y.before z = true) :
    x.before z = true := by
  simp only [Entry.before_iff, BitVec.lt_def] at *
  rcases h₁ with h₁ | ⟨e₁, h₁⟩ <;> rcases h₂ with h₂ | ⟨e₂, h₂⟩
  · left; omega
  · left; rw [← e₂]; exact h₁
  · left; rw [e₁]; exact h₂
  · right; exact ⟨e₁.trans e₂, by omega⟩

/-- Of two entries with different indices one is before the other. -/
theorem Entry.before_of_not {x y : Entry} (h : x.idx ≠ y.idx) (hn : ¬x.before y = true) : y.before x = true := by
  simp only [Entry.before_iff, BitVec.lt_def] at *
  by_cases he : x.weight = y.weight
  · right
    refine ⟨he.symm, ?_⟩
    by_contra hc
    exact hn (.inr ⟨he, by omega⟩)
  · left
    have : x.weight.toNat ≠ y.weight.toNat := fun h => he (BitVec.eq_of_toNat_eq h)
    by_contra hc
    exact hn (.inl (by omega))

/-- R110: the queue is exactly the live nodes with their weights. -/
theorem mem_queue (a : Arena) (x : Entry) :
    x ∈ a.queue ↔ ∃ h : x.idx < 511, a.live[x.idx] = true ∧ x.weight = a.node[x.idx].weight := by
  simp only [Arena.queue, List.mem_filterMap, Prod.exists, List.mem_zipIdx_iff_getElem?]
  constructor
  · rintro ⟨l, n, i, hz, hx⟩
    rw [List.getElem?_eq_some_iff] at hz
    obtain ⟨hlt, hz⟩ := hz
    have hi : i < 511 := by simpa using hlt
    rw [List.getElem_zip] at hz
    simp only [Vector.getElem_toList, Prod.mk.injEq] at hz
    split at hx
    · simp only [Option.some.injEq] at hx
      subst hx
      exact ⟨hi, by rw [hz.1]; assumption, by rw [hz.2]⟩
    · simp at hx
  · rintro ⟨h, hl, hw⟩
    refine ⟨true, a.node[x.idx], x.idx, ?_, ?_⟩
    · rw [List.getElem?_eq_some_iff]
      exact ⟨by simpa using h, by simp [hl]⟩
    · cases x; simp_all

/-- No index stands twice in the queue. -/
theorem queue_index_inj {a : Arena} {x y : Entry} (hx : x ∈ a.queue) (hy : y ∈ a.queue) (h : x.idx = y.idx) :
    x = y := by
  obtain ⟨h₁, -, w₁⟩ := (mem_queue a x).1 hx
  obtain ⟨h₂, -, w₂⟩ := (mem_queue a y).1 hy
  cases x
  cases y
  simp_all

theorem leastEntry_eq_none {q : List Entry} : leastEntry q = none ↔ q = [] := by
  cases q with
  | nil => simp [leastEntry]
  | cons x q =>
    simp only [leastEntry, reduceCtorEq, iff_false]
    split
    · simp
    · split <;> simp

/-- What `leastEntry` gives in a list in which no index stands twice: the member before every other. -/
theorem leastEntry_spec {q : List Entry} {x : Entry} (hinj : ∀ y ∈ q, ∀ z ∈ q, y.idx = z.idx → y = z)
    (h : leastEntry q = some x) : x ∈ q ∧ ∀ y ∈ q, y ≠ x → x.before y = true := by
  induction q generalizing x with
  | nil => simp [leastEntry] at h
  | cons z q ih =>
    simp only [leastEntry] at h
    cases hq : leastEntry q with
    | none =>
      have hnil := leastEntry_eq_none.1 hq
      subst hnil
      simp only [hq, Option.some.injEq] at h
      subst h
      simp
    | some m =>
      obtain ⟨hm, hmin⟩ := ih (fun y hy w hw => hinj y (List.mem_cons_of_mem _ hy) w (List.mem_cons_of_mem _ hw)) hq
      simp only [hq] at h
      split at h <;> rename_i hz <;> simp only [Option.some.injEq] at h <;> subst h
      · refine ⟨List.mem_cons_self, fun y hy hne => ?_⟩
        rcases List.mem_cons.1 hy with rfl | hy
        · exact absurd rfl hne
        · by_cases hym : y = m
          · exact hym ▸ hz
          · exact Entry.before_trans hz (hmin y hy hym)
      · refine ⟨List.mem_cons_of_mem _ hm, fun y hy hne => ?_⟩
        rcases List.mem_cons.1 hy with rfl | hy
        · exact Entry.before_of_not
            (fun hi => hne (hinj _ List.mem_cons_self _ (List.mem_cons_of_mem _ hm) hi)) hz
        · exact hmin y hy hne

/-- R110: extract_min on an empty queue. -/
theorem extractMin_eq_none {a : Arena} : a.extractMin = none ↔ a.queue = [] := by
  unfold Arena.extractMin
  cases h : leastEntry a.queue with
  | none => simpa using leastEntry_eq_none.1 h
  | some x =>
    simp only [reduceCtorEq, false_iff]
    intro hq
    rw [hq] at h
    simp [leastEntry] at h

/-- R110: what extract_min removes, and what it leaves. -/
theorem extractMin_spec {a a' : Arena} {x : Entry} (h : a.extractMin = some (x, a')) :
    x ∈ a.queue ∧ (∀ y ∈ a.queue, y ≠ x → x.before y = true) ∧
      a' = { a with live := a.live.setIfInBounds x.idx false } := by
  unfold Arena.extractMin at h
  cases hl : leastEntry a.queue with
  | none => simp [hl] at h
  | some y =>
    simp only [hl, Option.some.injEq, Prod.mk.injEq] at h
    obtain ⟨rfl, rfl⟩ := h
    obtain ⟨hm, hmin⟩ := leastEntry_spec (fun y hy z hz => queue_index_inj hy hz) hl
    exact ⟨hm, hmin, rfl⟩

/-- The queue without its least entry. -/
theorem mem_queue_extractMin {a a' : Arena} {x : Entry} (h : a.extractMin = some (x, a')) (y : Entry) :
    y ∈ a'.queue ↔ y ∈ a.queue ∧ y ≠ x := by
  obtain ⟨hx, -, rfl⟩ := extractMin_spec h
  constructor
  · intro hy
    obtain ⟨hlt, hl, hw⟩ := (mem_queue _ y).1 hy
    have hne : x.idx ≠ y.idx := by
      intro he
      simp [he] at hl
    refine ⟨(mem_queue a y).2 ⟨hlt, ?_, hw⟩, fun he => hne (he ▸ rfl)⟩
    simpa [Vector.getElem_setIfInBounds, hne] using hl
  · rintro ⟨hy, hne⟩
    have hi : x.idx ≠ y.idx := fun he => hne (queue_index_inj hy hx he.symm)
    obtain ⟨hlt, hl, hw⟩ := (mem_queue a y).1 hy
    exact (mem_queue _ y).2 ⟨hlt, by simpa [Vector.getElem_setIfInBounds, hi] using hl, hw⟩

/-! ### Appending a node -/

@[simp] theorem append_root (a : Arena) (n : Node) : (a.append n).root = a.root := by
  unfold Arena.append
  split <;> rfl

theorem append_eq {a : Arena} (n : Node) (h : a.nnodes.toNat < 511) :
    a.append n =
      { a with
        node := a.node.setIfInBounds a.nnodes.toNat n
        live := a.live.setIfInBounds a.nnodes.toNat true
        nnodes := a.nnodes + 1 } :=
  if_pos h

theorem append_nnodes {a : Arena} (n : Node) (h : a.nnodes.toNat < 511) :
    (a.append n).nnodes.toNat = a.nnodes.toNat + 1 := by
  rw [append_eq n h]
  have : (1 : BitVec 10).toNat = 1 := rfl
  simp only [BitVec.toNat_add]
  omega

theorem append_node {a : Arena} (n : Node) (h : a.nnodes.toNat < 511) (i : Nat) (hi : i < 511) :
    (a.append n).node[i] = if a.nnodes.toNat = i then n else a.node[i] := by
  simp only [append_eq n h, Vector.getElem_setIfInBounds]

theorem append_live {a : Arena} (n : Node) (h : a.nnodes.toNat < 511) (i : Nat) (hi : i < 511) :
    (a.append n).live[i] = if a.nnodes.toNat = i then true else a.live[i] := by
  simp only [append_eq n h, Vector.getElem_setIfInBounds]

/-! ### The number of live nodes -/

theorem queue_length (a : Arena) : a.queue.length = a.live.toList.count true := by
  have key : ∀ (l : List Bool) (ns : List Node) (k : Nat), l.length = ns.length →
      (((l.zip ns).zipIdx k).filterMap
        fun p => if p.1.1 then some ({ idx := p.2, weight := p.1.2.weight } : Entry) else none).length =
        l.count true := by
    intro l
    induction l with
    | nil => intro ns k _; rfl
    | cons b l ih =>
      intro ns k h
      cases ns with
      | nil => simp at h
      | cons n ns =>
        have h' : l.length = ns.length := by simpa using h
        cases b
        · simpa [List.zipIdx_cons] using ih ns (k + 1) h'
        · simpa [List.zipIdx_cons] using ih ns (k + 1) h'
  exact key _ _ 0 (by simp)

/-- Each extract_min takes one node from the queue. -/
theorem queue_length_extractMin {a a' : Arena} {x : Entry} (h : a.extractMin = some (x, a')) :
    a'.queue.length + 1 = a.queue.length := by
  obtain ⟨hx, -, rfl⟩ := extractMin_spec h
  obtain ⟨hlt, hl, -⟩ := (mem_queue a x).1 hx
  have hl' : a.live.toList[x.idx]'(by simpa using hlt) = true := by simpa using hl
  have hmem : true ∈ a.live.toList := List.mem_of_getElem hl'
  have hpos := List.count_pos_iff.2 hmem
  simp only [queue_length, Vector.toList_setIfInBounds]
  rw [List.count_set (by simpa using hlt), hl']
  have hf : (false == true) = false := rfl
  simp only [beq_self_eq_true, if_true, hf, Bool.false_eq_true, if_false]
  omega

theorem queue_length_append {a : Arena} (n : Node) (h : a.nnodes.toNat < 511)
    (hl : a.live[a.nnodes.toNat] = false) : (a.append n).queue.length = a.queue.length + 1 := by
  have hl' : a.live.toList[a.nnodes.toNat]'(by simpa using h) = false := by simpa using hl
  simp only [queue_length, append_eq n h, Vector.toList_setIfInBounds]
  rw [List.count_set (by simpa using h), hl']
  simp

/-- R111: what a merge of a queue of two or more makes. -/
theorem merge_eq {a a₁ a₂ : Arena} {x y : Entry} (hx : a.extractMin = some (x, a₁))
    (hy : a₁.extractMin = some (y, a₂)) :
    a.merge =
      a₂.append (Node.internal (x.weight + y.weight) (BitVec.ofNat 9 x.idx) (BitVec.ofNat 9 y.idx)) := by
  simp [Arena.merge, hx, hy]

end Sys2Proof.Machine
end

