-- ==== Sys2Proof/Laws/Build.lean ====
section
/-! SUPPORT. What BUILD leaves: the leaves of 42_tree_builder.md R112 as they are inserted, what every merge
keeps (R111), and the three shapes of the arena (R115, R116, R117). -/

namespace Sys2Proof.Machine

/-- R112: how many symbols below `n` are present. -/
def presentCount (freq : Vector (BitVec 32) 256) (n : Nat) : Nat := (List.range n).countP fun k => freq[k]?.getD 0 != 0

theorem presentCount_le (freq n) : presentCount freq n ≤ n := by
  unfold presentCount; exact le_trans List.countP_le_length (by simp)

theorem presentCount_succ (freq : Vector (BitVec 32) 256) (n) :
    presentCount freq (n+1) = presentCount freq n + if freq[n]?.getD 0 = 0 then 0 else 1 := by
  unfold presentCount; rw [List.range_succ, List.countP_append]; simp [List.countP_cons]

/-- R112, R114: the arena while the leaves are inserted: `m` leaves, all live, the rest zero. -/
structure Leaves (m : Nat) (a : Arena) : Prop where
  nn : a.nnodes.toNat = m
  le : m ≤ 256
  live : ∀ i (h : i < 511), a.live[i] = true ↔ i < m
  leaf : ∀ i (h : i < 511), i < m → a.node[i].isLeaf = true
  zero : ∀ i (h : i < 511), m ≤ i → a.node[i] = Node.zero
  q : a.queue.length = m
  root : a.root = 0

theorem Leaves.zeroArena : Leaves 0 Arena.zero := by
  refine ⟨by simp [Arena.zero], by omega, ?_, ?_, ?_, ?_, by simp [Arena.zero]⟩
  · intro i h; simp [Arena.zero]
  · intro i h h0; omega
  · intro i h _; simp [Arena.zero]
  · rw [queue_length]; simp only [Arena.zero, Vector.toList_replicate, List.count_replicate]; rfl

theorem Leaves.append {m a} (h : Leaves m a) (hm : m < 256) (b f) : Leaves (m+1) (a.append (Node.leaf b f)) := by
  have hn : a.nnodes.toNat < 511 := by rw [h.nn]; omega
  refine ⟨by rw [append_nnodes _ hn, h.nn], by omega, ?_, ?_, ?_, ?_, by rw [append_root, h.root]⟩
  · intro i hi; rw [append_live _ hn i hi]; rw [h.nn]; split
    · simp; omega
    · rw [h.live i hi]; omega
  · intro i hi hlt; rw [append_node _ hn i hi, h.nn]; split
    · rfl
    · exact h.leaf i hi (by omega)
  · intro i hi hle; rw [append_node _ hn i hi, h.nn, if_neg (by omega)]; exact h.zero i hi (by omega)
  · rw [queue_length_append _ hn, h.q]
    cases hl : a.live[a.nnodes.toNat] with
    | false => rfl
    | true => have := (h.live _ hn).1 hl; rw [h.nn] at this; omega

theorem leaves_insertLeaves (freq : Vector (BitVec 32) 256) (n : Nat) (hn : n ≤ 256) :
    Leaves (presentCount freq n) (insertLeaves freq n) := by
  induction n with
  | zero => exact Leaves.zeroArena
  | succ n ih =>
    have ih := ih (by omega)
    rw [presentCount_succ]
    simp only [insertLeaves]
    by_cases hf : freq[n]?.getD 0 = 0
    · simp only [hf, ne_eq, not_true, if_false, if_true, Nat.add_zero]; exact ih
    · simp only [hf, ne_eq, not_false_eq_true, if_true, if_false]
      exact Leaves.append ih (by have := presentCount_le freq n; omega) _ _

theorem nsym_eq_presentCount (freq : Vector (BitVec 32) 256) : nsym freq = presentCount freq 256 := by
  unfold nsym presentCount
  have : freq.toList = (List.range 256).map fun k => freq[k]?.getD 0 := by
    apply List.ext_getElem
    · simp
    · intro i h1 h2; simp at h1; simp [h1]
  rw [this, List.countP_map]; rfl

/-- R111, R115, R118: what every merge keeps of an arena over `N` leaves. -/
structure Shape (N : Nat) (a : Arena) : Prop where
  le : N ≤ 256
  pos : 1 ≤ N
  lo : N ≤ a.nnodes.toNat
  cons : a.queue.length + a.nnodes.toNat = 2 * N
  live_lt : ∀ i (h : i < 511), a.live[i] = true → i < a.nnodes.toNat
  leaf : ∀ i (h : i < 511), i < N → a.node[i].isLeaf = true
  inner : ∀ i (h : i < 511), N ≤ i → i < a.nnodes.toNat →
    a.node[i].isLeaf = false ∧ a.node[i].left.toNat < i ∧ a.node[i].right.toNat < i
  zero : ∀ i (h : i < 511), a.nnodes.toNat ≤ i → a.node[i] = Node.zero

theorem Leaves.shape {N a} (h : Leaves N a) (hp : 1 ≤ N) : Shape N a where
  le := h.le
  pos := hp
  lo := by rw [h.nn]
  cons := by rw [h.nn, h.q]; omega
  live_lt := fun i hi hl => by rw [h.nn]; exact (h.live i hi).1 hl
  leaf := h.leaf
  inner := fun i hi h1 h2 => by rw [h.nn] at h2; omega
  zero := fun i hi h1 => h.zero i hi (by rw [h.nn] at h1; exact h1)

theorem extractMin_some {a : Arena} (h : 1 ≤ a.queue.length) : ∃ x a', a.extractMin = some (x, a') := by
  cases he : a.extractMin with
  | none => rw [extractMin_eq_none] at he; simp [he] at h
  | some p => exact ⟨p.1, p.2, rfl⟩

/-- R111: a merge keeps the shape, makes one node and leaves one node fewer in the queue. -/
theorem Shape.merge {N a} (h : Shape N a) (hq : 2 ≤ a.queue.length) :
    Shape N a.merge ∧ a.merge.nnodes.toNat = a.nnodes.toNat + 1 ∧ a.merge.queue.length + 1 = a.queue.length := by
  obtain ⟨x, a1, hx⟩ := extractMin_some (a := a) (by omega)
  have l1 := queue_length_extractMin hx
  obtain ⟨y, a2, hy⟩ := extractMin_some (a := a1) (by omega)
  have l2 := queue_length_extractMin hy
  obtain ⟨mx, -, e1⟩ := extractMin_spec hx
  obtain ⟨my, -, e2⟩ := extractMin_spec hy
  have my' := ((mem_queue_extractMin hx y).1 my).1
  obtain ⟨xl, xlive, xw⟩ := (mem_queue a x).1 mx
  obtain ⟨yl, ylive, yw⟩ := (mem_queue a y).1 my'
  have xn := h.live_lt _ xl xlive
  have yn := h.live_lt _ yl ylive
  have hcons := h.cons
  have n12 : a2.nnodes = a.nnodes := by rw [e2, e1]
  have hn : a2.nnodes.toNat < 511 := by rw [n12]; have := h.le; omega
  have live2 : ∀ i (hi : i < 511), a2.live[i] = true → a.live[i] = true := by
    intro i hi; rw [e2]; simp only [e1]; simp only [Vector.getElem_setIfInBounds]; split <;> simp
  have nf : a2.live[a2.nnodes.toNat] = false := by
    cases hl : a2.live[a2.nnodes.toNat] with
    | false => rfl
    | true => have := h.live_lt _ hn (live2 _ hn hl); rw [n12] at this; omega
  rw [merge_eq hx hy]
  set nd := Node.internal (x.weight + y.weight) (BitVec.ofNat 9 x.idx) (BitVec.ofNat 9 y.idx) with hnd
  have hnode : ∀ i (hi : i < 511), a2.node[i] = a.node[i] := by intro i hi; rw [e2]; simp only [e1]
  have hnn := append_nnodes nd hn
  rw [n12] at hnn
  have hql := queue_length_append nd hn nf
  refine ⟨⟨h.le, h.pos, by rw [hnn]; have := h.lo; omega, by omega, ?_, ?_, ?_, ?_⟩, hnn, by omega⟩
  · intro i hi; rw [append_live _ hn i hi, hnn, n12]; split
    · intro; omega
    · intro hl; have := h.live_lt i hi (live2 i hi hl); omega
  · intro i hi hlt; rw [append_node _ hn i hi, n12, if_neg (by have := h.lo; omega), hnode]; exact h.leaf i hi hlt
  · intro i hi h1 h2; rw [append_node _ hn i hi, n12]; rw [hnn] at h2
    split
    · refine ⟨rfl, ?_, ?_⟩ <;> simp [hnd, Node.internal] <;> omega
    · rw [hnode]; exact h.inner i hi h1 (by omega)
  · intro i hi h1; rw [hnn] at h1; rw [append_node _ hn i hi, n12, if_neg (by omega), hnode]; exact h.zero i hi (by omega)

/-- R114: the merges end with at most one live node. -/
theorem Shape.mergeWhile {N a} (h : Shape N a) (n : Nat) (hn : a.queue.length ≤ n) :
    Shape N (mergeWhile n a) ∧ (mergeWhile n a).queue.length ≤ 1 := by
  induction n generalizing a with
  | zero => exact ⟨h, by simp only [Machine.mergeWhile]; omega⟩
  | succ n ih =>
    simp only [Machine.mergeWhile]
    split
    · obtain ⟨h1, _, h3⟩ := h.merge (by omega)
      exact ih h1 (by omega)
    · exact ⟨h, by omega⟩

/-- R114: the merges never empty the queue. -/
theorem Shape.q_pos {N a} (h : Shape N a) (n : Nat) (hq : 1 ≤ a.queue.length) :
    1 ≤ (Machine.mergeWhile n a).queue.length := by
  induction n generalizing a with
  | zero => exact hq
  | succ n ih =>
    simp only [Machine.mergeWhile]
    split
    · obtain ⟨h1, _, h3⟩ := h.merge (by omega)
      exact ih h1 (by omega)
    · exact hq

theorem merge_root (a : Arena) : a.merge.root = a.root := by
  unfold Arena.merge; split
  · rfl
  · split
    · rfl
    · rename_i h1 _ _ _ h2
      rw [append_root, (extractMin_spec h2).2.2, (extractMin_spec h1).2.2]


theorem Shape.withRoot {N a} (h : Shape N a) (r : BitVec 9) : Shape N { a with root := r } :=
  ⟨h.le, h.pos, h.lo, h.cons, h.live_lt, h.leaf, h.inner, h.zero⟩

/-- R115: the arena of a table with two or more symbols. -/
theorem buildTree_shape (freq) (h : 2 ≤ nsym freq) :
    Shape (nsym freq) (buildTree freq) ∧ (buildTree freq).nnodes.toNat = 2 * nsym freq - 1 ∧
      (buildTree freq).root.toNat = 2 * nsym freq - 2 := by
  have hl := leaves_insertLeaves freq 256 (Nat.le_refl _)
  rw [← nsym_eq_presentCount] at hl
  have hs := hl.shape (by omega)
  have hb : buildTree freq = { Machine.mergeWhile 511 (insertLeaves freq 256) with
      root := ((Machine.mergeWhile 511 (insertLeaves freq 256)).nnodes - 1).setWidth 9 } := by
    unfold buildTree
    have h0 : (insertLeaves freq 256).nnodes ≠ 0 := fun h0 => by have := hl.nn; rw [h0] at this; simp at this; omega
    have h1 : (insertLeaves freq 256).nnodes ≠ 1 := fun h0 => by have := hl.nn; rw [h0] at this; simp at this; omega
    simp only [h0, h1, if_false]
  have hq := hl.q
  obtain ⟨s1, s2⟩ := hs.mergeWhile 511 (by have := hl.le; omega)
  have s3 := hs.q_pos 511 (by omega)
  have hc := s1.cons
  set b := Machine.mergeWhile 511 (insertLeaves freq 256)
  have hnn : b.nnodes.toNat = 2 * nsym freq - 1 := by omega
  rw [hb]
  refine ⟨s1.withRoot _, hnn, ?_⟩
  have := s1.le
  simp only [BitVec.toNat_setWidth, BitVec.toNat_sub]
  have h1 : (1 : BitVec 10).toNat = 1 := rfl
  rw [h1, hnn]; omega

/-- R116: the arena of a table with one symbol. -/
theorem buildTree_one (freq) (h : nsym freq = 1) :
    buildTree freq = (insertLeaves freq 256).wrapSingle ∧ Leaves 1 (insertLeaves freq 256) := by
  have hl := leaves_insertLeaves freq 256 (Nat.le_refl _)
  rw [← nsym_eq_presentCount, h] at hl
  refine ⟨?_, hl⟩
  unfold buildTree
  have h0 : (insertLeaves freq 256).nnodes ≠ 0 := fun h0 => by have := hl.nn; rw [h0] at this; simp at this
  have h1 : (insertLeaves freq 256).nnodes = 1 := BitVec.eq_of_toNat_eq (by rw [hl.nn]; rfl)
  simp [h1]

/-- R114: symbols that are not present add nothing. -/
theorem insertLeaves_skip {freq : Vector (BitVec 32) 256} {n m : Nat} (hnm : n ≤ m)
    (h : ∀ k, n ≤ k → k < m → freq[k]?.getD 0 = 0) : insertLeaves freq m = insertLeaves freq n := by
  induction m with
  | zero => rw [show n = 0 by omega]
  | succ m ih =>
    rcases Nat.lt_or_ge m n with hm | hm
    · rw [show n = m + 1 by omega]
    · rw [insertLeaves, h m hm (by omega)]
      exact ih hm fun k h₁ h₂ => h k h₁ (by omega)

theorem insertLeaves_none (freq : Vector (BitVec 32) 256) (n) (h : presentCount freq n = 0) :
    insertLeaves freq n = Arena.zero := by
  induction n with
  | zero => rfl
  | succ n ih =>
    rw [presentCount_succ] at h
    have hf : freq[n]?.getD 0 = 0 := by by_contra hc; simp at h; exact hc h.2
    simp only [insertLeaves, hf, ne_eq, not_true, if_false]
    exact ih (by omega)

/-- R117: the arena of a table with no symbol. -/
theorem buildTree_none (freq) (h : nsym freq = 0) : buildTree freq = Arena.zero := by
  rw [nsym_eq_presentCount] at h
  unfold buildTree
  rw [insertLeaves_none freq 256 h]; rfl

theorem nodeAt_some (a : Arena) (i : BitVec 9) (h : i.toNat < 511) : a.nodeAt i = some (a.node[i.toNat]) := by
  simp [Arena.nodeAt, h]

theorem toNat_lt_of_ne_null {c : BitVec 9} (h : c ≠ nullIdx) : c.toNat < 511 := by
  have := c.isLt
  have : c.toNat ≠ 511 := fun h' => h (BitVec.eq_of_toNat_eq (by rw [h']; rfl))
  omega

/-- R33: the root of every arena BUILD leaves is an internal entry. -/
theorem buildTree_root_inner (freq) :
    ∃ n, (buildTree freq).nodeAt (buildTree freq).root = some n ∧ n.isLeaf = false := by
  rcases Nat.lt_trichotomy (nsym freq) 1 with h | h | h
  · rw [buildTree_none freq (by omega)]; exact ⟨Node.zero, rfl, rfl⟩
  · obtain ⟨e, -⟩ := buildTree_one freq h
    rw [e]
    exact ⟨_, nodeAt_some _ _ (by simp [Arena.wrapSingle]), by simp [Arena.wrapSingle, Node.internal]⟩
  · obtain ⟨s, hn, hr⟩ := buildTree_shape freq (by omega)
    have := s.le
    have hlt : (buildTree freq).root.toNat < 511 := by omega
    exact ⟨_, nodeAt_some _ _ hlt, (s.inner _ hlt (by omega) (by omega)).1⟩

/-- R121: on an arena whose internal nodes have their children below them, the traversal stays within its
stack and within the arena. -/
theorem walk_terminates (a : Arena) (N nn : Nat)
    (hN : ∀ i (h : i < 511), i < N → a.node[i].isLeaf = true)
    (hi : ∀ i (h : i < 511), N ≤ i → i < nn →
      a.node[i].isLeaf = false ∧ (a.node[i].left.toNat < i) ∧ (a.node[i].right.toNat < i ∨ a.node[i].right = nullIdx))
    (fuel : Nat) : ∀ (i : BitVec 9) (path t), i.toNat < 511 → i.toNat < nn → 1 ≤ fuel →
      i.toNat + 2 ≤ fuel + N → ∃ t', walk a fuel i path t = .ok t' := by
  induction fuel with
  | zero => intro i p t _ _ h; omega
  | succ n ih =>
    intro i p t h511 hnn _ hf
    simp only [walk, nodeAt_some a i h511]
    by_cases hlf : a.node[i.toNat].isLeaf = true
    · simp [hlf]
    · have hge : N ≤ i.toNat := by by_contra hc; exact hlf (hN _ h511 (by omega))
      obtain ⟨_, hl, hr⟩ := hi _ h511 hge hnn
      simp only [hlf]
      have one : ∀ (j : BitVec 9) p t, j.toNat < i.toNat → ∃ t', walk a n j p t = .ok t' := by
        intro j p t hj; exact ih j p t (by omega) (by omega) (by omega) (by omega)
      have : ∃ t', (if a.node[i.toNat].left = nullIdx then Except.ok t
          else walk a n a.node[i.toNat].left (p ++ [false]) t) = .ok t' := by
        split
        · exact ⟨t, rfl⟩
        · exact one _ _ _ hl
      obtain ⟨t1, ht1⟩ := this
      simp only [ht1]
      simp only [Bool.false_eq_true, if_false]
      split
      · exact ⟨t1, rfl⟩
      · rcases hr with hr | hr
        · exact one _ _ _ hr
        · contradiction

/-- R121: GENCODES meets no fault on a tree that BUILD made. -/
theorem genCodes_buildTree (freq) (h : nsym freq ≠ 0) : ∃ t, genCodes (buildTree freq) = .ok t := by
  unfold genCodes
  rcases Nat.lt_or_ge (nsym freq) 2 with h1 | h1
  · obtain ⟨e, hl⟩ := buildTree_one freq (by omega)
    rw [e]
    set a := insertLeaves freq 256
    apply walk_terminates _ 1 2
    · intro i h hi
      have : i = 0 := by omega
      subst this
      simp only [Arena.wrapSingle]
      rw [Vector.getElem_set_ne _ _ (by omega)]
      exact hl.leaf 0 h (by omega)
    · intro i h h1 h2
      have : i = 1 := by omega
      subst this
      simp [Arena.wrapSingle, Node.internal]
    · simp [Arena.wrapSingle]
    · simp [Arena.wrapSingle]
    · omega
    · simp [Arena.wrapSingle]
  · obtain ⟨s, hn, hr⟩ := buildTree_shape freq h1
    have := s.le
    exact walk_terminates _ (nsym freq) (buildTree freq).nnodes.toNat s.leaf (fun i h a b => by
      obtain ⟨x, y, z⟩ := s.inner i h a b; exact ⟨x, y, .inl z⟩) 256 _ _ _ (by omega) (by omega) (by omega) (by omega)

end Sys2Proof.Machine
end

