-- ==== Sys2Proof/Laws/Decode.lean ====
section
/-! SUPPORT. The fields of command words and transaction words (30_encoding.md R71, R77). -/

namespace Sys2Proof

theorem cmdReserved_toNat (w : Word) : (cmdReserved w).toNat = w.toNat / 16 := by
  have := w.isLt
  simp [cmdReserved, BitVec.extractLsb'_toNat, Nat.shiftRight_eq_div_pow]
  omega

theorem cmdOpcode_toNat (w : Word) : (cmdOpcode w).toNat = w.toNat % 16 := by
  simp [cmdOpcode, BitVec.extractLsb'_toNat]

theorem busWord_toNat (b : Bool) (a : Addr) (d : Word) :
    (busWord b a d).toNat = (b.toNat * 2 ^ 13 + a.toNat) * 2 ^ 32 + d.toNat := by
  simp only [busWord, Machine.toNat_append_fields, BitVec.toNat_ofBool]

@[simp] theorem busWord_write (b : Bool) (a : Addr) (d : Word) : (busWord b a d).getLsbD 45 = b := by
  have ha := a.isLt
  have hd := d.isLt
  rw [BitVec.getLsbD, busWord_toNat, Nat.testBit_eq_decide_div_mod_eq]
  cases b <;> simp only [Bool.toNat_true, Bool.toNat_false] <;> simp <;> omega

@[simp] theorem busWord_getElem_write (b : Bool) (a : Addr) (d : Word) : (busWord b a d)[45] = b :=
  busWord_write b a d

@[simp] theorem busWord_addr (b : Bool) (a : Addr) (d : Word) : (busWord b a d).extractLsb' 32 13 = a := by
  have ha := a.isLt
  have hd := d.isLt
  apply BitVec.eq_of_toNat_eq
  rw [BitVec.extractLsb'_toNat, busWord_toNat, Nat.shiftRight_eq_div_pow]
  cases b <;> simp only [Bool.toNat_true, Bool.toNat_false] <;> omega

@[simp] theorem busWord_data (b : Bool) (a : Addr) (d : Word) : (busWord b a d).extractLsb' 0 32 = d := by
  have hd := d.isLt
  apply BitVec.eq_of_toNat_eq
  rw [BitVec.extractLsb'_toNat, busWord_toNat, Nat.shiftRight_eq_div_pow]
  omega

/-- R78: what a transaction word with given fields decodes to. -/
theorem decodeBus_busWord (b : Bool) (a : Addr) (d : Word) :
    decodeBus (busWord b a d) = if b then .wr a d else .rd a 0 := by
  simp [decodeBus]

/-- R75: the instructions decode_cmd can give. -/
theorem decodeCmd_ok {w : Word} {i : Instr} (h : decodeCmd w = .ok i) :
    (w = 0xF#32 ∧ i = .softreset) ∨ (w.toNat < 8 ∧ i ≠ .softreset ∧ ∀ a d, i ≠ .rd a d ∧ i ≠ .wr a d) := by
  unfold decodeCmd at h
  split at h
  · exact .inl ⟨‹_›, by simpa using h.symm⟩
  · split at h
    · simp at h
    · rename_i _ hr
      have hr' : cmdReserved w = 0#28 := by simpa using hr
      have h16 := cmdReserved_toNat w
      rw [hr'] at h16
      have ho := cmdOpcode_toNat w
      split at h <;> simp at h <;> subst h <;> rename_i h5 <;> rw [h5] at ho <;> simp at h16 ho ⊢ <;> omega

end Sys2Proof
end

