-- ==== Sys2Proof/Laws/State.lean ====
section
/-! SUPPORT. What each named update of the state leaves in each field: one lemma a field, true by
definition, so that no later proof unfolds a record update. -/

-- One theorem at a time: a task for each of many small theorems would each hold a stack.
set_option Elab.async false

namespace Sys2Proof.Machine

/-! ### raise (R14) -/

@[simp] theorem State.raise_busy (s : State) (e : Err) : (s.raise e).busy = s.busy := rfl
@[simp] theorem State.raise_treeValid (s : State) (e : Err) : (s.raise e).treeValid = s.treeValid := rfl
@[simp] theorem State.raise_codesValid (s : State) (e : Err) : (s.raise e).codesValid = s.codesValid := rfl
@[simp] theorem State.raise_done (s : State) (e : Err) : (s.raise e).done = s.done := rfl
@[simp] theorem State.raise_cmdDropped (s : State) (e : Err) : (s.raise e).cmdDropped = s.cmdDropped := rfl
@[simp] theorem State.raise_inOvf (s : State) (e : Err) : (s.raise e).inOvf = s.inOvf := rfl
@[simp] theorem State.raise_err (s : State) (e : Err) : (s.raise e).err = e := rfl
@[simp] theorem State.raise_lastcmd (s : State) (e : Err) : (s.raise e).lastcmd = s.lastcmd := rfl
@[simp] theorem State.raise_irqEn (s : State) (e : Err) : (s.raise e).irqEn = s.irqEn := rfl
@[simp] theorem State.raise_inlen (s : State) (e : Err) : (s.raise e).inlen = s.inlen := rfl
@[simp] theorem State.raise_bitcnt (s : State) (e : Err) : (s.raise e).bitcnt = s.bitcnt := rfl
@[simp] theorem State.raise_outlen (s : State) (e : Err) : (s.raise e).outlen = s.outlen := rfl
@[simp] theorem State.raise_freq (s : State) (e : Err) : (s.raise e).freq = s.freq := rfl
@[simp] theorem State.raise_arena (s : State) (e : Err) : (s.raise e).arena = s.arena := rfl
@[simp] theorem State.raise_codes (s : State) (e : Err) : (s.raise e).codes = s.codes := rfl
@[simp] theorem State.raise_inq (s : State) (e : Err) : (s.raise e).inq = s.inq := rfl
@[simp] theorem State.raise_outq (s : State) (e : Err) : (s.raise e).outq = s.outq := rfl
@[simp] theorem State.raise_op (s : State) (e : Err) : (s.raise e).op = s.op := rfl
@[simp] theorem State.raise_jobRem (s : State) (e : Err) : (s.raise e).jobRem = s.jobRem := rfl
@[simp] theorem State.raise_pb (s : State) (e : Err) : (s.raise e).pb = s.pb := rfl
@[simp] theorem State.raise_encBits (s : State) (e : Err) : (s.raise e).encBits = s.encBits := rfl
@[simp] theorem State.raise_outN (s : State) (e : Err) : (s.raise e).outN = s.outN := rfl
@[simp] theorem State.raise_dnode (s : State) (e : Err) : (s.raise e).dnode = s.dnode := rfl
@[simp] theorem State.raise_dbuf (s : State) (e : Err) : (s.raise e).dbuf = s.dbuf := rfl
@[simp] theorem State.raise_dbitsRem (s : State) (e : Err) : (s.raise e).dbitsRem = s.dbitsRem := rfl
@[simp] theorem State.raise_inDepth (s : State) (e : Err) : (s.raise e).inDepth = s.inDepth := rfl
@[simp] theorem State.raise_outDepth (s : State) (e : Err) : (s.raise e).outDepth = s.outDepth := rfl
@[simp] theorem State.raise_agent (s : State) (e : Err) : (s.raise e).agent = s.agent := rfl
@[simp] theorem State.raise_script (s : State) (e : Err) : (s.raise e).script = s.script := rfl
@[simp] theorem State.raise_readLog (s : State) (e : Err) : (s.raise e).readLog = s.readLog := rfl
@[simp] theorem State.raise_draws (s : State) (e : Err) : (s.raise e).draws = s.draws := rfl

/-! ### complete (R94) -/

@[simp] theorem State.complete_busy (s : State) : s.complete.busy = false := rfl
@[simp] theorem State.complete_treeValid (s : State) : s.complete.treeValid = s.treeValid := rfl
@[simp] theorem State.complete_codesValid (s : State) : s.complete.codesValid = s.codesValid := rfl
@[simp] theorem State.complete_done (s : State) : s.complete.done = true := rfl
@[simp] theorem State.complete_cmdDropped (s : State) : s.complete.cmdDropped = s.cmdDropped := rfl
@[simp] theorem State.complete_inOvf (s : State) : s.complete.inOvf = s.inOvf := rfl
@[simp] theorem State.complete_err (s : State) : s.complete.err = s.err := rfl
@[simp] theorem State.complete_lastcmd (s : State) : s.complete.lastcmd = s.lastcmd := rfl
@[simp] theorem State.complete_irqEn (s : State) : s.complete.irqEn = s.irqEn := rfl
@[simp] theorem State.complete_inlen (s : State) : s.complete.inlen = s.inlen := rfl
@[simp] theorem State.complete_bitcnt (s : State) : s.complete.bitcnt = s.bitcnt := rfl
@[simp] theorem State.complete_outlen (s : State) : s.complete.outlen = s.outlen := rfl
@[simp] theorem State.complete_freq (s : State) : s.complete.freq = s.freq := rfl
@[simp] theorem State.complete_arena (s : State) : s.complete.arena = s.arena := rfl
@[simp] theorem State.complete_codes (s : State) : s.complete.codes = s.codes := rfl
@[simp] theorem State.complete_inq (s : State) : s.complete.inq = s.inq := rfl
@[simp] theorem State.complete_outq (s : State) : s.complete.outq = s.outq := rfl
@[simp] theorem State.complete_op (s : State) : s.complete.op = s.op := rfl
@[simp] theorem State.complete_jobRem (s : State) : s.complete.jobRem = s.jobRem := rfl
@[simp] theorem State.complete_pb (s : State) : s.complete.pb = s.pb := rfl
@[simp] theorem State.complete_encBits (s : State) : s.complete.encBits = s.encBits := rfl
@[simp] theorem State.complete_outN (s : State) : s.complete.outN = s.outN := rfl
@[simp] theorem State.complete_dnode (s : State) : s.complete.dnode = s.dnode := rfl
@[simp] theorem State.complete_dbuf (s : State) : s.complete.dbuf = s.dbuf := rfl
@[simp] theorem State.complete_dbitsRem (s : State) : s.complete.dbitsRem = s.dbitsRem := rfl
@[simp] theorem State.complete_inDepth (s : State) : s.complete.inDepth = s.inDepth := rfl
@[simp] theorem State.complete_outDepth (s : State) : s.complete.outDepth = s.outDepth := rfl
@[simp] theorem State.complete_agent (s : State) : s.complete.agent = s.agent := rfl
@[simp] theorem State.complete_script (s : State) : s.complete.script = s.script := rfl
@[simp] theorem State.complete_readLog (s : State) : s.complete.readLog = s.readLog := rfl
@[simp] theorem State.complete_draws (s : State) : s.complete.draws = s.draws := rfl

/-! ### invalidate (R43) -/

@[simp] theorem State.invalidate_busy (s : State) : s.invalidate.busy = s.busy := rfl
@[simp] theorem State.invalidate_treeValid (s : State) : s.invalidate.treeValid = false := rfl
@[simp] theorem State.invalidate_codesValid (s : State) : s.invalidate.codesValid = false := rfl
@[simp] theorem State.invalidate_done (s : State) : s.invalidate.done = s.done := rfl
@[simp] theorem State.invalidate_cmdDropped (s : State) : s.invalidate.cmdDropped = s.cmdDropped := rfl
@[simp] theorem State.invalidate_inOvf (s : State) : s.invalidate.inOvf = s.inOvf := rfl
@[simp] theorem State.invalidate_err (s : State) : s.invalidate.err = s.err := rfl
@[simp] theorem State.invalidate_lastcmd (s : State) : s.invalidate.lastcmd = s.lastcmd := rfl
@[simp] theorem State.invalidate_irqEn (s : State) : s.invalidate.irqEn = s.irqEn := rfl
@[simp] theorem State.invalidate_inlen (s : State) : s.invalidate.inlen = s.inlen := rfl
@[simp] theorem State.invalidate_bitcnt (s : State) : s.invalidate.bitcnt = s.bitcnt := rfl
@[simp] theorem State.invalidate_outlen (s : State) : s.invalidate.outlen = s.outlen := rfl
@[simp] theorem State.invalidate_freq (s : State) : s.invalidate.freq = s.freq := rfl
@[simp] theorem State.invalidate_arena (s : State) : s.invalidate.arena = s.arena := rfl
@[simp] theorem State.invalidate_codes (s : State) : s.invalidate.codes = s.codes := rfl
@[simp] theorem State.invalidate_inq (s : State) : s.invalidate.inq = s.inq := rfl
@[simp] theorem State.invalidate_outq (s : State) : s.invalidate.outq = s.outq := rfl
@[simp] theorem State.invalidate_op (s : State) : s.invalidate.op = s.op := rfl
@[simp] theorem State.invalidate_jobRem (s : State) : s.invalidate.jobRem = s.jobRem := rfl
@[simp] theorem State.invalidate_pb (s : State) : s.invalidate.pb = s.pb := rfl
@[simp] theorem State.invalidate_encBits (s : State) : s.invalidate.encBits = s.encBits := rfl
@[simp] theorem State.invalidate_outN (s : State) : s.invalidate.outN = s.outN := rfl
@[simp] theorem State.invalidate_dnode (s : State) : s.invalidate.dnode = s.dnode := rfl
@[simp] theorem State.invalidate_dbuf (s : State) : s.invalidate.dbuf = s.dbuf := rfl
@[simp] theorem State.invalidate_dbitsRem (s : State) : s.invalidate.dbitsRem = s.dbitsRem := rfl
@[simp] theorem State.invalidate_inDepth (s : State) : s.invalidate.inDepth = s.inDepth := rfl
@[simp] theorem State.invalidate_outDepth (s : State) : s.invalidate.outDepth = s.outDepth := rfl
@[simp] theorem State.invalidate_agent (s : State) : s.invalidate.agent = s.agent := rfl
@[simp] theorem State.invalidate_script (s : State) : s.invalidate.script = s.script := rfl
@[simp] theorem State.invalidate_readLog (s : State) : s.invalidate.readLog = s.readLog := rfl
@[simp] theorem State.invalidate_draws (s : State) : s.invalidate.draws = s.draws := rfl

/-! ### drop (R93) -/

@[simp] theorem State.drop_busy (s : State) : s.drop.busy = s.busy := rfl
@[simp] theorem State.drop_treeValid (s : State) : s.drop.treeValid = s.treeValid := rfl
@[simp] theorem State.drop_codesValid (s : State) : s.drop.codesValid = s.codesValid := rfl
@[simp] theorem State.drop_done (s : State) : s.drop.done = s.done := rfl
@[simp] theorem State.drop_cmdDropped (s : State) : s.drop.cmdDropped = true := rfl
@[simp] theorem State.drop_inOvf (s : State) : s.drop.inOvf = s.inOvf := rfl
@[simp] theorem State.drop_err (s : State) : s.drop.err = s.err := rfl
@[simp] theorem State.drop_lastcmd (s : State) : s.drop.lastcmd = s.lastcmd := rfl
@[simp] theorem State.drop_irqEn (s : State) : s.drop.irqEn = s.irqEn := rfl
@[simp] theorem State.drop_inlen (s : State) : s.drop.inlen = s.inlen := rfl
@[simp] theorem State.drop_bitcnt (s : State) : s.drop.bitcnt = s.bitcnt := rfl
@[simp] theorem State.drop_outlen (s : State) : s.drop.outlen = s.outlen := rfl
@[simp] theorem State.drop_freq (s : State) : s.drop.freq = s.freq := rfl
@[simp] theorem State.drop_arena (s : State) : s.drop.arena = s.arena := rfl
@[simp] theorem State.drop_codes (s : State) : s.drop.codes = s.codes := rfl
@[simp] theorem State.drop_inq (s : State) : s.drop.inq = s.inq := rfl
@[simp] theorem State.drop_outq (s : State) : s.drop.outq = s.outq := rfl
@[simp] theorem State.drop_op (s : State) : s.drop.op = s.op := rfl
@[simp] theorem State.drop_jobRem (s : State) : s.drop.jobRem = s.jobRem := rfl
@[simp] theorem State.drop_pb (s : State) : s.drop.pb = s.pb := rfl
@[simp] theorem State.drop_encBits (s : State) : s.drop.encBits = s.encBits := rfl
@[simp] theorem State.drop_outN (s : State) : s.drop.outN = s.outN := rfl
@[simp] theorem State.drop_dnode (s : State) : s.drop.dnode = s.dnode := rfl
@[simp] theorem State.drop_dbuf (s : State) : s.drop.dbuf = s.dbuf := rfl
@[simp] theorem State.drop_dbitsRem (s : State) : s.drop.dbitsRem = s.dbitsRem := rfl
@[simp] theorem State.drop_inDepth (s : State) : s.drop.inDepth = s.inDepth := rfl
@[simp] theorem State.drop_outDepth (s : State) : s.drop.outDepth = s.outDepth := rfl
@[simp] theorem State.drop_agent (s : State) : s.drop.agent = s.agent := rfl
@[simp] theorem State.drop_script (s : State) : s.drop.script = s.script := rfl
@[simp] theorem State.drop_readLog (s : State) : s.drop.readLog = s.readLog := rfl
@[simp] theorem State.drop_draws (s : State) : s.drop.draws = s.draws := rfl

/-! ### refuse (R92) -/

@[simp] theorem State.refuse_busy (s : State) (w : Word) : (s.refuse w).busy = s.busy := rfl
@[simp] theorem State.refuse_treeValid (s : State) (w : Word) : (s.refuse w).treeValid = s.treeValid := rfl
@[simp] theorem State.refuse_codesValid (s : State) (w : Word) : (s.refuse w).codesValid = s.codesValid := rfl
@[simp] theorem State.refuse_done (s : State) (w : Word) : (s.refuse w).done = true := rfl
@[simp] theorem State.refuse_cmdDropped (s : State) (w : Word) : (s.refuse w).cmdDropped = s.cmdDropped := rfl
@[simp] theorem State.refuse_inOvf (s : State) (w : Word) : (s.refuse w).inOvf = s.inOvf := rfl
@[simp] theorem State.refuse_err (s : State) (w : Word) : (s.refuse w).err = .illegalCommand := rfl
@[simp] theorem State.refuse_lastcmd (s : State) (w : Word) : (s.refuse w).lastcmd = cmdOpcode w := rfl
@[simp] theorem State.refuse_irqEn (s : State) (w : Word) : (s.refuse w).irqEn = s.irqEn := rfl
@[simp] theorem State.refuse_inlen (s : State) (w : Word) : (s.refuse w).inlen = s.inlen := rfl
@[simp] theorem State.refuse_bitcnt (s : State) (w : Word) : (s.refuse w).bitcnt = s.bitcnt := rfl
@[simp] theorem State.refuse_outlen (s : State) (w : Word) : (s.refuse w).outlen = s.outlen := rfl
@[simp] theorem State.refuse_freq (s : State) (w : Word) : (s.refuse w).freq = s.freq := rfl
@[simp] theorem State.refuse_arena (s : State) (w : Word) : (s.refuse w).arena = s.arena := rfl
@[simp] theorem State.refuse_codes (s : State) (w : Word) : (s.refuse w).codes = s.codes := rfl
@[simp] theorem State.refuse_inq (s : State) (w : Word) : (s.refuse w).inq = s.inq := rfl
@[simp] theorem State.refuse_outq (s : State) (w : Word) : (s.refuse w).outq = s.outq := rfl
@[simp] theorem State.refuse_op (s : State) (w : Word) : (s.refuse w).op = s.op := rfl
@[simp] theorem State.refuse_jobRem (s : State) (w : Word) : (s.refuse w).jobRem = s.jobRem := rfl
@[simp] theorem State.refuse_pb (s : State) (w : Word) : (s.refuse w).pb = s.pb := rfl
@[simp] theorem State.refuse_encBits (s : State) (w : Word) : (s.refuse w).encBits = s.encBits := rfl
@[simp] theorem State.refuse_outN (s : State) (w : Word) : (s.refuse w).outN = s.outN := rfl
@[simp] theorem State.refuse_dnode (s : State) (w : Word) : (s.refuse w).dnode = s.dnode := rfl
@[simp] theorem State.refuse_dbuf (s : State) (w : Word) : (s.refuse w).dbuf = s.dbuf := rfl
@[simp] theorem State.refuse_dbitsRem (s : State) (w : Word) : (s.refuse w).dbitsRem = s.dbitsRem := rfl
@[simp] theorem State.refuse_inDepth (s : State) (w : Word) : (s.refuse w).inDepth = s.inDepth := rfl
@[simp] theorem State.refuse_outDepth (s : State) (w : Word) : (s.refuse w).outDepth = s.outDepth := rfl
@[simp] theorem State.refuse_agent (s : State) (w : Word) : (s.refuse w).agent = s.agent := rfl
@[simp] theorem State.refuse_script (s : State) (w : Word) : (s.refuse w).script = s.script := rfl
@[simp] theorem State.refuse_readLog (s : State) (w : Word) : (s.refuse w).readLog = s.readLog := rfl
@[simp] theorem State.refuse_draws (s : State) (w : Word) : (s.refuse w).draws = s.draws := rfl

/-! ### pushOut (R132, R141) -/

@[simp] theorem State.pushOut_busy (s : State) (b : Byte) : (s.pushOut b).busy = s.busy := rfl
@[simp] theorem State.pushOut_treeValid (s : State) (b : Byte) : (s.pushOut b).treeValid = s.treeValid := rfl
@[simp] theorem State.pushOut_codesValid (s : State) (b : Byte) : (s.pushOut b).codesValid = s.codesValid := rfl
@[simp] theorem State.pushOut_done (s : State) (b : Byte) : (s.pushOut b).done = s.done := rfl
@[simp] theorem State.pushOut_cmdDropped (s : State) (b : Byte) : (s.pushOut b).cmdDropped = s.cmdDropped := rfl
@[simp] theorem State.pushOut_inOvf (s : State) (b : Byte) : (s.pushOut b).inOvf = s.inOvf := rfl
@[simp] theorem State.pushOut_err (s : State) (b : Byte) : (s.pushOut b).err = s.err := rfl
@[simp] theorem State.pushOut_lastcmd (s : State) (b : Byte) : (s.pushOut b).lastcmd = s.lastcmd := rfl
@[simp] theorem State.pushOut_irqEn (s : State) (b : Byte) : (s.pushOut b).irqEn = s.irqEn := rfl
@[simp] theorem State.pushOut_inlen (s : State) (b : Byte) : (s.pushOut b).inlen = s.inlen := rfl
@[simp] theorem State.pushOut_bitcnt (s : State) (b : Byte) : (s.pushOut b).bitcnt = s.bitcnt := rfl
@[simp] theorem State.pushOut_outlen (s : State) (b : Byte) : (s.pushOut b).outlen = s.outlen := rfl
@[simp] theorem State.pushOut_freq (s : State) (b : Byte) : (s.pushOut b).freq = s.freq := rfl
@[simp] theorem State.pushOut_arena (s : State) (b : Byte) : (s.pushOut b).arena = s.arena := rfl
@[simp] theorem State.pushOut_codes (s : State) (b : Byte) : (s.pushOut b).codes = s.codes := rfl
@[simp] theorem State.pushOut_inq (s : State) (b : Byte) : (s.pushOut b).inq = s.inq := rfl
@[simp] theorem State.pushOut_outq (s : State) (b : Byte) : (s.pushOut b).outq = s.outq ++ [b] := rfl
@[simp] theorem State.pushOut_op (s : State) (b : Byte) : (s.pushOut b).op = s.op := rfl
@[simp] theorem State.pushOut_jobRem (s : State) (b : Byte) : (s.pushOut b).jobRem = s.jobRem := rfl
@[simp] theorem State.pushOut_pb (s : State) (b : Byte) : (s.pushOut b).pb = s.pb := rfl
@[simp] theorem State.pushOut_encBits (s : State) (b : Byte) : (s.pushOut b).encBits = s.encBits := rfl
@[simp] theorem State.pushOut_outN (s : State) (b : Byte) : (s.pushOut b).outN = s.outN + 1 := rfl
@[simp] theorem State.pushOut_dnode (s : State) (b : Byte) : (s.pushOut b).dnode = s.dnode := rfl
@[simp] theorem State.pushOut_dbuf (s : State) (b : Byte) : (s.pushOut b).dbuf = s.dbuf := rfl
@[simp] theorem State.pushOut_dbitsRem (s : State) (b : Byte) : (s.pushOut b).dbitsRem = s.dbitsRem := rfl
@[simp] theorem State.pushOut_inDepth (s : State) (b : Byte) : (s.pushOut b).inDepth = s.inDepth := rfl
@[simp] theorem State.pushOut_outDepth (s : State) (b : Byte) : (s.pushOut b).outDepth = s.outDepth := rfl
@[simp] theorem State.pushOut_agent (s : State) (b : Byte) : (s.pushOut b).agent = s.agent := rfl
@[simp] theorem State.pushOut_script (s : State) (b : Byte) : (s.pushOut b).script = s.script := rfl
@[simp] theorem State.pushOut_readLog (s : State) (b : Byte) : (s.pushOut b).readLog = s.readLog := rfl
@[simp] theorem State.pushOut_draws (s : State) (b : Byte) : (s.pushOut b).draws = s.draws := rfl

/-! ### writeFreq (R57) -/

@[simp] theorem State.writeFreq_busy (s : State) (i : Fin 256) (v : BitVec 32) : (s.writeFreq i v).busy = s.busy := rfl
@[simp] theorem State.writeFreq_treeValid (s : State) (i : Fin 256) (v : BitVec 32) : (s.writeFreq i v).treeValid = false := rfl
@[simp] theorem State.writeFreq_codesValid (s : State) (i : Fin 256) (v : BitVec 32) : (s.writeFreq i v).codesValid = false := rfl
@[simp] theorem State.writeFreq_done (s : State) (i : Fin 256) (v : BitVec 32) : (s.writeFreq i v).done = s.done := rfl
@[simp] theorem State.writeFreq_cmdDropped (s : State) (i : Fin 256) (v : BitVec 32) : (s.writeFreq i v).cmdDropped = s.cmdDropped := rfl
@[simp] theorem State.writeFreq_inOvf (s : State) (i : Fin 256) (v : BitVec 32) : (s.writeFreq i v).inOvf = s.inOvf := rfl
@[simp] theorem State.writeFreq_err (s : State) (i : Fin 256) (v : BitVec 32) : (s.writeFreq i v).err = s.err := rfl
@[simp] theorem State.writeFreq_lastcmd (s : State) (i : Fin 256) (v : BitVec 32) : (s.writeFreq i v).lastcmd = s.lastcmd := rfl
@[simp] theorem State.writeFreq_irqEn (s : State) (i : Fin 256) (v : BitVec 32) : (s.writeFreq i v).irqEn = s.irqEn := rfl
@[simp] theorem State.writeFreq_inlen (s : State) (i : Fin 256) (v : BitVec 32) : (s.writeFreq i v).inlen = s.inlen := rfl
@[simp] theorem State.writeFreq_bitcnt (s : State) (i : Fin 256) (v : BitVec 32) : (s.writeFreq i v).bitcnt = s.bitcnt := rfl
@[simp] theorem State.writeFreq_outlen (s : State) (i : Fin 256) (v : BitVec 32) : (s.writeFreq i v).outlen = s.outlen := rfl
@[simp] theorem State.writeFreq_freq (s : State) (i : Fin 256) (v : BitVec 32) : (s.writeFreq i v).freq = s.freq.set i v := rfl
@[simp] theorem State.writeFreq_arena (s : State) (i : Fin 256) (v : BitVec 32) : (s.writeFreq i v).arena = s.arena := rfl
@[simp] theorem State.writeFreq_codes (s : State) (i : Fin 256) (v : BitVec 32) : (s.writeFreq i v).codes = s.codes := rfl
@[simp] theorem State.writeFreq_inq (s : State) (i : Fin 256) (v : BitVec 32) : (s.writeFreq i v).inq = s.inq := rfl
@[simp] theorem State.writeFreq_outq (s : State) (i : Fin 256) (v : BitVec 32) : (s.writeFreq i v).outq = s.outq := rfl
@[simp] theorem State.writeFreq_op (s : State) (i : Fin 256) (v : BitVec 32) : (s.writeFreq i v).op = s.op := rfl
@[simp] theorem State.writeFreq_jobRem (s : State) (i : Fin 256) (v : BitVec 32) : (s.writeFreq i v).jobRem = s.jobRem := rfl
@[simp] theorem State.writeFreq_pb (s : State) (i : Fin 256) (v : BitVec 32) : (s.writeFreq i v).pb = s.pb := rfl
@[simp] theorem State.writeFreq_encBits (s : State) (i : Fin 256) (v : BitVec 32) : (s.writeFreq i v).encBits = s.encBits := rfl
@[simp] theorem State.writeFreq_outN (s : State) (i : Fin 256) (v : BitVec 32) : (s.writeFreq i v).outN = s.outN := rfl
@[simp] theorem State.writeFreq_dnode (s : State) (i : Fin 256) (v : BitVec 32) : (s.writeFreq i v).dnode = s.dnode := rfl
@[simp] theorem State.writeFreq_dbuf (s : State) (i : Fin 256) (v : BitVec 32) : (s.writeFreq i v).dbuf = s.dbuf := rfl
@[simp] theorem State.writeFreq_dbitsRem (s : State) (i : Fin 256) (v : BitVec 32) : (s.writeFreq i v).dbitsRem = s.dbitsRem := rfl
@[simp] theorem State.writeFreq_inDepth (s : State) (i : Fin 256) (v : BitVec 32) : (s.writeFreq i v).inDepth = s.inDepth := rfl
@[simp] theorem State.writeFreq_outDepth (s : State) (i : Fin 256) (v : BitVec 32) : (s.writeFreq i v).outDepth = s.outDepth := rfl
@[simp] theorem State.writeFreq_agent (s : State) (i : Fin 256) (v : BitVec 32) : (s.writeFreq i v).agent = s.agent := rfl
@[simp] theorem State.writeFreq_script (s : State) (i : Fin 256) (v : BitVec 32) : (s.writeFreq i v).script = s.script := rfl
@[simp] theorem State.writeFreq_readLog (s : State) (i : Fin 256) (v : BitVec 32) : (s.writeFreq i v).readLog = s.readLog := rfl
@[simp] theorem State.writeFreq_draws (s : State) (i : Fin 256) (v : BitVec 32) : (s.writeFreq i v).draws = s.draws := rfl

/-! ### clearStatus (R55) -/

@[simp] theorem State.clearStatus_busy (s : State) (v : Word) : (s.clearStatus v).busy = s.busy := rfl
@[simp] theorem State.clearStatus_treeValid (s : State) (v : Word) : (s.clearStatus v).treeValid = s.treeValid := rfl
@[simp] theorem State.clearStatus_codesValid (s : State) (v : Word) : (s.clearStatus v).codesValid = s.codesValid := rfl
@[simp] theorem State.clearStatus_done (s : State) (v : Word) : (s.clearStatus v).done = (s.done && !v.getLsbD 3) := rfl
@[simp] theorem State.clearStatus_cmdDropped (s : State) (v : Word) : (s.clearStatus v).cmdDropped = (s.cmdDropped && !v.getLsbD 4) := rfl
@[simp] theorem State.clearStatus_inOvf (s : State) (v : Word) : (s.clearStatus v).inOvf = (s.inOvf && !v.getLsbD 5) := rfl
@[simp] theorem State.clearStatus_err (s : State) (v : Word) : (s.clearStatus v).err = s.err := rfl
@[simp] theorem State.clearStatus_lastcmd (s : State) (v : Word) : (s.clearStatus v).lastcmd = s.lastcmd := rfl
@[simp] theorem State.clearStatus_irqEn (s : State) (v : Word) : (s.clearStatus v).irqEn = s.irqEn := rfl
@[simp] theorem State.clearStatus_inlen (s : State) (v : Word) : (s.clearStatus v).inlen = s.inlen := rfl
@[simp] theorem State.clearStatus_bitcnt (s : State) (v : Word) : (s.clearStatus v).bitcnt = s.bitcnt := rfl
@[simp] theorem State.clearStatus_outlen (s : State) (v : Word) : (s.clearStatus v).outlen = s.outlen := rfl
@[simp] theorem State.clearStatus_freq (s : State) (v : Word) : (s.clearStatus v).freq = s.freq := rfl
@[simp] theorem State.clearStatus_arena (s : State) (v : Word) : (s.clearStatus v).arena = s.arena := rfl
@[simp] theorem State.clearStatus_codes (s : State) (v : Word) : (s.clearStatus v).codes = s.codes := rfl
@[simp] theorem State.clearStatus_inq (s : State) (v : Word) : (s.clearStatus v).inq = s.inq := rfl
@[simp] theorem State.clearStatus_outq (s : State) (v : Word) : (s.clearStatus v).outq = s.outq := rfl
@[simp] theorem State.clearStatus_op (s : State) (v : Word) : (s.clearStatus v).op = s.op := rfl
@[simp] theorem State.clearStatus_jobRem (s : State) (v : Word) : (s.clearStatus v).jobRem = s.jobRem := rfl
@[simp] theorem State.clearStatus_pb (s : State) (v : Word) : (s.clearStatus v).pb = s.pb := rfl
@[simp] theorem State.clearStatus_encBits (s : State) (v : Word) : (s.clearStatus v).encBits = s.encBits := rfl
@[simp] theorem State.clearStatus_outN (s : State) (v : Word) : (s.clearStatus v).outN = s.outN := rfl
@[simp] theorem State.clearStatus_dnode (s : State) (v : Word) : (s.clearStatus v).dnode = s.dnode := rfl
@[simp] theorem State.clearStatus_dbuf (s : State) (v : Word) : (s.clearStatus v).dbuf = s.dbuf := rfl
@[simp] theorem State.clearStatus_dbitsRem (s : State) (v : Word) : (s.clearStatus v).dbitsRem = s.dbitsRem := rfl
@[simp] theorem State.clearStatus_inDepth (s : State) (v : Word) : (s.clearStatus v).inDepth = s.inDepth := rfl
@[simp] theorem State.clearStatus_outDepth (s : State) (v : Word) : (s.clearStatus v).outDepth = s.outDepth := rfl
@[simp] theorem State.clearStatus_agent (s : State) (v : Word) : (s.clearStatus v).agent = s.agent := rfl
@[simp] theorem State.clearStatus_script (s : State) (v : Word) : (s.clearStatus v).script = s.script := rfl
@[simp] theorem State.clearStatus_readLog (s : State) (v : Word) : (s.clearStatus v).readLog = s.readLog := rfl
@[simp] theorem State.clearStatus_draws (s : State) (v : Word) : (s.clearStatus v).draws = s.draws := rfl

/-! ### forAgent (R15) -/

@[simp] theorem State.forAgent_busy (s : State) (a : Agent) : (s.forAgent a).busy = s.busy := rfl
@[simp] theorem State.forAgent_treeValid (s : State) (a : Agent) : (s.forAgent a).treeValid = s.treeValid := rfl
@[simp] theorem State.forAgent_codesValid (s : State) (a : Agent) : (s.forAgent a).codesValid = s.codesValid := rfl
@[simp] theorem State.forAgent_done (s : State) (a : Agent) : (s.forAgent a).done = s.done := rfl
@[simp] theorem State.forAgent_cmdDropped (s : State) (a : Agent) : (s.forAgent a).cmdDropped = s.cmdDropped := rfl
@[simp] theorem State.forAgent_inOvf (s : State) (a : Agent) : (s.forAgent a).inOvf = s.inOvf := rfl
@[simp] theorem State.forAgent_err (s : State) (a : Agent) : (s.forAgent a).err = s.err := rfl
@[simp] theorem State.forAgent_lastcmd (s : State) (a : Agent) : (s.forAgent a).lastcmd = s.lastcmd := rfl
@[simp] theorem State.forAgent_irqEn (s : State) (a : Agent) : (s.forAgent a).irqEn = s.irqEn := rfl
@[simp] theorem State.forAgent_inlen (s : State) (a : Agent) : (s.forAgent a).inlen = s.inlen := rfl
@[simp] theorem State.forAgent_bitcnt (s : State) (a : Agent) : (s.forAgent a).bitcnt = s.bitcnt := rfl
@[simp] theorem State.forAgent_outlen (s : State) (a : Agent) : (s.forAgent a).outlen = s.outlen := rfl
@[simp] theorem State.forAgent_freq (s : State) (a : Agent) : (s.forAgent a).freq = s.freq := rfl
@[simp] theorem State.forAgent_arena (s : State) (a : Agent) : (s.forAgent a).arena = s.arena := rfl
@[simp] theorem State.forAgent_codes (s : State) (a : Agent) : (s.forAgent a).codes = s.codes := rfl
@[simp] theorem State.forAgent_inq (s : State) (a : Agent) : (s.forAgent a).inq = s.inq := rfl
@[simp] theorem State.forAgent_outq (s : State) (a : Agent) : (s.forAgent a).outq = s.outq := rfl
@[simp] theorem State.forAgent_op (s : State) (a : Agent) : (s.forAgent a).op = s.op := rfl
@[simp] theorem State.forAgent_jobRem (s : State) (a : Agent) : (s.forAgent a).jobRem = s.jobRem := rfl
@[simp] theorem State.forAgent_pb (s : State) (a : Agent) : (s.forAgent a).pb = s.pb := rfl
@[simp] theorem State.forAgent_encBits (s : State) (a : Agent) : (s.forAgent a).encBits = s.encBits := rfl
@[simp] theorem State.forAgent_outN (s : State) (a : Agent) : (s.forAgent a).outN = s.outN := rfl
@[simp] theorem State.forAgent_dnode (s : State) (a : Agent) : (s.forAgent a).dnode = s.dnode := rfl
@[simp] theorem State.forAgent_dbuf (s : State) (a : Agent) : (s.forAgent a).dbuf = s.dbuf := rfl
@[simp] theorem State.forAgent_dbitsRem (s : State) (a : Agent) : (s.forAgent a).dbitsRem = s.dbitsRem := rfl
@[simp] theorem State.forAgent_inDepth (s : State) (a : Agent) : (s.forAgent a).inDepth = s.inDepth := rfl
@[simp] theorem State.forAgent_outDepth (s : State) (a : Agent) : (s.forAgent a).outDepth = s.outDepth := rfl
@[simp] theorem State.forAgent_agent (s : State) (a : Agent) : (s.forAgent a).agent = a := rfl
@[simp] theorem State.forAgent_script (s : State) (a : Agent) : (s.forAgent a).script = s.script.tail := rfl
@[simp] theorem State.forAgent_readLog (s : State) (a : Agent) : (s.forAgent a).readLog = s.readLog := rfl
@[simp] theorem State.forAgent_draws (s : State) (a : Agent) : (s.forAgent a).draws = s.draws := rfl

/-! ### softreset (R97, R200) -/

@[simp] theorem State.softreset_busy (s : State) : s.softreset.busy = false := rfl
@[simp] theorem State.softreset_treeValid (s : State) : s.softreset.treeValid = false := rfl
@[simp] theorem State.softreset_codesValid (s : State) : s.softreset.codesValid = false := rfl
@[simp] theorem State.softreset_done (s : State) : s.softreset.done = false := rfl
@[simp] theorem State.softreset_cmdDropped (s : State) : s.softreset.cmdDropped = false := rfl
@[simp] theorem State.softreset_inOvf (s : State) : s.softreset.inOvf = false := rfl
@[simp] theorem State.softreset_err (s : State) : s.softreset.err = .noError := rfl
@[simp] theorem State.softreset_lastcmd (s : State) : s.softreset.lastcmd = 0 := rfl
@[simp] theorem State.softreset_irqEn (s : State) : s.softreset.irqEn = false := rfl
@[simp] theorem State.softreset_inlen (s : State) : s.softreset.inlen = 0 := rfl
@[simp] theorem State.softreset_bitcnt (s : State) : s.softreset.bitcnt = 0 := rfl
@[simp] theorem State.softreset_outlen (s : State) : s.softreset.outlen = 0 := rfl
@[simp] theorem State.softreset_freq (s : State) : s.softreset.freq = Vector.replicate 256 0 := rfl
@[simp] theorem State.softreset_arena (s : State) : s.softreset.arena = Arena.zero := rfl
@[simp] theorem State.softreset_codes (s : State) : s.softreset.codes = CodeTable.zero := rfl
@[simp] theorem State.softreset_inq (s : State) : s.softreset.inq = [] := rfl
@[simp] theorem State.softreset_outq (s : State) : s.softreset.outq = [] := rfl
@[simp] theorem State.softreset_op (s : State) : s.softreset.op = 0 := rfl
@[simp] theorem State.softreset_jobRem (s : State) : s.softreset.jobRem = 0 := rfl
@[simp] theorem State.softreset_pb (s : State) : s.softreset.pb = [] := rfl
@[simp] theorem State.softreset_encBits (s : State) : s.softreset.encBits = 0 := rfl
@[simp] theorem State.softreset_outN (s : State) : s.softreset.outN = 0 := rfl
@[simp] theorem State.softreset_dnode (s : State) : s.softreset.dnode = 0 := rfl
@[simp] theorem State.softreset_dbuf (s : State) : s.softreset.dbuf = [] := rfl
@[simp] theorem State.softreset_dbitsRem (s : State) : s.softreset.dbitsRem = 0 := rfl
@[simp] theorem State.softreset_inDepth (s : State) : s.softreset.inDepth = s.inDepth := rfl
@[simp] theorem State.softreset_outDepth (s : State) : s.softreset.outDepth = s.outDepth := rfl
@[simp] theorem State.softreset_agent (s : State) : s.softreset.agent = s.agent := rfl
@[simp] theorem State.softreset_script (s : State) : s.softreset.script = s.script := rfl
@[simp] theorem State.softreset_readLog (s : State) : s.softreset.readLog = s.readLog := rfl
@[simp] theorem State.softreset_draws (s : State) : s.softreset.draws = s.draws := rfl

end Sys2Proof.Machine
end

