-- ==== Sys2Proof/Laws/Ops.lean ====
section
/-! SUPPORT. What each shared operation over the state can do, said once: the FIFO steps (00_scope.md
R13), a write to CMD (40_control.md R90 to R93), and the two halves of a command's meaning. -/

-- One theorem at a time: a task for each of many small theorems would each hold a stack.
set_option Elab.async false

namespace Sys2Proof.Machine

/-! ### FIFO steps -/

theorem consume_nil {s : State} (f : Byte → State → State) (h : s.inq = []) : s.consume f = s := by
  simp [State.consume, h]

theorem consume_cons {s : State} {b : Byte} {q : List Byte} (f : Byte → State → State) (h : s.inq = b :: q) :
    s.consume f =
      if s.err = .noError then f b { s with inq := q, jobRem := s.jobRem - 1 }
      else { s with inq := q, jobRem := s.jobRem - 1 } := by
  simp [State.consume, h]

/-- R59. -/
theorem pushIn_room {s : State} (b : Byte) (h : s.inq.length < s.inDepth.val) :
    s.pushIn b = { s with inq := s.inq ++ [b] } := by
  simp [State.pushIn, State.inRoom, h]

theorem pushIn_full {s : State} (b : Byte) (h : ¬s.inq.length < s.inDepth.val) :
    s.pushIn b = { s with inOvf := true } := by
  simp [State.pushIn, State.inRoom, h]

/-- R58. -/
theorem popOut_cons {s : State} {b : Byte} {q : List Byte} (h : s.outq = b :: q) :
    s.popOut = (0x80000000#32 ||| b.setWidth 32, { s with outq := q }) := by
  simp [State.popOut, h]

theorem popOut_nil {s : State} (h : s.outq = []) : s.popOut = (0#32, s) := by
  simp [State.popOut, h]

theorem Depth.val_pos (d : Depth) : 1 ≤ d.val := by simp [Depth.val]

theorem Depth.val_le (d : Depth) : d.val ≤ 65535 := by
  have := d.pred.isLt
  simp only [Depth.val]
  omega

/-! ### Acceptance (R91) -/

/-- The part of acceptance that every command shares. -/
def State.start (s : State) (op : BitVec 4) : State :=
  { s with lastcmd := op, op := op, err := .noError, done := false, busy := true }

theorem accept_eq (s : State) (op : BitVec 4) : s.accept op = acceptAction op (s.start op) := rfl

theorem accept_clrfreq (s : State) : s.accept opClrfreq = (s.start opClrfreq).invalidate := rfl
theorem accept_count (s : State) : s.accept opCount = acceptCount (s.start opCount) := rfl
theorem accept_build (s : State) : s.accept opBuild = (s.start opBuild).invalidate := rfl
theorem accept_gencodes (s : State) : s.accept opGencodes = acceptGencodes (s.start opGencodes) := rfl
theorem accept_encode (s : State) : s.accept opEncode = acceptEncode (s.start opEncode) := rfl
theorem accept_decode (s : State) : s.accept opDecode = acceptDecode (s.start opDecode) := rfl
theorem accept_nop (s : State) : s.accept opNop = s.start opNop := rfl
theorem accept_flush (s : State) : s.accept opFlush = s.start opFlush := rfl

/-- R91: what no acceptance action changes. -/
theorem acceptAction_frame (op : BitVec 4) (s : State) :
    (acceptAction op s).cmdDropped = s.cmdDropped ∧
    (acceptAction op s).inOvf = s.inOvf ∧
    (acceptAction op s).irqEn = s.irqEn ∧
    (acceptAction op s).inlen = s.inlen ∧
    (acceptAction op s).bitcnt = s.bitcnt ∧
    (acceptAction op s).outlen = s.outlen ∧
    (acceptAction op s).freq = s.freq ∧
    (acceptAction op s).arena = s.arena ∧
    (acceptAction op s).codes = s.codes ∧
    (acceptAction op s).inq = s.inq ∧
    (acceptAction op s).outq = s.outq ∧
    (acceptAction op s).inDepth = s.inDepth ∧
    (acceptAction op s).outDepth = s.outDepth ∧
    (acceptAction op s).agent = s.agent ∧
    (acceptAction op s).script = s.script ∧
    (acceptAction op s).readLog = s.readLog ∧
    (acceptAction op s).draws = s.draws ∧
    (acceptAction op s).busy = s.busy ∧
    (acceptAction op s).done = s.done ∧
    (acceptAction op s).op = s.op ∧
    (acceptAction op s).lastcmd = s.lastcmd := by
  unfold acceptAction acceptCount acceptGencodes acceptEncode acceptDecode
  split_ifs <;> exact ⟨rfl, rfl, rfl, rfl, rfl, rfl, rfl, rfl, rfl, rfl, rfl, rfl, rfl, rfl, rfl, rfl, rfl, rfl, rfl, rfl, rfl⟩

@[simp] theorem acceptAction_cmdDropped (op : BitVec 4) (s : State) : (acceptAction op s).cmdDropped = s.cmdDropped :=
  (acceptAction_frame op s).1
@[simp] theorem acceptAction_inOvf (op : BitVec 4) (s : State) : (acceptAction op s).inOvf = s.inOvf :=
  (acceptAction_frame op s).2.1
@[simp] theorem acceptAction_irqEn (op : BitVec 4) (s : State) : (acceptAction op s).irqEn = s.irqEn :=
  (acceptAction_frame op s).2.2.1
@[simp] theorem acceptAction_inlen (op : BitVec 4) (s : State) : (acceptAction op s).inlen = s.inlen :=
  (acceptAction_frame op s).2.2.2.1
@[simp] theorem acceptAction_bitcnt (op : BitVec 4) (s : State) : (acceptAction op s).bitcnt = s.bitcnt :=
  (acceptAction_frame op s).2.2.2.2.1
@[simp] theorem acceptAction_outlen (op : BitVec 4) (s : State) : (acceptAction op s).outlen = s.outlen :=
  (acceptAction_frame op s).2.2.2.2.2.1
@[simp] theorem acceptAction_freq (op : BitVec 4) (s : State) : (acceptAction op s).freq = s.freq :=
  (acceptAction_frame op s).2.2.2.2.2.2.1
@[simp] theorem acceptAction_arena (op : BitVec 4) (s : State) : (acceptAction op s).arena = s.arena :=
  (acceptAction_frame op s).2.2.2.2.2.2.2.1
@[simp] theorem acceptAction_codes (op : BitVec 4) (s : State) : (acceptAction op s).codes = s.codes :=
  (acceptAction_frame op s).2.2.2.2.2.2.2.2.1
@[simp] theorem acceptAction_inq (op : BitVec 4) (s : State) : (acceptAction op s).inq = s.inq :=
  (acceptAction_frame op s).2.2.2.2.2.2.2.2.2.1
@[simp] theorem acceptAction_outq (op : BitVec 4) (s : State) : (acceptAction op s).outq = s.outq :=
  (acceptAction_frame op s).2.2.2.2.2.2.2.2.2.2.1
@[simp] theorem acceptAction_inDepth (op : BitVec 4) (s : State) : (acceptAction op s).inDepth = s.inDepth :=
  (acceptAction_frame op s).2.2.2.2.2.2.2.2.2.2.2.1
@[simp] theorem acceptAction_outDepth (op : BitVec 4) (s : State) : (acceptAction op s).outDepth = s.outDepth :=
  (acceptAction_frame op s).2.2.2.2.2.2.2.2.2.2.2.2.1
@[simp] theorem acceptAction_agent (op : BitVec 4) (s : State) : (acceptAction op s).agent = s.agent :=
  (acceptAction_frame op s).2.2.2.2.2.2.2.2.2.2.2.2.2.1
@[simp] theorem acceptAction_script (op : BitVec 4) (s : State) : (acceptAction op s).script = s.script :=
  (acceptAction_frame op s).2.2.2.2.2.2.2.2.2.2.2.2.2.2.1
@[simp] theorem acceptAction_readLog (op : BitVec 4) (s : State) : (acceptAction op s).readLog = s.readLog :=
  (acceptAction_frame op s).2.2.2.2.2.2.2.2.2.2.2.2.2.2.2.1
@[simp] theorem acceptAction_draws (op : BitVec 4) (s : State) : (acceptAction op s).draws = s.draws :=
  (acceptAction_frame op s).2.2.2.2.2.2.2.2.2.2.2.2.2.2.2.2.1
@[simp] theorem acceptAction_busy (op : BitVec 4) (s : State) : (acceptAction op s).busy = s.busy :=
  (acceptAction_frame op s).2.2.2.2.2.2.2.2.2.2.2.2.2.2.2.2.2.1
@[simp] theorem acceptAction_done (op : BitVec 4) (s : State) : (acceptAction op s).done = s.done :=
  (acceptAction_frame op s).2.2.2.2.2.2.2.2.2.2.2.2.2.2.2.2.2.2.1
@[simp] theorem acceptAction_op (op : BitVec 4) (s : State) : (acceptAction op s).op = s.op :=
  (acceptAction_frame op s).2.2.2.2.2.2.2.2.2.2.2.2.2.2.2.2.2.2.2.1
@[simp] theorem acceptAction_lastcmd (op : BitVec 4) (s : State) : (acceptAction op s).lastcmd = s.lastcmd :=
  (acceptAction_frame op s).2.2.2.2.2.2.2.2.2.2.2.2.2.2.2.2.2.2.2.2
@[simp] theorem accept_cmdDropped_field (s : State) (op : BitVec 4) : (s.accept op).cmdDropped = s.cmdDropped :=
  acceptAction_cmdDropped op (s.start op)
@[simp] theorem accept_inOvf_field (s : State) (op : BitVec 4) : (s.accept op).inOvf = s.inOvf :=
  acceptAction_inOvf op (s.start op)
@[simp] theorem accept_irqEn_field (s : State) (op : BitVec 4) : (s.accept op).irqEn = s.irqEn :=
  acceptAction_irqEn op (s.start op)
@[simp] theorem accept_inlen_field (s : State) (op : BitVec 4) : (s.accept op).inlen = s.inlen :=
  acceptAction_inlen op (s.start op)
@[simp] theorem accept_bitcnt_field (s : State) (op : BitVec 4) : (s.accept op).bitcnt = s.bitcnt :=
  acceptAction_bitcnt op (s.start op)
@[simp] theorem accept_outlen_field (s : State) (op : BitVec 4) : (s.accept op).outlen = s.outlen :=
  acceptAction_outlen op (s.start op)
@[simp] theorem accept_freq_field (s : State) (op : BitVec 4) : (s.accept op).freq = s.freq :=
  acceptAction_freq op (s.start op)
@[simp] theorem accept_arena_field (s : State) (op : BitVec 4) : (s.accept op).arena = s.arena :=
  acceptAction_arena op (s.start op)
@[simp] theorem accept_codes_field (s : State) (op : BitVec 4) : (s.accept op).codes = s.codes :=
  acceptAction_codes op (s.start op)
@[simp] theorem accept_inq_field (s : State) (op : BitVec 4) : (s.accept op).inq = s.inq :=
  acceptAction_inq op (s.start op)
@[simp] theorem accept_outq_field (s : State) (op : BitVec 4) : (s.accept op).outq = s.outq :=
  acceptAction_outq op (s.start op)
@[simp] theorem accept_inDepth_field (s : State) (op : BitVec 4) : (s.accept op).inDepth = s.inDepth :=
  acceptAction_inDepth op (s.start op)
@[simp] theorem accept_outDepth_field (s : State) (op : BitVec 4) : (s.accept op).outDepth = s.outDepth :=
  acceptAction_outDepth op (s.start op)
@[simp] theorem accept_agent_field (s : State) (op : BitVec 4) : (s.accept op).agent = s.agent :=
  acceptAction_agent op (s.start op)
@[simp] theorem accept_script_field (s : State) (op : BitVec 4) : (s.accept op).script = s.script :=
  acceptAction_script op (s.start op)
@[simp] theorem accept_readLog_field (s : State) (op : BitVec 4) : (s.accept op).readLog = s.readLog :=
  acceptAction_readLog op (s.start op)
@[simp] theorem accept_draws_field (s : State) (op : BitVec 4) : (s.accept op).draws = s.draws :=
  acceptAction_draws op (s.start op)
@[simp] theorem accept_busy_field (s : State) (op : BitVec 4) : (s.accept op).busy = true :=
  acceptAction_busy op (s.start op)
@[simp] theorem accept_done_field (s : State) (op : BitVec 4) : (s.accept op).done = false :=
  acceptAction_done op (s.start op)
@[simp] theorem accept_op_field (s : State) (op : BitVec 4) : (s.accept op).op = op :=
  acceptAction_op op (s.start op)
@[simp] theorem accept_lastcmd_field (s : State) (op : BitVec 4) : (s.accept op).lastcmd = op :=
  acceptAction_lastcmd op (s.start op)

/-- R91: acceptance never sets a valid flag. -/
theorem accept_treeValid (s : State) (op : BitVec 4) (h : (s.accept op).treeValid = true) : s.treeValid = true := by
  revert h
  simp only [accept_eq, acceptAction, acceptCount, acceptGencodes, acceptEncode, acceptDecode]
  split_ifs <;> simp [State.start]

theorem accept_codesValid (s : State) (op : BitVec 4) (h : (s.accept op).codesValid = true) :
    s.codesValid = true := by
  revert h
  simp only [accept_eq, acceptAction, acceptCount, acceptGencodes, acceptEncode, acceptDecode]
  split_ifs <;> simp [State.start]

/-! ### A write to CMD (R90) -/

theorem cmdWrite_softreset (s : State) : s.cmdWrite 0x0000000F#32 = s.softreset := by
  simp [State.cmdWrite]

theorem cmdWrite_busy {s : State} {w : Word} (hw : w ≠ 0x0000000F#32) (h : s.busy = true) :
    s.cmdWrite w = s.drop := by
  simp [State.cmdWrite, hw, h]

theorem cmdWrite_illegal {s : State} {w : Word} {e : DecodeError} (h : s.busy = false)
    (hw : decodeCmd w = .error e) : s.cmdWrite w = s.refuse w := by
  have : w ≠ 0x0000000F#32 := by
    intro h0
    rw [h0] at hw
    simp [decodeCmd] at hw
  simp [State.cmdWrite, this, h, hw]

theorem cmdWrite_legal {s : State} {w : Word} {i : Instr} (h : s.busy = false) (hw : decodeCmd w = .ok i)
    (hi : i ≠ .softreset) : s.cmdWrite w = s.accept (cmdOpcode w) := by
  have : w ≠ 0x0000000F#32 := by
    intro h0
    rw [h0] at hw
    simp [decodeCmd] at hw
    exact hi hw.symm
  simp [State.cmdWrite, this, h, hw]

/-- R90: all that a write to CMD can do. -/
theorem cmdWrite_cases (s : State) (w : Word) :
    s.cmdWrite w = s.softreset ∨ (s.busy = true ∧ s.cmdWrite w = s.drop) ∨
      (s.busy = false ∧ s.cmdWrite w = s.refuse w) ∨
      (s.busy = false ∧ ∃ op : BitVec 4, op.toNat ≤ 7 ∧ s.cmdWrite w = s.accept op) := by
  by_cases hw : w = 0x0000000F#32
  · exact .inl (hw ▸ cmdWrite_softreset s)
  · cases hb : s.busy with
    | true => exact .inr (.inl ⟨rfl, cmdWrite_busy hw hb⟩)
    | false =>
      cases hd : decodeCmd w with
      | error e => exact .inr (.inr (.inl ⟨rfl, cmdWrite_illegal hb hd⟩))
      | ok i =>
        rcases decodeCmd_ok hd with ⟨h, _⟩ | ⟨h8, hi, _⟩
        · exact absurd h hw
        · refine .inr (.inr (.inr ⟨rfl, cmdOpcode w, ?_, cmdWrite_legal hb hd hi⟩))
          rw [cmdOpcode_toNat]
          omega

/-! ### The two halves of a command's meaning -/

theorem byTurn_host {s : State} (w : Word) (f : State → Result) (h : s.agent = .host) :
    byTurn w f s = .next (s.cmdWrite w) := by
  simp [byTurn, h]

theorem byTurn_core {s : State} (w : Word) (f : State → Result) (h : s.agent = .core) :
    byTurn w f s = f s := by
  simp [byTurn, h]

end Sys2Proof.Machine
end

