-- ==== Sys2Proof/Laws/Exec.lean ====
section
/-! SUPPORT. All that the meaning of an instruction can do when it answers a next state: a write to CMD, one
enabled core step, nothing, a bus read or a bus write. -/

namespace Sys2Proof.Machine

/-- The core's half of each command performs the core step that is enabled, or holds. -/
theorem coreTurn_cases {i : Instr} {s : State} (ha : s.agent = .core) (hr : ∀ a d, i ≠ .rd a d)
    (hw : ∀ a d, i ≠ .wr a d) :
    (∃ c : CoreStep, c.enabled s = true ∧ exec i s = c.perform s) ∨ exec i s = .next s := by
  cases i with
  | nop =>
    simp only [exec, execNop, byTurn_core _ _ ha]
    split
    · exact .inl ⟨.nopExec, ‹_›, rfl⟩
    · exact .inr rfl
  | clrfreq =>
    simp only [exec, execClrfreq, byTurn_core _ _ ha]
    split
    · exact .inl ⟨.clrfreqExec, ‹_›, rfl⟩
    · exact .inr rfl
  | count =>
    simp only [exec, execCount, byTurn_core _ _ ha, countStep]
    split
    · exact .inl ⟨.countByte, ‹_›, rfl⟩
    · split
      · exact .inl ⟨.countDone, ‹_›, rfl⟩
      · exact .inr rfl
  | build =>
    simp only [exec, execBuild, byTurn_core _ _ ha]
    split
    · exact .inl ⟨.buildExec, ‹_›, rfl⟩
    · exact .inr rfl
  | gencodes =>
    simp only [exec, execGencodes, byTurn_core _ _ ha]
    split
    · exact .inl ⟨.gencodesExec, ‹_›, rfl⟩
    · exact .inr rfl
  | encode =>
    simp only [exec, execEncode, byTurn_core _ _ ha, encodeStep]
    split
    · exact .inl ⟨.encConsume, ‹_›, rfl⟩
    · split
      · exact .inl ⟨.encEmit, ‹_›, rfl⟩
      · split
        · exact .inl ⟨.encDone, ‹_›, rfl⟩
        · exact .inr rfl
  | decode =>
    simp only [exec, execDecode, byTurn_core _ _ ha, decodeStep]
    split
    · exact .inl ⟨.decLoad, ‹_›, rfl⟩
    · split
      · exact .inl ⟨.decWalk, ‹_›, rfl⟩
      · split
        · exact .inl ⟨.decDone, ‹_›, rfl⟩
        · exact .inr rfl
  | flush =>
    simp only [exec, execFlush, byTurn_core _ _ ha]
    split
    · exact .inl ⟨.flushExec, ‹_›, rfl⟩
    · exact .inr rfl
  | softreset => exact .inr (by simp only [exec, execSoftreset, byTurn_core _ _ ha])
  | rd a d => exact absurd rfl (hr a d)
  | wr a d => exact absurd rfl (hw a d)

/-- The host's half of each command writes the command's word to CMD. -/
theorem hostTurn_eq {i : Instr} {s : State} {w : Word} (ha : s.agent = .host) (hi : encode i = .cmd w) :
    exec i s = .next (s.cmdWrite w) := by
  cases i <;> simp only [encode, HostWord.cmd.injEq, reduceCtorEq] at hi <;> subst hi <;>
    simp only [exec, execNop, execClrfreq, execCount, execBuild, execGencodes, execEncode, execDecode, execFlush,
      execSoftreset, byTurn_host _ _ ha]

/-- R98: what a read does. -/
theorem exec_rd (a : Addr) (d : Word) (s : State) :
    exec (.rd a d) s =
      .next { (s.busRead a).2 with readLog := (s.busRead a).1 :: (s.busRead a).2.readLog } := rfl

/-- R99: what a write does. -/
theorem exec_wr (a : Addr) (v : Word) (s : State) : exec (.wr a v) s = .next (s.busWrite a v) := rfl

/-- R53, R58, R67: all that a bus read can do to the state. -/
theorem busRead_state_cases (s : State) (a : Addr) :
    (s.busRead a).2 = s ∨ (target a = .outData ∧ ∃ b q, s.outq = b :: q ∧ (s.busRead a).2 = { s with outq := q }) ∨
      (s.busRead a).2 = { s with draws := s.draws + 1 } := by
  unfold State.busRead
  by_cases ht : target a = .outData
  · simp only [ht, if_true]
    cases hq : s.outq with
    | nil => exact .inl (by rw [popOut_nil hq])
    | cons b q => exact .inr (.inl ⟨trivial, b, q, rfl, by rw [popOut_cons hq]⟩)
  · simp only [ht, if_false]
    split
    · exact .inr (.inr rfl)
    · exact .inl rfl

/-- All that an instruction can do. -/
theorem exec_cases {i : Instr} {s t : State} (h : exec i s = .next t) :
    (s.agent = .host ∧ ∃ w, encode i = .cmd w ∧ t = s.cmdWrite w) ∨
      (s.agent = .core ∧ ∃ c : CoreStep, c.enabled s = true ∧ exec i s = c.perform s) ∨
      t = s ∨
      (∃ a d, i = .rd a d ∧
        t = { (s.busRead a).2 with readLog := (s.busRead a).1 :: (s.busRead a).2.readLog }) ∨
      (∃ a v, i = .wr a v ∧ t = s.busWrite a v) := by
  by_cases hr : ∃ a d, i = .rd a d
  · obtain ⟨a, d, rfl⟩ := hr
    rw [exec_rd, Host.Outcome.next.injEq] at h
    exact .inr (.inr (.inr (.inl ⟨a, d, rfl, h.symm⟩)))
  by_cases hw : ∃ a v, i = .wr a v
  · obtain ⟨a, v, rfl⟩ := hw
    rw [exec_wr, Host.Outcome.next.injEq] at h
    exact .inr (.inr (.inr (.inr ⟨a, v, rfl, h.symm⟩)))
  cases ha : s.agent with
  | host =>
    obtain ⟨w, hi⟩ : ∃ w, encode i = .cmd w := by
      cases i with
      | rd a d => exact absurd ⟨a, d, rfl⟩ hr
      | wr a d => exact absurd ⟨a, d, rfl⟩ hw
      | _ => exact ⟨_, rfl⟩
    rw [hostTurn_eq ha hi, Host.Outcome.next.injEq] at h
    exact .inl ⟨rfl, w, hi, h.symm⟩
  | core =>
    rcases coreTurn_cases ha (fun a d hi => hr ⟨a, d, hi⟩) (fun a d hi => hw ⟨a, d, hi⟩) with ⟨c, hc, he⟩ | he
    · exact .inr (.inl ⟨rfl, c, hc, he⟩)
    · rw [he, Host.Outcome.next.injEq] at h
      exact .inr (.inr (.inl h.symm))

/-- What is common to one step, whoever moves: the instruction runs in a state that differs from `s` only in
whose turn it is and what of the script is left. -/
theorem step_cases {s t : State} (h : step s = .next t) :
    (∃ a, t = (s.forAgent a).softreset) ∨ (∃ i a, exec i (s.forAgent a) = .next t) ∨
      (∃ w, t = (s.forAgent .host).cmdWrite w) ∨ t = s.forAgent .core ∨ t = s.forAgent .host := by
  unfold step at h
  split at h
  · exact .inl ⟨_, by simpa using h.symm⟩
  · split at h
    · exact .inr (.inl ⟨_, _, h⟩)
    · exact .inr (.inr (.inr (.inl (by simpa using h.symm))))
  · rename_i w _
    split at h
    · exact .inr (.inl ⟨_, _, h⟩)
    · cases w with
      | cmd w => exact .inr (.inr (.inl ⟨w, by simpa [State.illegalWord] using h.symm⟩))
      | bus w => exact .inr (.inr (.inr (.inr (by simpa [State.illegalWord] using h.symm))))

end Sys2Proof.Machine
end

