-- ==== Sys2Proof/Laws/Bus.lean ====
section
/-! SUPPORT. The address map (20_memory.md R46 to R48) address by address, and what a read or a write of each
kind of register does, so that no proof computes `target` again. -/

namespace Sys2Proof.Machine

/-! ### The control registers (R46) -/

@[simp] theorem target_id : target 0x0000#13 = .id := by decide
@[simp] theorem target_cmd : target 0x0001#13 = .cmd := by decide
@[simp] theorem target_status : target 0x0002#13 = .status := by decide
@[simp] theorem target_irqen : target 0x0003#13 = .irqen := by decide
@[simp] theorem target_inlenLo : target 0x0004#13 = .inlenLo := by decide
@[simp] theorem target_inlenHi : target 0x0005#13 = .inlenHi := by decide
@[simp] theorem target_bitcntLo : target 0x0006#13 = .bitcntLo := by decide
@[simp] theorem target_bitcntHi : target 0x0007#13 = .bitcntHi := by decide
@[simp] theorem target_outlenLo : target 0x0008#13 = .outlenLo := by decide
@[simp] theorem target_outlenHi : target 0x0009#13 = .outlenHi := by decide
@[simp] theorem target_inData : target 0x000A#13 = .inData := by decide
@[simp] theorem target_outData : target 0x000B#13 = .outData := by decide
@[simp] theorem target_fifoLevel : target 0x000C#13 = .fifoLevel := by decide
@[simp] theorem target_nsym : target 0x000D#13 = .nsym := by decide
@[simp] theorem target_treeinfo : target 0x000E#13 = .treeinfo := by decide

/-! ### The windows (R47, R48) -/

theorem addr_toNat {n : Nat} (h : n < 8192) : (BitVec.ofNat 13 n).toNat = n := by
  rw [BitVec.toNat_ofNat]
  omega

theorem target_freq (b : Byte) : target (BitVec.ofNat 13 (0x100 + b.toNat)) = .freq ⟨b.toNat, b.isLt⟩ := by
  have hb := b.isLt
  simp only [target, addr_toNat (n := 0x100 + b.toNat) (by omega)]
  rw [if_neg (by omega), if_pos (by omega)]
  exact congrArg Target.freq (Fin.ext (by simp only [Fin.val_ofNat]; omega))

theorem target_codeLen (b : Byte) : target (BitVec.ofNat 13 (0x200 + b.toNat)) = .codeLen ⟨b.toNat, b.isLt⟩ := by
  have hb := b.isLt
  simp only [target, addr_toNat (n := 0x200 + b.toNat) (by omega)]
  rw [if_neg (by omega), if_neg (by omega), if_pos (by omega)]
  exact congrArg Target.codeLen (Fin.ext (by simp only [Fin.val_ofNat]; omega))

theorem target_code (b : Byte) {j : Nat} (hj : j < 8) :
    target (BitVec.ofNat 13 (0x800 + 8 * b.toNat + j)) = .code ⟨b.toNat, b.isLt⟩ ⟨j, hj⟩ := by
  have hb := b.isLt
  simp only [target, addr_toNat (n := 0x800 + 8 * b.toNat + j) (by omega)]
  rw [if_neg (by omega), if_neg (by omega), if_neg (by omega), if_neg (by omega), if_pos (by omega)]
  exact congrArg₂ Target.code (Fin.ext (by simp only [Fin.val_ofNat]; omega))
    (Fin.ext (by simp only [Fin.val_ofNat]; omega))

theorem target_node {i k : Nat} (hi : i < 511) (hk : k < 4) :
    target (BitVec.ofNat 13 (0x1000 + 4 * i + k)) = .node ⟨i, hi⟩ ⟨k, hk⟩ := by
  simp only [target, addr_toNat (n := 0x1000 + 4 * i + k) (by omega)]
  rw [if_neg (by omega), if_neg (by omega), if_neg (by omega), if_neg (by omega), if_neg (by omega),
    if_pos (by omega)]
  exact congrArg₂ Target.node (Fin.ext (by simp only [Fin.val_ofNat]; omega))
    (Fin.ext (by simp only [Fin.val_ofNat]; omega))

/-! ### Reads (R53, R58, R67) -/

theorem busRead_plain {s : State} {a : Addr} (h : target a ≠ .outData)
    (hf : s.busy = false ∨ (target a).freeWhileBusy = false) : s.busRead a = (readValue s (target a), s) := by
  rcases hf with hf | hf <;> simp [State.busRead, h, hf]

theorem busRead_free {s : State} {a : Addr} (hb : s.busy = true) (hf : (target a).freeWhileBusy = true) :
    s.busRead a = (Config.freeRead s.draws, { s with draws := s.draws + 1 }) := by
  have h : target a ≠ .outData := by
    intro h
    rw [h] at hf
    simp [Target.freeWhileBusy] at hf
  simp [State.busRead, h, hb, hf]

theorem busRead_outData {s : State} {a : Addr} (h : target a = .outData) : s.busRead a = s.popOut := by
  simp [State.busRead, h]

/-! ### Writes (R54 to R59) -/

theorem busWrite_eq {s : State} {a : Addr} {t : Target} (v : Word) (h : target a = t) :
    s.busWrite a v = writeTarget s v t := by
  rw [State.busWrite, h]

theorem writeTarget_freq (s : State) (v : Word) (i : Fin 256) :
    writeTarget s v (.freq i) = if s.busy then s else s.writeFreq i v := rfl

end Sys2Proof.Machine
end

