-- ==== Sys2Proof/Laws/Container.lean ====
section
/-! SUPPORT. The turns of `restoreScript` do what R156 asks for: after them the host has read OUTLEN symbols
and BUSY = 0, whatever the payload and the depths of the FIFOs. -/

namespace Sys2Proof.Machine

/-! ### Running a list of turns -/

theorem run_zero (s : State) : run 0 s = .next s := rfl

theorem run_succ_eq {n : Nat} {s t : State} (h : step s = .next t) : run (n + 1) s = run n t := by
  rw [run, h]

theorem run_succ {n : Nat} {s u : State} (h : run (n + 1) s = .next u) : ∃ t, step s = .next t ∧ run n t = .next u := by
  cases hs : step s with
  | next t => exact ⟨t, rfl, run_succ_eq hs ▸ h⟩
  | fault f => simp [run, hs] at h
  | refused r => simp [run, hs] at h

theorem run_add {m n : Nat} {s u : State} (h : run (m + n) s = .next u) :
    ∃ t, run m s = .next t ∧ run n t = .next u := by
  induction m generalizing s with
  | zero => exact ⟨s, rfl, by simpa using h⟩
  | succ m ih =>
    rw [Nat.succ_add] at h
    obtain ⟨v, hv, hr⟩ := run_succ h
    obtain ⟨t, ht, hn⟩ := ih hr
    exact ⟨t, by rw [run_succ_eq hv, ht], hn⟩

/-- The lines of the procedures use decode to what they are. -/
theorem step_hostLine {s : State} {i : Instr} {rest : List Turn} (hs : s.script = hostLine i :: rest)
    (hi : decode (encode i) = .ok i) : step s = exec i { s with script := rest, agent := .host } := by
  simp [step, State.nextTurn, State.forAgent, hs, hostLine, hi]

theorem decode_rd (a : Addr) : decode (encode (.rd a 0)) = .ok (.rd a 0) := by
  simp [encode, decode, decodeBus_busWord]

theorem decode_wr (a : Addr) (v : Word) : decode (encode (.wr a v)) = .ok (.wr a v) := by
  simp [encode, decode, decodeBus_busWord]

/-- R58, R98: a read of OUT_DATA, and a read of another register while BUSY = 0. -/
theorem step_pop {s : State} {a : Addr} {rest : List Turn} (hs : s.script = hostLine (.rd a 0) :: rest)
    (ha : target a = .outData) :
    step s = .next { s with script := rest, agent := .host, outq := s.outq.tail, readLog := s.popOut.1 :: s.readLog } := by
  rw [step_hostLine hs (decode_rd a), exec_rd, busRead_outData ha]
  cases hq : s.outq <;> simp [State.popOut, hq]

theorem step_read_idle {s : State} {a : Addr} {rest : List Turn} (hs : s.script = hostLine (.rd a 0) :: rest)
    (hb : s.busy = false) (ha : target a ≠ .outData) :
    step s = .next { s with script := rest, agent := .host, readLog := readValue s (target a) :: s.readLog } := by
  rw [step_hostLine hs (decode_rd a), exec_rd, busRead_plain (s := { s with script := rest, agent := .host }) ha (.inl hb)]
  revert ha
  cases target a <;> intro ha <;> first | rfl | exact absurd rfl ha

theorem step_wr {s : State} {a : Addr} {v : Word} {rest : List Turn} {r : Target}
    (hs : s.script = hostLine (.wr a v) :: rest) (ha : target a = r) :
    step s = .next (writeTarget { s with script := rest, agent := .host } v r) := by
  rw [step_hostLine hs (decode_wr a v), exec_wr, busWrite_eq v ha]

/-- R91: a command line on an idle block is accepted. -/
theorem step_command_idle {s : State} {i : Instr} {w : Word} {rest : List Turn} (hs : s.script = hostLine i :: rest)
    (hb : s.busy = false) (hi : encode i = .cmd w) (hw : decodeCmd w = .ok i) (hr : i ≠ .softreset) :
    step s = .next ({ s with script := rest, agent := .host }.accept (cmdOpcode w)) := by
  rw [step_hostLine hs (by rw [hi]; exact hw), hostTurn_eq rfl hi,
    cmdWrite_legal (s := { s with script := rest, agent := .host }) hb hw hr]

/-- A core turn: nothing while BUSY = 0, the command of OP while BUSY = 1. -/
theorem step_core_idle {s : State} {rest : List Turn} (hs : s.script = .core :: rest) (hb : s.busy = false) :
    step s = .next { s with script := rest, agent := .core } := by
  simp [step, State.nextTurn, State.coreInstr, State.forAgent, hs, hb]

theorem step_core_busy {s : State} {i : Instr} {rest : List Turn} (hs : s.script = .core :: rest) (hb : s.busy = true)
    (hi : decodeCmd (s.op.setWidth 32) = .ok i) : step s = exec i { s with script := rest, agent := .core } := by
  simp only [step, State.nextTurn, State.coreInstr, State.forAgent, hs, hb, hi, List.head?_cons, Option.getD_some,
    if_true, List.tail_cons]

theorem step_core_decode {s : State} {rest : List Turn} (hs : s.script = .core :: rest) (hb : s.busy = true)
    (ho : s.op = opDecode) : step s = decodeStep { s with script := rest, agent := .core } :=
  step_core_busy (i := .decode) hs hb (by rw [ho]; decide)

/-! ### Popping while DECODE runs -/

theorem symbolsRead_length_cons (w : Word) (words : List Word) :
    (symbolsRead (w :: words)).length = (symbolsRead words).length + (if w.getLsbD 31 then 1 else 0) := by
  simp only [symbolsRead, List.length_reverse, List.length_map, List.filter_cons]
  split <;> simp

/-- Where the host stands while it pops: the words OUT_DATA has returned since `s₀`, with OUTQ, hold as many
symbols as DECODE has pushed; `k` payload bytes are still to be loaded and at most `m` bits of the loaded one to
be walked, or DECODE has completed. -/
structure Reading (s₀ s : State) (words : List Word) (k m : Nat) : Prop where
  inq : s.inq = []
  log : s.readLog = words ++ s₀.readLog
  count : s.outN = BitVec.ofNat 64 ((symbolsRead words).length + s.outq.length)
  freq : s.freq = s₀.freq
  bitcnt : s.bitcnt = s₀.bitcnt
  phase : (s.busy = true ∧ s.op = opDecode ∧ s.jobRem.toNat = k ∧ (s.err ≠ .noError ∨ s.dbuf.length ≤ m)) ∨
    (s.busy = false ∧ k = 0 ∧ s.outlen = s.outN)

/-- A core turn on an empty OUTQ: one bit is walked and at most one symbol pushed, or DECODE completes. -/
theorem reading_core_turn {s₀ s t : State} {words : List Word} {k m : Nat} {rest : List Turn}
    (hs : s.script = .core :: rest) (h : Reading s₀ s words k m) (hq : s.outq = []) (ht : step s = .next t) :
    t.script = rest ∧ Reading s₀ t words k (m - 1) ∧ t.outq.length ≤ 1 ∧ (k = 0 → m = 0 → t.busy = false) := by
  obtain ⟨hi, hl, hc, hf, hbc, ⟨hb, ho, hj, he⟩ | ⟨hb, hk, hn⟩⟩ := h
  · rw [step_core_decode hs hb ho, decodeStep, if_neg (by simp [decLoadEnabled, hi])] at ht
    split at ht
    · rename_i hw
      simp only [decWalkEnabled, Bool.and_eq_true, beq_iff_eq, Bool.not_eq_true', List.isEmpty_eq_false_iff] at hw
      have he' := he.resolve_left (fun hne => hne hw.1.1.2)
      unfold decWalk at ht
      split at ht
      · exact absurd ‹_› hw.1.2
      · rename_i bit bs hd
        have hm : bs.length ≤ m - 1 := by
          change s.dbuf = bit :: bs at hd
          rw [hd, List.length_cons] at he'
          omega
        have hm0 : m ≠ 0 := by
          change s.dbuf = bit :: bs at hd
          rw [hd, List.length_cons] at he'
          omega
        simp only at ht
        split at ht
        · cases ht
        · cases ht
          exact ⟨rfl, ⟨hi, hl, hc, hf, hbc, .inl ⟨hb, ho, hj, .inl (by simp)⟩⟩, by simp [hq], fun _ h0 => absurd h0 hm0⟩
        · cases ht
          refine ⟨rfl, ⟨hi, hl, ?_, hf, hbc, .inl ⟨hb, ho, hj, .inr hm⟩⟩, by simp [State.pushOut, hq],
            fun _ h0 => absurd h0 hm0⟩
          simp only [State.pushOut, hq, List.nil_append, List.length_singleton, hc]
          simp [BitVec.ofNat_add]
        · cases ht
          exact ⟨rfl, ⟨hi, hl, hc, hf, hbc, .inl ⟨hb, ho, hj, .inr hm⟩⟩, by simp [hq], fun _ h0 => absurd h0 hm0⟩
    · rename_i hw
      have he' : s.err ≠ .noError ∨ s.dbuf = [] := by
        simp only [decWalkEnabled, State.running, hb, ho, beq_self_eq_true, Bool.and_true, Bool.true_and,
          State.outRoom, hq, List.length_nil, Bool.and_eq_true, beq_iff_eq, Bool.not_eq_true',
          List.isEmpty_eq_false_iff, decide_eq_true_eq, not_and] at hw
        by_cases hne : s.err = .noError
        · refine .inr (Classical.byContradiction fun hd => hw ⟨hne, hd⟩ ?_)
          exact Depth.val_pos _
        · exact .inl hne
      split at ht
      · rename_i hdn
        cases ht
        simp only [decDoneEnabled, Bool.and_eq_true, beq_iff_eq] at hdn
        have hk : k = 0 := by
          rw [← hj, show s.jobRem = 0 from hdn.1.2]
          rfl
        unfold decDone
        simp only
        split <;> exact ⟨rfl, ⟨hi, hl, hc, hf, hbc, .inr ⟨rfl, hk, rfl⟩⟩, by simp [hq], fun _ _ => rfl⟩
      · rename_i hdn
        cases ht
        refine ⟨rfl, ⟨hi, hl, hc, hf, hbc, .inl ⟨hb, ho, hj, he'.imp_right (fun h => by simp [h])⟩⟩, by simp [hq],
          fun h0 _ => absurd ?_ hdn⟩
        have hz : s.jobRem = 0 := BitVec.eq_of_toNat_eq (by rw [hj, h0]; rfl)
        simp only [decDoneEnabled, State.running, hb, ho, hz, beq_self_eq_true, Bool.and_true, Bool.true_and,
          Bool.or_eq_true, bne_iff_ne, List.isEmpty_iff]
        exact he'
  · rw [step_core_idle hs hb] at ht
    cases ht
    exact ⟨rfl, ⟨hi, hl, hc, hf, hbc, .inr ⟨hb, hk, hn⟩⟩, by simp [hq], fun _ _ => hb⟩

/-- A read of OUT_DATA takes the symbol out of OUTQ into the words read. -/
theorem reading_pop {s₀ s t : State} {words : List Word} {k m : Nat} {rest : List Turn}
    (hs : s.script = hostLine (.rd 0x000B 0) :: rest) (h : Reading s₀ s words k m) (hq : s.outq.length ≤ 1)
    (ht : step s = .next t) :
    t.script = rest ∧ (∃ w, Reading s₀ t (w :: words) k m) ∧ t.outq = [] ∧ t.busy = s.busy := by
  obtain ⟨hi, hl, hc, hf, hbc, hp⟩ := h
  rw [step_pop hs target_outData] at ht
  cases ht
  cases hq' : s.outq with
  | nil =>
    refine ⟨rfl, ⟨_, hi, congrArg _ hl, ?_, hf, hbc, hp⟩, by simp, rfl⟩
    simpa [symbolsRead_length_cons, popOut_nil hq', hq'] using hc
  | cons b q =>
    rw [hq', List.length_cons] at hq
    obtain rfl : q = [] := List.eq_nil_of_length_eq_zero (by omega)
    refine ⟨rfl, ⟨_, hi, congrArg _ hl, ?_, hf, hbc, hp⟩, by simp, rfl⟩
    rw [symbolsRead_length_cons, popOut_cons hq', if_pos (by simp)]
    simpa [hq'] using hc

theorem reading_popTurns {s₀ s t : State} {words : List Word} {k m : Nat} {rest : List Turn}
    (hs : s.script = popTurns ++ rest) (h : Reading s₀ s words k m) (hq : s.outq = []) (ht : run 2 s = .next t) :
    t.script = rest ∧ (∃ w, Reading s₀ t (w :: words) k (m - 1)) ∧ t.outq = [] ∧ (k = 0 → m = 0 → t.busy = false) := by
  obtain ⟨u, hu, hr⟩ := run_succ ht
  obtain ⟨v, hv, hr⟩ := run_succ hr
  cases hr
  obtain ⟨hus, huR, huq, hub⟩ := reading_core_turn hs h hq hu
  obtain ⟨hts, htR, htq, htb⟩ := reading_pop hus huR huq hv
  exact ⟨hts, htR, htq, fun hk hm => htb.trans (hub hk hm)⟩

/-- `n` pops with a core turn before each. -/
theorem reading_pops {s₀ s t : State} {words : List Word} {k m : Nat} {rest : List Turn} (n : Nat)
    (hs : s.script = (List.replicate n popTurns).flatten ++ rest) (h : Reading s₀ s words k m) (hq : s.outq = [])
    (ht : run (List.replicate n popTurns).flatten.length s = .next t) :
    t.script = rest ∧ (∃ words', Reading s₀ t words' k (m - n)) ∧ t.outq = [] := by
  induction n generalizing s words m with
  | zero =>
    cases ht
    exact ⟨hs, ⟨words, h⟩, hq⟩
  | succ n ih =>
    rw [List.replicate_succ, List.flatten_cons, List.length_append] at ht
    rw [List.replicate_succ, List.flatten_cons, List.append_assoc] at hs
    obtain ⟨u, hu, hr⟩ := run_add ht
    obtain ⟨hus, ⟨w, huR⟩, huq, _⟩ := reading_popTurns hs h hq hu
    obtain ⟨hts, ⟨words', htR⟩, htq⟩ := ih hus huR huq hr
    exact ⟨hts, ⟨words', by rwa [show m - 1 - n = m - (n + 1) by omega] at htR⟩, htq⟩

/-- One payload byte is pushed, loaded, and its symbols popped. -/
theorem reading_payloadTurns {s₀ s t : State} {words : List Word} {k : Nat} {rest : List Turn} (b : Byte)
    (hs : s.script = payloadTurns b ++ rest) (h : Reading s₀ s words (k + 1) 0) (hq : s.outq = [])
    (ht : run (payloadTurns b).length s = .next t) :
    t.script = rest ∧ (∃ words', Reading s₀ t words' k 0) ∧ t.outq = [] := by
  obtain ⟨hi, hl, hc, hf, hbc, ⟨hb, ho, hj, he⟩ | ⟨_, hk, _⟩⟩ := h
  · obtain ⟨u, hu, hr⟩ := run_succ (n := 17) ht
    obtain ⟨v, hv, hp⟩ := run_succ (n := 16) hr
    rw [step_wr hs target_inData, writeTarget, pushIn_room _ (by simpa [hi] using Nat.lt_of_lt_of_le Nat.zero_lt_one (Depth.val_pos _))] at hu
    cases hu
    rw [step_core_decode (rest := (List.replicate 8 popTurns).flatten ++ rest) ?_ ?_ ?_, decodeStep, if_pos ?_, decLoad,
      consume_cons (b := (b.setWidth 32).extractLsb' 0 8) (q := []) _ (by simp [hi])] at hv
    · have hj' : (s.jobRem - 1).toNat = k := by
        rw [BitVec.toNat_sub]
        have := s.jobRem.isLt
        simp only [hj]
        simp
        omega
      have hR : Reading s₀ v words k 8 ∧ v.outq = [] ∧ v.script = (List.replicate 8 popTurns).flatten ++ rest := by
        split at hv
        · cases hv
          refine ⟨⟨rfl, hl, hc, hf, hbc, .inl ⟨hb, ho, hj', .inr ?_⟩⟩, hq, rfl⟩
          simp [loadByte, loadBits, bits]
        · cases hv
          exact ⟨⟨rfl, hl, hc, hf, hbc, .inl ⟨hb, ho, hj', .inl ‹_›⟩⟩, hq, rfl⟩
      exact reading_pops 8 hR.2.2 hR.1 hR.2.1 hp
    · have hz : s.jobRem ≠ 0 := by
        intro h0
        rw [h0] at hj
        simp at hj
      have he' : s.err ≠ .noError ∨ s.dbuf = [] := he.imp_right (fun h => List.eq_nil_of_length_eq_zero (by omega))
      simpa [decLoadEnabled, State.running, hb, ho, hi] using And.intro hz he'
    · rfl
    · exact hb
    · exact ho
  · omega

/-- The whole payload. -/
theorem reading_payload {s₀ s t : State} {words : List Word} {rest : List Turn} (payload : List Byte)
    (hs : s.script = payload.flatMap payloadTurns ++ rest) (h : Reading s₀ s words payload.length 0) (hq : s.outq = [])
    (ht : run (payload.flatMap payloadTurns).length s = .next t) :
    t.script = rest ∧ (∃ words', Reading s₀ t words' 0 0) ∧ t.outq = [] := by
  induction payload generalizing s words with
  | nil =>
    cases ht
    exact ⟨hs, ⟨words, h⟩, hq⟩
  | cons b payload ih =>
    rw [List.flatMap_cons, List.length_append] at ht
    rw [List.flatMap_cons, List.append_assoc] at hs
    obtain ⟨u, hu, hr⟩ := run_add ht
    obtain ⟨hus, ⟨w, huR⟩, huq⟩ := reading_payloadTurns b hs h hq hu
    exact ih hus huR huq hr

/-- R156, "CMD DECODE; PUSH payload bytes; POP until OUTLEN symbols are read; WAIT": after these turns the host
has read exactly OUTLEN symbols, WAIT has read BUSY = 0, and the last two words read are OUTLEN. -/
theorem decodeTurns_read_every_symbol {s t : State} {payload : List Byte} {rest : List Turn}
    (hs : s.script = decodeTurns payload ++ rest) (hb : s.busy = false) (hi : s.inq = []) (hq : s.outq = [])
    (hn : s.inlen.toNat = payload.length) (ht : run (decodeTurns payload).length s = .next t) :
    t.script = rest ∧ t.busy = false ∧ t.freq = s.freq ∧ t.bitcnt = s.bitcnt ∧ t.outq = [] ∧
      ∃ words, t.readLog = hi32 t.outlen :: lo32 t.outlen :: t.statusWord :: words ++ s.readLog ∧
        t.outlen = BitVec.ofNat 64 (symbolsRead words).length := by
  rw [decodeTurns, List.length_append, List.length_append, List.length_append] at ht
  simp only [decodeTurns, List.append_assoc] at hs
  obtain ⟨u, hu, ht⟩ := run_add ht
  obtain ⟨v, hv, hu⟩ := run_add hu
  obtain ⟨w, hw, hv⟩ := run_add hv
  obtain ⟨_, hw, h0⟩ := run_succ hw
  cases h0
  rw [step_command_idle (i := .decode) hs hb rfl (by decide) (by decide)] at hw
  have hR : Reading s w [] payload.length 0 ∧ w.outq = [] ∧
      w.script = payload.flatMap payloadTurns ++
        (popTurns ++ ([waitLine, hostLine (.rd 0x0008 0), hostLine (.rd 0x0009 0)] ++ rest)) := by
    cases hw
    rw [show cmdOpcode 0x00000006#32 = opDecode by decide, accept_decode]
    unfold acceptDecode
    simp only
    split
    · exact ⟨⟨hi, rfl, by simp [State.start, hq, symbolsRead], rfl, rfl, .inl ⟨rfl, rfl, hn, .inr (by simp)⟩⟩, hq, rfl⟩
    · split <;>
        exact ⟨⟨hi, rfl, by simp [State.start, hq, symbolsRead], rfl, rfl, .inl ⟨rfl, rfl, hn, .inr (by simp)⟩⟩, hq, rfl⟩
  obtain ⟨hvs, ⟨words, hvR⟩, hvq⟩ := reading_payload payload hR.2.2 hR.1 hR.2.1 hv
  obtain ⟨hus, ⟨x, huR⟩, huq, hub⟩ := reading_popTurns hvs hvR hvq hu
  obtain ⟨hi, hl, hc, hf, hbc, hp⟩ := huR
  have hb := hub rfl rfl
  have ho := (hp.resolve_left (by simp [hb])).2.2
  obtain ⟨a, ha, ht⟩ := run_succ (n := 2) ht
  obtain ⟨b, hb', ht⟩ := run_succ ht
  obtain ⟨c, hc', ht⟩ := run_succ ht
  cases ht
  rw [step_read_idle hus hb (by decide)] at ha
  cases ha
  rw [step_read_idle (a := 0x0008) (rest := [hostLine (.rd 0x0009 0)] ++ rest) rfl (by exact hb) (by decide)] at hb'
  cases hb'
  rw [step_read_idle (a := 0x0009) (rest := rest) rfl (by exact hb) (by decide)] at hc'
  cases hc'
  refine ⟨rfl, hb, hf, hbc, huq, x :: words, ?_, ?_⟩
  · change hi32 u.outlen :: lo32 u.outlen :: u.statusWord :: u.readLog = _
    rw [hl]
    rfl
  · simpa [huq] using ho.trans hc

/-! ### Loading the container -/

/-- What CLRFREQ and BUILD with their WAIT leave alike: the block is idle again, and WAIT has read STATUS so. -/
structure Waited (s t : State) (rest : List Turn) : Prop where
  script : t.script = rest
  busy : t.busy = false
  inq : t.inq = s.inq
  outq : t.outq = s.outq
  log : t.readLog = t.statusWord :: s.readLog

/-- A command whose one core step `g` completes it and leaves the FIFOs alone, and its WAIT. -/
theorem run_command_wait {s t : State} {i : Instr} {w : Word} {rest : List Turn} (g : State → State)
    (hs : s.script = commandTurns i ++ rest) (hb : s.busy = false) (hi : encode i = .cmd w)
    (hw : decodeCmd w = .ok i) (hr : i ≠ .softreset) (ho : decodeCmd ((cmdOpcode w).setWidth 32) = .ok i)
    (hg : ∀ u : State, u.agent = .core → u.busy = true → u.op = cmdOpcode w → exec i u = .next (g u))
    (hk : ∀ u : State, (g u).busy = false ∧ (g u).script = u.script ∧ (g u).inq = u.inq ∧ (g u).outq = u.outq ∧
      (g u).readLog = u.readLog)
    (ht : run 3 s = .next t) : Waited s t rest ∧ ∃ u : State, u.freq = s.freq ∧ t.freq = (g u).freq := by
  obtain ⟨a, ha, ht⟩ := run_succ ht
  obtain ⟨b, hb', ht⟩ := run_succ ht
  obtain ⟨c, hc, ht⟩ := run_succ ht
  cases ht
  rw [step_command_idle hs hb hi hw hr] at ha
  cases ha
  rw [step_core_busy (i := i) (rest := waitLine :: rest) (by simp) (by simp) (by simpa using ho),
    hg _ rfl (by simp) (by simp)] at hb'
  obtain ⟨u, hu, hf, h1, h2, h3, h4⟩ : ∃ u : State, g u = b ∧ u.freq = s.freq ∧ u.script = waitLine :: rest ∧
      u.inq = s.inq ∧ u.outq = s.outq ∧ u.readLog = s.readLog :=
    ⟨_, Host.Outcome.next.inj hb', by simp, rfl, by simp, by simp, by simp⟩
  obtain ⟨k1, k2, k3, k4, k5⟩ := hk u
  rw [hu] at k1 k2 k3 k4 k5
  rw [step_read_idle (a := 0x0002) (k2.trans h1) k1 (by decide)] at hc
  cases hc
  exact ⟨⟨rfl, k1, k3.trans h2, k4.trans h3, congrArg _ (k5.trans h4)⟩, u, hf, by rw [hu]⟩

theorem run_clrfreq_wait {s t : State} {rest : List Turn}
    (hs : s.script = commandTurns .clrfreq ++ rest) (hb : s.busy = false) (ht : run 3 s = .next t) :
    Waited s t rest ∧ t.freq = Vector.replicate 256 0 := by
  obtain ⟨h, u, _, hu⟩ := run_command_wait clrfreqExec hs hb rfl (by decide) (by decide) (by decide)
    (fun u ha hb ho => by simp [exec, execClrfreq, byTurn, ha, clrfreqExecEnabled, State.running, hb, ho, cmdOpcode])
    (fun _ => ⟨rfl, rfl, rfl, rfl, rfl⟩) ht
  exact ⟨h, hu⟩

theorem run_build_wait {s t : State} {rest : List Turn}
    (hs : s.script = commandTurns .build ++ rest) (hb : s.busy = false) (ht : run 3 s = .next t) :
    Waited s t rest ∧ t.freq = s.freq := by
  obtain ⟨h, u, hf, hu⟩ := run_command_wait buildExec hs hb rfl (by decide) (by decide) (by decide)
    (fun u ha hb ho => by simp [exec, execBuild, byTurn, ha, buildExecEnabled, State.running, hb, ho, cmdOpcode])
    (fun u => by unfold buildExec; simp only; split <;> exact ⟨rfl, rfl, rfl, rfl, rfl⟩) ht
  refine ⟨h, hu.trans (Eq.trans ?_ hf)⟩
  unfold buildExec
  simp only
  split <;> rfl

/-- The FREQ table after the writes of some entries. -/
def writeEntries (freq : Vector (BitVec 32) 256) (entries : List (Byte × BitVec 32)) : Vector (BitVec 32) 256 :=
  entries.foldl (fun f e => f.set e.1.toNat e.2 e.1.isLt) freq

/-- R57, R160: `loadEntries` on an idle block writes them all. -/
theorem loadEntries_freq (s : State) (entries : List (Byte × BitVec 32)) (hb : s.busy = false) :
    (loadEntries s entries).freq = writeEntries s.freq entries ∧ (loadEntries s entries).busy = false := by
  induction entries generalizing s with
  | nil => exact ⟨rfl, hb⟩
  | cons e entries ih =>
    have h : s.busWrite (freqAddr e.1) e.2 = s.writeFreq ⟨e.1.toNat, e.1.isLt⟩ e.2 := by
      rw [freqAddr, busWrite_eq _ (target_freq e.1), writeTarget_freq, if_neg (by simp [hb])]
    simp only [loadEntries, List.foldl_cons, h] at ih ⊢
    exact ih _ hb

/-- R156, R160: the FREQ writes. -/
theorem run_entries {s t : State} {rest : List Turn} (entries : List (Byte × BitVec 32))
    (hs : s.script = entries.map (fun e => hostLine (.wr (freqAddr e.1) e.2)) ++ rest) (hb : s.busy = false)
    (ht : run (entries.map (fun e => hostLine (.wr (freqAddr e.1) e.2))).length s = .next t) :
    t.script = rest ∧ t.busy = false ∧ t.inq = s.inq ∧ t.outq = s.outq ∧ t.readLog = s.readLog ∧
      t.freq = writeEntries s.freq entries := by
  induction entries generalizing s with
  | nil =>
    cases ht
    exact ⟨hs, hb, rfl, rfl, rfl, rfl⟩
  | cons e entries ih =>
    obtain ⟨u, hu, hr⟩ := run_succ (n := (entries.map _).length) ht
    rw [step_wr hs (target_freq e.1), writeTarget_freq, if_neg (by simp [hb])] at hu
    have hu := Host.Outcome.next.inj hu
    obtain ⟨h1, h2, h3, h4, h5, h6⟩ := ih (s := u) (by rw [← hu]; rfl) (by rw [← hu]; exact hb) hr
    rw [← hu] at h3 h4 h5 h6
    exact ⟨h1, h2, h3, h4, h5, h6⟩

theorem setHi32_setLo32 (x y : BitVec 64) : setHi32 (setLo32 x (lo32 y)) (hi32 y) = y := by
  have := y.isLt
  apply BitVec.eq_of_toNat_eq
  rw [setHi32_toNat, setLo32_toNat, hi32_toNat, lo32_toNat]
  omega

theorem step_wr_eq {s t : State} {a : Addr} {v : Word} {rest : List Turn} {r : Target}
    (hs : s.script = hostLine (.wr a v) :: rest) (ha : target a = r) (ht : step s = .next t) :
    t = writeTarget { s with script := rest, agent := .host } v r :=
  (Host.Outcome.next.inj ((step_wr hs ha).symm.trans ht)).symm

/-- R82: the lengths are written whole. -/
theorem run_lengths {s t : State} {bitCount : BitVec 64} {n : Nat} {rest : List Turn}
    (hs : s.script = lengthTurns bitCount n ++ rest) (hb : s.busy = false) (ht : run 4 s = .next t) :
    t = { s with script := rest, agent := .host, bitcnt := bitCount, inlen := BitVec.ofNat 64 n } := by
  obtain ⟨e, he, ht⟩ := run_succ ht
  obtain ⟨f, hf, ht⟩ := run_succ ht
  obtain ⟨g, hg, ht⟩ := run_succ ht
  obtain ⟨h, hh, ht⟩ := run_succ ht
  have ht := Host.Outcome.next.inj ht
  have he := step_wr_eq hs target_bitcntLo he
  simp only [writeTarget, hb, Bool.false_eq_true, if_false] at he
  have hf := step_wr_eq (a := 0x0007) (by rw [he]; rfl) target_bitcntHi hf
  simp only [he, writeTarget, Bool.false_eq_true, if_false, setHi32_setLo32] at hf
  have hg := step_wr_eq (a := 0x0004) (by rw [hf]; rfl) target_inlenLo hg
  simp only [hf, writeTarget, Bool.false_eq_true, if_false] at hg
  have hh := step_wr_eq (a := 0x0005) (by rw [hg]; rfl) target_inlenHi hh
  simp only [hg, writeTarget, Bool.false_eq_true, if_false, setHi32_setLo32] at hh
  rw [← ht, hh, hb]
  rfl

/-- R156: the whole script, from an idle block whose FIFOs are empty. FREQ and BITCNT hold the container's, both
first WAITs have read an idle block, and the host has read exactly OUTLEN symbols. -/
theorem restoreScript_restores {s t : State} {c : Container} {rest : List Turn}
    (hs : s.script = restoreScript c ++ rest) (hb : s.busy = false) (hi : s.inq = []) (hq : s.outq = [])
    (hn : c.payload.length < 2 ^ 64) (ht : run (restoreScript c).length s = .next t) :
    t.script = rest ∧ t.busy = false ∧ t.freq = writeEntries (Vector.replicate 256 0) c.entries ∧
      t.bitcnt = c.bitCount ∧ t.outq = [] ∧
      ∃ (words : List Word) (a b : State), a.busy = false ∧ b.busy = false ∧
        t.readLog = hi32 t.outlen :: lo32 t.outlen :: t.statusWord :: words ++ b.statusWord :: a.statusWord :: s.readLog ∧
        t.outlen = BitVec.ofNat 64 (symbolsRead words).length := by
  rw [restoreScript, List.length_append] at ht
  rw [restoreScript, List.append_assoc] at hs
  obtain ⟨z, hz, ht⟩ := run_add ht
  rw [loadTurns, List.length_append, List.length_append, List.length_append] at hz
  simp only [loadTurns, List.append_assoc] at hs
  obtain ⟨d, hd, hz⟩ := run_add hz
  obtain ⟨b, hb', hd⟩ := run_add hd
  obtain ⟨a, ha, hb'⟩ := run_add hb'
  obtain ⟨⟨has, hab, hai, haq, hal⟩, haf⟩ := run_clrfreq_wait hs hb ha
  obtain ⟨hbs, hbb, hbi, hbq, hbl, hbf⟩ := run_entries c.entries has hab hb'
  obtain ⟨⟨hds, hdb, hdi, hdq, hdl⟩, hdf⟩ := run_build_wait hbs hbb hd
  have hz := run_lengths hds hdb hz
  have hn' : (BitVec.ofNat 64 c.payload.length).toNat = c.payload.length := by
    rw [BitVec.toNat_ofNat, Nat.mod_eq_of_lt hn]
  obtain ⟨h1, h2, h3, h4, h5, words, h6, h7⟩ :=
    decodeTurns_read_every_symbol (s := z) (rest := rest) (by rw [hz]) (by rw [hz]; exact hdb)
      (by rw [hz]; exact hdi.trans (hbi.trans (hai.trans hi))) (by rw [hz]; exact hdq.trans (hbq.trans (haq.trans hq)))
      (by rw [hz]; exact hn') ht
  rw [hz] at h3 h4 h6
  refine ⟨h1, h2, h3.trans (hdf.trans (hbf.trans (by rw [haf]))), h4, h5, words, a, d, hab, hdb, ?_, h7⟩
  rw [h6]
  simp only [hdl, hbl, hal]

end Sys2Proof.Machine
end

