-- ==== Sys2Proof/Laws/PerInstr.lean ====
section
/-! SUPPORT. The family RoundTrip, one lemma for each constructor of `Instr`: the encoding of a well-formed
instruction decodes to it (30_encoding.md R75, R78). -/

namespace Sys2Proof.Laws.RoundTrip

/-- Decoding the encoding of a well-formed instruction gives it back. -/
def Statement (i : Instr) : Prop := i.wellFormed = true → decode (encode i) = .ok i

theorem nop : Statement .nop := fun _ => rfl
theorem clrfreq : Statement .clrfreq := fun _ => rfl
theorem count : Statement .count := fun _ => rfl
theorem build : Statement .build := fun _ => rfl
theorem gencodes : Statement .gencodes := fun _ => rfl
theorem encode : Statement .encode := fun _ => rfl
theorem decode : Statement .decode := fun _ => rfl
theorem flush : Statement .flush := fun _ => rfl
theorem softreset : Statement .softreset := fun _ => rfl

theorem rd (addr : Addr) (data : Word) : Statement (.rd addr data) := by
  intro h
  have hd : data = 0#32 := by simpa [Instr.wellFormed] using h
  simp [Sys2Proof.encode, Sys2Proof.decode, decodeBus_busWord, hd]

theorem wr (addr : Addr) (data : Word) : Statement (.wr addr data) := by
  intro _
  simp [Sys2Proof.encode, Sys2Proof.decode, decodeBus_busWord]

end Sys2Proof.Laws.RoundTrip
end

