-- ==== Sys2Proof/Laws/Sound.lean ====
section
/-! SUPPORT. What each operation of the host and each core step makes of a sound state, operation by operation. -/

namespace Sys2Proof.Machine

theorem nsym_zero : nsym (Vector.replicate 256 0#32) = 0 := by
  unfold nsym; rw [Vector.toList_replicate, List.countP_replicate]; simp

theorem built_zero : Arena.zero = buildTree (Vector.replicate 256 0) := (buildTree_none _ nsym_zero).symm

theorem zero_codes (b : Byte) : (CodeTable.zero.codeOf b).toNat < 2 ^ (CodeTable.zero.lenOf b).toNat := by
  simp [CodeTable.zero, CodeTable.codeOf, CodeTable.lenOf]

/-- The fields a sound state may have at any value, and the FIFOs within their bounds. -/
theorem Inv.frame {s t : State} (h : Inv s) (fifo : FifoBounds t)
    (he : t =
      { s with
        inq := t.inq, outq := t.outq, inDepth := t.inDepth, outDepth := t.outDepth, cmdDropped := t.cmdDropped,
        inOvf := t.inOvf, irqEn := t.irqEn, inlen := t.inlen, bitcnt := t.bitcnt, outlen := t.outlen,
        agent := t.agent, script := t.script, readLog := t.readLog, draws := t.draws }) : Inv t := by
  refine ⟨fifo, ?_, ?_, ?_, ?_, ?_⟩ <;> rw [he]
  · exact ⟨h.buffers.pb_le, h.buffers.dbuf_le⟩
  · exact h.codes
  · exact ⟨h.job.op_le, h.job.not_done, h.job.lastcmd_eq, h.job.err_of⟩
  · exact ⟨h.tree.built, h.tree.tree_valid, h.tree.codes_valid, h.tree.freq_writer, h.tree.codes_writer, h.tree.encoder⟩
  · exact ⟨h.decoder.position, h.decoder.remaining, h.decoder.has_tree⟩

/-- A state that is idle is sound as soon as its FIFOs, buffers and tables are. -/
theorem inv_idle {t : State} (hb : t.busy = false) (fifo : FifoBounds t) (buffers : BufferBounds t)
    (codes : CodesFit t) (hop : t.op.toNat ≤ 7) (built : ∃ f, t.arena = buildTree f)
    (tv : t.treeValid = true → t.arena = buildTree t.freq ∧ nsym t.freq ≠ 0)
    (cv : t.codesValid = true → t.treeValid = true ∧ genCodes t.arena = .ok t.codes) : Inv t :=
  ⟨fifo, buffers, codes, ⟨hop, by simp [hb], by simp [hb], by simp [hb]⟩,
    ⟨built, tv, cv, by simp [hb], by simp [hb], by simp [hb]⟩, ⟨by simp [hb], by simp [hb], by simp [hb]⟩⟩

/-- R200: the reset value of the block is sound, whatever the model's own fields are. -/
theorem inv_softreset (s : State) : Inv s.softreset :=
  inv_idle rfl ⟨Nat.zero_le _, Nat.zero_le _⟩ ⟨Nat.zero_le _, Nat.zero_le _⟩ zero_codes (Nat.zero_le _)
    ⟨_, built_zero⟩ (fun h => Bool.noConfusion h) (fun h => Bool.noConfusion h)

theorem inv_drop {s : State} (h : Inv s) : Inv s.drop := h.frame ⟨h.fifo.inq_le, h.fifo.outq_le⟩ rfl

theorem inv_refuse {s : State} (h : Inv s) (hb : s.busy = false) (w) : Inv (s.refuse w) :=
  inv_idle hb ⟨h.1.1, h.1.2⟩ ⟨h.2.1, h.2.2⟩ h.3 h.4.1 h.5.1 h.5.2 h.5.3

theorem inv_complete {s : State} (h : Inv s) : Inv s.complete :=
  inv_idle rfl ⟨h.1.1, h.1.2⟩ ⟨h.2.1, h.2.2⟩ h.3 h.4.1 h.5.1 h.5.2 h.5.3

theorem op_cases (op : BitVec 4) (h : op.toNat ≤ 7) : 
    op = opNop ∨ op = opClrfreq ∨ op = opCount ∨ op = opBuild ∨ op = opGencodes ∨ op = opEncode ∨ op = opDecode ∨ op = opFlush := by
  revert op; decide

theorem tree_root (s : State) (h : Inv s) : ∃ n, s.arena.nodeAt s.arena.root = some n ∧ n.isLeaf = false := by
  obtain ⟨f, hf⟩ := h.5.1
  rw [hf]; exact buildTree_root_inner f

/-- A running command is no other command. -/
theorem otherOp {s : State} {op op' : BitVec 4} (h : s.op = op) (hne : op ≠ op') {P : Prop} (_ : s.busy = true)
    (h' : s.op = op') : P :=
  absurd (h ▸ h') hne

theorem otherOps {s : State} {op a b d : BitVec 4} (h : s.op = op) (hne : ¬(op = a ∨ op = b ∨ op = d)) {P : Prop}
    (_ : s.busy = true) (h' : s.op = a ∨ s.op = b ∨ s.op = d) : P :=
  absurd (h ▸ h') hne

/-- A command just accepted that is no ENCODE and no DECODE: what soundness asks of it. -/
theorem inv_started {t : State} {op : BitVec 4} (ho : t.op = op) (hop : op.toNat ≤ 7) (fifo : FifoBounds t)
    (buffers : BufferBounds t) (codes : CodesFit t) (built : ∃ f, t.arena = buildTree f)
    (tv : t.treeValid = true → t.arena = buildTree t.freq ∧ nsym t.freq ≠ 0)
    (cv : t.codesValid = true → t.treeValid = true ∧ genCodes t.arena = .ok t.codes)
    (hd : t.done = false) (hl : t.lastcmd = op) (he : t.err = .noError)
    (fw : op = opClrfreq ∨ op = opCount ∨ op = opBuild → t.treeValid = false ∧ t.codesValid = false)
    (cw : op = opGencodes → t.codesValid = false) (ne : op ≠ opEncode) (nd : op ≠ opDecode) : Inv t := by
  subst ho
  exact
    ⟨fifo, buffers, codes, ⟨hop, fun _ => hd, fun _ => hl, fun _ => by rw [he]; rfl⟩,
      ⟨built, tv, cv, fun _ => fw, fun _ => cw, fun _ h => absurd h ne⟩,
      ⟨fun _ h => absurd h nd, fun _ h => absurd h nd, fun _ h => absurd h nd⟩⟩

/-- R130: soundness of an accepted ENCODE. -/
theorem inv_acceptEncode {s : State} (h : Inv s) : Inv (s.accept opEncode) := by
  have opLe7 : opEncode.toNat ≤ 7 := by decide
  rw [accept_encode]
  unfold acceptEncode
  simp only
  split
  · exact
      ⟨⟨h.fifo.inq_le, h.fifo.outq_le⟩, ⟨Nat.zero_le _, h.buffers.dbuf_le⟩, h.codes,
        ⟨opLe7, fun _ => rfl, fun _ => rfl, fun _ => rfl⟩,
        ⟨h.tree.built, h.tree.tree_valid, h.tree.codes_valid, otherOps (op := opEncode) rfl (by decide),
          otherOp (op := opEncode) rfl (by decide), fun _ _ he => by cases he⟩,
        ⟨otherOp (op := opEncode) rfl (by decide), otherOp (op := opEncode) rfl (by decide),
          otherOp (op := opEncode) rfl (by decide)⟩⟩
  · rename_i hc
    refine
      ⟨⟨h.fifo.inq_le, h.fifo.outq_le⟩, ⟨Nat.zero_le _, h.buffers.dbuf_le⟩, h.codes,
        ⟨opLe7, fun _ => rfl, fun _ => rfl, fun _ => rfl⟩,
        ⟨h.tree.built, h.tree.tree_valid, h.tree.codes_valid, otherOps (op := opEncode) rfl (by decide),
          otherOp (op := opEncode) rfl (by decide), ?_⟩,
        ⟨otherOp (op := opEncode) rfl (by decide), otherOp (op := opEncode) rfl (by decide),
          otherOp (op := opEncode) rfl (by decide)⟩⟩
    intro _ _ _ hj
    by_contra hn
    exact hc ⟨hj, by simpa using hn⟩

/-- R140: soundness of an accepted DECODE. -/
theorem inv_acceptDecode {s : State} (h : Inv s) : Inv (s.accept opDecode) := by
  have opLe7 : opDecode.toNat ≤ 7 := by decide
  have hr := tree_root s h
  have other {t : State} (ht : t.op = opDecode) (h1 : t.arena = s.arena) (h2 : t.treeValid = s.treeValid)
      (h3 : t.codesValid = s.codesValid) (h4 : t.codes = s.codes) (h5 : t.freq = s.freq) : TreeConsistent t :=
    ⟨by rw [h1]; exact h.tree.built, by rw [h1, h2, h5]; exact h.tree.tree_valid,
      by rw [h1, h2, h3, h4]; exact h.tree.codes_valid, otherOps ht (by decide), otherOp ht (by decide),
      otherOp ht (by decide)⟩
  rw [accept_decode]
  unfold acceptDecode
  simp only
  split
  · refine
      ⟨⟨h.fifo.inq_le, h.fifo.outq_le⟩, ⟨h.buffers.pb_le, Nat.zero_le _⟩, h.codes,
        ⟨opLe7, fun _ => rfl, fun _ => rfl, fun _ => rfl⟩, other rfl rfl rfl rfl rfl rfl,
        ⟨fun _ _ => hr, ?_, ?_⟩⟩
    all_goals
      intro _ _ he
      cases he
  · rename_i hl
    split
    · refine
        ⟨⟨h.fifo.inq_le, h.fifo.outq_le⟩, ⟨h.buffers.pb_le, Nat.zero_le _⟩, h.codes,
          ⟨opLe7, fun _ => rfl, fun _ => rfl, fun _ => rfl⟩, other rfl rfl rfl rfl rfl rfl,
          ⟨fun _ _ => hr, ?_, ?_⟩⟩
      all_goals
        intro _ _ he
        cases he
    · rename_i hc
      refine
        ⟨⟨h.fifo.inq_le, h.fifo.outq_le⟩, ⟨h.buffers.pb_le, Nat.zero_le _⟩, h.codes,
          ⟨opLe7, fun _ => rfl, fun _ => rfl, fun _ => rfl⟩, other rfl rfl rfl rfl rfl rfl,
          ⟨fun _ _ => hr, fun _ _ _ => ?_, fun _ _ _ hd => ?_⟩⟩
      · by_contra hn
        exact hl hn
      · by_contra hn
        rcases hd with hd | hd
        · exact hc ⟨hd, by simpa using hn⟩
        · exact hd rfl

/-- R91: soundness of an accepted command. -/
theorem inv_accept {s : State} (h : Inv s) (op : BitVec 4) (hop : op.toNat ≤ 7) : Inv (s.accept op) := by
  have f : FifoBounds s := h.fifo
  have b : BufferBounds s := h.buffers
  have c' := h.codes
  have t1 := h.tree.built
  have t2 := h.tree.tree_valid
  have t3 := h.tree.codes_valid
  rcases op_cases op hop with rfl | rfl | rfl | rfl | rfl | rfl | rfl | rfl
  · exact inv_started (op := opNop) rfl hop ⟨f.1, f.2⟩ ⟨b.1, b.2⟩ c' t1 t2 t3 rfl rfl rfl (fun h => absurd h (by decide))
      (fun h => absurd h (by decide)) (by decide) (by decide)
  · exact inv_started (op := opClrfreq) rfl hop ⟨f.1, f.2⟩ ⟨b.1, b.2⟩ c' t1 (fun h => Bool.noConfusion h)
      (fun h => Bool.noConfusion h) rfl rfl rfl (fun _ => ⟨rfl, rfl⟩)
      (fun h => absurd h (by decide)) (by decide) (by decide)
  · exact inv_started (op := opCount) rfl hop ⟨f.1, f.2⟩ ⟨b.1, b.2⟩ c' t1 (fun h => Bool.noConfusion h)
      (fun h => Bool.noConfusion h) rfl rfl rfl (fun _ => ⟨rfl, rfl⟩)
      (fun h => absurd h (by decide)) (by decide) (by decide)
  · exact inv_started (op := opBuild) rfl hop ⟨f.1, f.2⟩ ⟨b.1, b.2⟩ c' t1 (fun h => Bool.noConfusion h)
      (fun h => Bool.noConfusion h) rfl rfl rfl (fun _ => ⟨rfl, rfl⟩)
      (fun h => absurd h (by decide)) (by decide) (by decide)
  · exact inv_started (op := opGencodes) rfl hop ⟨f.1, f.2⟩ ⟨b.1, b.2⟩ c' t1 t2 (fun h => Bool.noConfusion h)
      rfl rfl rfl (fun h => absurd h (by decide)) (fun _ => rfl) (by decide) (by decide)
  · exact inv_acceptEncode h
  · exact inv_acceptDecode h
  · exact inv_started (op := opFlush) rfl hop ⟨f.1, f.2⟩ ⟨b.1, b.2⟩ c' t1 t2 t3 rfl rfl rfl (fun h => absurd h (by decide))
      (fun h => absurd h (by decide)) (by decide) (by decide)

theorem inv_cmdWrite {s : State} (h : Inv s) (w) : Inv (s.cmdWrite w) := by
  rcases cmdWrite_cases s w with e | ⟨_, e⟩ | ⟨hb, e⟩ | ⟨_, op, ho, e⟩ <;> rw [e]
  · exact inv_softreset s
  · exact inv_drop h
  · exact inv_refuse h hb w
  · exact inv_accept h op ho

theorem inv_busWrite {s : State} (h : Inv s) (a v) : Inv (s.busWrite a v) := by
  unfold State.busWrite
  cases target a <;> simp only [writeTarget] <;> try exact h
  · exact inv_cmdWrite h v
  · refine ⟨⟨h.1.1, h.1.2⟩, ⟨h.2.1, h.2.2⟩, h.3, ⟨h.4.1, fun hb => ?_, h.4.3, h.4.4⟩,
      ⟨h.5.1, h.5.2, h.5.3, h.5.4, h.5.5, h.5.6⟩, ⟨h.6.1, h.6.2, h.6.3⟩⟩
    have := h.4.2 hb
    simp [State.clearStatus, this]
  · exact h.frame ⟨h.1.1, h.1.2⟩ rfl
  iterate 4
    split
    · exact h
    · rename_i hb
      exact inv_idle (by simpa using hb) ⟨h.1.1, h.1.2⟩ ⟨h.2.1, h.2.2⟩ h.3 h.4.1 h.5.1 h.5.2 h.5.3
  · by_cases hr : s.inq.length < s.inDepth.val
    · rw [pushIn_room _ hr]
      exact h.frame ⟨by simp; omega, h.1.2⟩ rfl
    · rw [pushIn_full _ hr]
      exact h.frame ⟨h.1.1, h.1.2⟩ rfl
  · split
    · exact h
    · rename_i hb
      refine inv_idle (by simpa [State.writeFreq, State.invalidate] using hb) ⟨h.1.1, h.1.2⟩
        ⟨h.2.1, h.2.2⟩ h.3 h.4.1 h.5.1 ?_ ?_ <;> intro hc <;> cases hc

theorem inv_busRead {s : State} (h : Inv s) (a) : Inv (s.busRead a).2 := by
  rcases busRead_state_cases s a with e | ⟨_, b, q, hq, e⟩ | e <;> rw [e]
  · exact h
  · refine h.frame ⟨h.1.1, ?_⟩ rfl
    have := h.1.2; rw [hq] at this; simp at this ⊢; omega
  · exact h.frame ⟨h.1.1, h.1.2⟩ rfl
theorem running_iff (s : State) (op) : s.running op = true ↔ s.busy = true ∧ s.op = op := by simp [State.running]

theorem inv_buildExec {s : State} (h : Inv s) (hb : s.busy = true) (ho : s.op = opBuild) : Inv (buildExec s) := by
  have hv := h.5.4 hb (.inr (.inr ho))
  unfold buildExec
  simp only
  split
  · rename_i h0
    refine inv_idle rfl ⟨h.1.1, h.1.2⟩ ⟨h.2.1, h.2.2⟩ h.3 h.4.1 ⟨_, rfl⟩ ?_ ?_
    · intro ht; have ht' : s.treeValid = true := ht; rw [hv.1] at ht'; cases ht'
    · intro ht; have ht' : s.codesValid = true := ht; rw [hv.2] at ht'; cases ht'
  · rename_i h0
    refine inv_idle rfl ⟨h.1.1, h.1.2⟩ ⟨h.2.1, h.2.2⟩ h.3 h.4.1 ⟨_, rfl⟩ (fun _ => ⟨rfl, h0⟩) ?_
    intro ht; have ht' : s.codesValid = true := ht; rw [hv.2] at ht'; cases ht'

/-- R34, R121: every code the traversal records fits its length. -/
theorem walk_fit (a : Arena) (fuel : Nat) : ∀ i path t t', path.length + fuel ≤ 256 →
    (∀ b : Byte, (t.codeOf b).toNat < 2 ^ (t.lenOf b).toNat) → walk a fuel i path t = .ok t' →
    ∀ b : Byte, (t'.codeOf b).toNat < 2 ^ (t'.lenOf b).toNat := by
  induction fuel with
  | zero => intro i p t t' _ _ h; simp [walk] at h
  | succ n ih =>
    intro i p t t' hp ht h
    simp only [walk] at h
    cases hn : a.nodeAt i with
    | none => simp [hn] at h
    | some nd =>
      simp only [hn] at h
      by_cases hl : nd.isLeaf = true
      · simp [hl] at h
        subst h
        intro b
        simp only [CodeTable.codeOf, CodeTable.lenOf, CodeTable.record, Vector.getElem_set]
        split
        · have := num_lt p
          have h1 : p.length % 2^8 = p.length := Nat.mod_eq_of_lt (by omega)
          have h2 : num p < 2^256 := lt_of_lt_of_le this (Nat.pow_le_pow_right (by norm_num) (by omega))
          simp only [BitVec.toNat_ofNat, h1]
          rw [Nat.mod_eq_of_lt h2]; exact this
        · exact ht b
      · simp only [hl] at h
        simp only [Bool.false_eq_true, if_false] at h
        cases hw : (if nd.left = nullIdx then Except.ok t else walk a n nd.left (p ++ [false]) t) with
        | error f => simp [hw] at h
        | ok t1 =>
          simp only [hw] at h
          have h1 : ∀ b : Byte, (t1.codeOf b).toNat < 2 ^ (t1.lenOf b).toNat := by
            split at hw
            · cases hw; exact ht
            · exact ih _ _ _ _ (by simp; omega) ht hw
          split at h
          · cases h; exact h1
          · exact ih _ _ _ _ (by simp; omega) h1 h

theorem inv_gencodesExec {s t : State} (h : Inv s) (he : gencodesExec s = .next t) : Inv t := by
  unfold gencodesExec at he
  split at he
  · cases he
    exact inv_idle rfl ⟨h.1.1, h.1.2⟩ ⟨h.2.1, h.2.2⟩ h.3 h.4.1 h.5.1 h.5.2 h.5.3
  · rename_i htv
    split at he
    · cases he
    · rename_i ct hg
      cases he
      refine inv_idle rfl ⟨h.1.1, h.1.2⟩ ⟨h.2.1, h.2.2⟩ ?_ h.4.1 h.5.1 h.5.2 (fun _ => ⟨by simpa using htv, hg⟩)
      exact walk_fit _ _ _ _ _ _ (by simp) zero_codes hg

/-- A core step that leaves the job, the tables and the valid flags as they are. -/
theorem inv_core {s t : State} (h : Inv s) (h1 : FifoBounds t) (h2 : BufferBounds t) (hc : t.codes = s.codes)
    (ha : t.arena = s.arena) (hb : t.busy = s.busy) (ho : t.op = s.op) (hd : t.done = s.done) (hl : t.lastcmd = s.lastcmd)
    (he : s.busy = true → errOf t.op t.err = true) (htv : t.treeValid = s.treeValid)
    (hcv : t.codesValid = s.codesValid)
    (hf : t.freq = s.freq ∨ (s.treeValid = false ∧ s.codesValid = false))
    (enc : t.busy = true → t.op = opEncode → t.err = .noError → t.jobRem ≠ 0 → t.codesValid = true)
    (hdec : DecoderConsistent t) : Inv t := by
  refine ⟨h1, h2, by intro b; rw [hc]; exact h.3 b,
    ⟨by rw [ho]; exact h.4.1, by rw [hb, hd]; exact h.4.2, by rw [hb, ho, hl]; exact h.4.3, by rw [hb]; exact he⟩,
    ⟨by rw [ha]; exact h.5.1, ?_, ?_, ?_, ?_, enc⟩, hdec⟩
  · rw [htv, ha]
    rcases hf with hf | hf
    · rw [hf]; exact h.5.2
    · intro hx; rw [hf.1] at hx; cases hx
  · rw [htv, ha, hcv, hc]; exact h.5.3
  · rw [htv, hcv, hb, ho]; exact h.5.4
  · rw [hcv, hb, ho]; exact h.5.5

theorem inv_countByte {s : State} (h : Inv s) (hb : s.busy = true) (ho : s.op = opCount) (b q)
    (hq : s.inq = b :: q) : Inv (countByte s) := by
  have hi := h.1.1
  rw [hq] at hi
  have hi : q.length ≤ s.inDepth.val := by simp at hi; omega
  have he := h.4.4 hb
  have hv := h.5.4 hb (.inr (.inl ho))
  unfold countByte
  rw [consume_cons _ hq]
  have enc : ∀ e, s.op = opEncode → e := by intro e h'; rw [ho] at h'; exact absurd h' (by decide)
  have dec : ∀ e, s.op = opDecode → e := by intro e h'; rw [ho] at h'; exact absurd h' (by decide)
  split
  · unfold countSymbol
    split
    · refine inv_core h ⟨hi, h.1.2⟩ ⟨h.2.1, h.2.2⟩ rfl rfl rfl rfl rfl rfl
        ?_ rfl rfl (.inl rfl) (fun _ => enc _) ⟨fun _ => dec _, fun _ => dec _, fun _ => dec _⟩
      intro _; show errOf s.op .countOverflow = true; rw [ho]; rfl
    · exact inv_core h ⟨hi, h.1.2⟩ ⟨h.2.1, h.2.2⟩ rfl rfl rfl rfl rfl rfl
        (fun _ => he) rfl rfl (.inr hv) (fun _ => enc _) ⟨fun _ => dec _, fun _ => dec _, fun _ => dec _⟩
  · exact inv_core h ⟨hi, h.1.2⟩ ⟨h.2.1, h.2.2⟩ rfl rfl rfl rfl rfl rfl
        (fun _ => he) rfl rfl (.inl rfl) (fun _ => enc _) ⟨fun _ => dec _, fun _ => dec _, fun _ => dec _⟩

theorem inv_encConsume {s : State} (h : Inv s) (hen : encConsumeEnabled s = true) : Inv (encConsume s) := by
  simp only [encConsumeEnabled, Bool.and_eq_true, running_iff] at hen
  obtain ⟨⟨⟨⟨hb, ho⟩, hj⟩, hne⟩, hpb⟩ := hen
  have hj : s.jobRem ≠ 0 := by simpa using hj
  obtain ⟨b, q, hq⟩ : ∃ b q, s.inq = b :: q := by
    cases hq : s.inq with
    | nil => simp [hq] at hne
    | cons b q => exact ⟨b, q, rfl⟩
  have hi := h.1.1
  rw [hq] at hi
  have hi : q.length ≤ s.inDepth.val := by simp at hi; omega
  have he := h.4.4 hb
  have dec : ∀ e, s.op = opDecode → e := by intro e h'; rw [ho] at h'; exact absurd h' (by decide)
  unfold encConsume
  rw [consume_cons _ hq]
  split
  · rename_i her
    have her : s.err = .noError := her
    unfold encodeSymbol
    split
    · refine inv_core h ⟨hi, h.1.2⟩ ⟨Nat.zero_le _, h.2.2⟩ rfl rfl rfl rfl rfl rfl
        ?_ rfl rfl (.inl rfl) (fun _ _ h => by cases h) ⟨fun _ => dec _, fun _ => dec _, fun _ => dec _⟩
      intro _; show errOf s.op .unknownSymbol = true; rw [ho]; rfl
    · refine inv_core h ⟨hi, h.1.2⟩ ⟨?_, h.2.2⟩ rfl rfl rfl rfl rfl rfl
        (fun _ => he) rfl rfl (.inl rfl) (fun _ ho' he' _ => h.5.6 hb ho her hj) ⟨fun _ => dec _, fun _ => dec _, fun _ => dec _⟩
      have : s.pb.length < 8 := by simpa [her] using hpb
      have := (s.codes.lenOf b).isLt
      simp [CodeTable.bitsOf]; omega
  · rename_i her
    exact inv_core h ⟨hi, h.1.2⟩ ⟨h.2.1, h.2.2⟩ rfl rfl rfl rfl rfl rfl
        (fun _ => he) rfl rfl (.inl rfl) (fun _ _ he' => absurd he' her) ⟨fun _ => dec _, fun _ => dec _, fun _ => dec _⟩

theorem inv_encEmit {s : State} (h : Inv s) (hen : encEmitEnabled s = true) : Inv (encEmit s) := by
  simp only [encEmitEnabled, Bool.and_eq_true, running_iff] at hen
  obtain ⟨⟨⟨⟨hb, ho⟩, _⟩, _⟩, hr⟩ := hen
  have dec : ∀ e, s.op = opDecode → e := by intro e h'; rw [ho] at h'; exact absurd h' (by decide)
  have hr : s.outq.length < s.outDepth.val := by simpa [State.outRoom] using hr
  refine inv_core h ⟨h.1.1, by simp [encEmit, State.pushOut]; omega⟩
    ⟨by have := h.2.1; simp [encEmit]; omega, h.2.2⟩ rfl rfl rfl rfl rfl rfl
        (fun _ => h.4.4 hb) rfl rfl (.inl rfl) (fun _ _ a b => h.5.6 hb ho a b) ⟨fun _ => dec _, fun _ => dec _, fun _ => dec _⟩

theorem inv_encDone {s : State} (h : Inv s) (hen : encDoneEnabled s = true) : Inv (encDone s) := by
  simp only [encDoneEnabled, Bool.and_eq_true, running_iff] at hen
  obtain ⟨⟨⟨⟨hb, ho⟩, _⟩, _⟩, hr⟩ := hen
  unfold encDone
  simp only
  split
  · rename_i hp
    have hr : s.outq.length < s.outDepth.val := by simpa [State.outRoom, hp.1, hp.2] using hr
    exact inv_idle rfl ⟨h.1.1, by simp [State.pushOut, State.complete]; omega⟩
      ⟨Nat.zero_le _, h.2.2⟩ h.3 h.4.1 h.5.1 h.5.2 h.5.3
  · exact inv_idle rfl ⟨h.1.1, h.1.2⟩ ⟨Nat.zero_le _, h.2.2⟩ h.3 h.4.1 h.5.1 h.5.2 h.5.3

theorem inv_decLoad {s : State} (h : Inv s) (hen : decLoadEnabled s = true) : Inv (decLoad s) := by
  simp only [decLoadEnabled, Bool.and_eq_true, running_iff] at hen
  obtain ⟨⟨⟨⟨hb, ho⟩, hj⟩, hne⟩, hpb⟩ := hen
  have hj : s.jobRem ≠ 0 := by simpa using hj
  obtain ⟨b, q, hq⟩ : ∃ b q, s.inq = b :: q := by
    cases hq : s.inq with
    | nil => simp [hq] at hne
    | cons b q => exact ⟨b, q, rfl⟩
  have hi := h.1.1
  rw [hq] at hi
  have hi : q.length ≤ s.inDepth.val := by simp at hi; omega
  have he := h.4.4 hb
  have enc : ∀ e, s.op = opEncode → e := by intro e h'; rw [ho] at h'; exact absurd h' (by decide)
  have pos := h.6.1 hb ho
  unfold decLoad
  rw [consume_cons _ hq]
  split
  · rename_i her
    have her : s.err = .noError := her
    have rem := h.6.2 hb ho her
    have ht := h.6.3 hb ho her
    have hz : s.dbitsRem ≠ 0 := by
      intro hz; rw [hz] at rem; exact hj (by rw [rem]; decide)
    have ht := ht (.inl hz)
    unfold loadByte
    simp only
    set n : BitVec 64 := if s.dbitsRem < 8 then s.dbitsRem else 8 with hn
    have h8 : (8 : BitVec 64).toNat = 8 := rfl
    have hn8 : n.toNat = min 8 s.dbitsRem.toNat := by
      rw [hn]; split <;> rename_i hc <;> rw [BitVec.lt_def, h8] at hc
      · omega
      · rw [h8]; omega
    refine inv_core h ⟨hi, h.1.2⟩ ⟨h.2.1, ?_⟩ rfl rfl rfl rfl rfl rfl
        (fun _ => he) rfl rfl (.inl rfl) (fun _ => enc _)
        ⟨fun _ _ => pos, ?_, fun _ _ _ _ => ht⟩
    · simp [loadBits]
    · intro _ _ _
      apply BitVec.eq_of_toNat_eq
      have e1 := congrArg BitVec.toNat rem
      rw [ceil8_toNat] at e1
      rw [ceil8_toNat]
      have hz' : s.dbitsRem.toNat ≠ 0 := fun hh => hz (BitVec.eq_of_toNat_eq hh)
      have h1 : (1 : BitVec 64).toNat = 1 := rfl
      simp only [BitVec.toNat_sub, h1, hn8]
      have := s.dbitsRem.isLt
      have := s.jobRem.isLt
      omega
  · rename_i her
    exact inv_core h ⟨hi, h.1.2⟩ ⟨h.2.1, h.2.2⟩ rfl rfl rfl rfl rfl rfl
        (fun _ => he) rfl rfl (.inl rfl) (fun _ => enc _)
        ⟨fun _ _ => pos, fun _ _ he' => absurd he' her, fun _ _ he' => absurd he' her⟩

theorem inv_decDone {s : State} (h : Inv s) : Inv (decDone s) := by
  unfold decDone
  simp only
  split
  · exact inv_idle rfl ⟨h.1.1, h.1.2⟩ ⟨h.2.1, Nat.zero_le _⟩ h.3 h.4.1 h.5.1 h.5.2 h.5.3
  · exact inv_idle rfl ⟨h.1.1, h.1.2⟩ ⟨h.2.1, Nat.zero_le _⟩ h.3 h.4.1 h.5.1 h.5.2 h.5.3

theorem nodeAt_iff (a : Arena) (i : BitVec 9) : (∃ n, a.nodeAt i = some n) ↔ i.toNat < 511 := by
  constructor
  · rintro ⟨n, hn⟩
    by_contra hc
    simp [Arena.nodeAt, hc] at hn
  · intro h; exact ⟨_, nodeAt_some a i h⟩

theorem walkBit_ne (a : Arena) (i bit) (hi : i.toNat < 511) : a.walkBit i bit ≠ .outside := by
  unfold Arena.walkBit
  rw [nodeAt_some a i hi]
  simp only
  generalize hcd : (if bit = true then a.node[i.toNat].right else a.node[i.toNat].left) = cd
  by_cases hc : cd = nullIdx
  · simp [hc]
  · rw [if_neg hc, nodeAt_some a _ (toNat_lt_of_ne_null hc)]
    simp only
    split <;> simp

theorem inv_decWalk {s t : State} (h : Inv s) (hen : decWalkEnabled s = true) (he : decWalk s = .next t) : Inv t := by
  simp only [decWalkEnabled, Bool.and_eq_true, running_iff] at hen
  obtain ⟨⟨⟨⟨hb, ho⟩, her⟩, hne⟩, hr⟩ := hen
  have her : s.err = .noError := by simpa using her
  have hr : s.outq.length < s.outDepth.val := by simpa [State.outRoom] using hr
  have enc : ∀ e, s.op = opEncode → e := by intro e h'; rw [ho] at h'; exact absurd h' (by decide)
  have hroot := tree_root s h
  unfold decWalk at he
  split at he
  · cases he; exact h
  · rename_i bit rest hd
    have hlen := h.2.2
    rw [hd] at hlen
    have hlen : rest.length ≤ 8 := by simp at hlen; omega
    have ht : s.treeValid = true := h.6.3 hb ho her (.inr (by rw [hd]; simp))
    have rem := h.6.2 hb ho her
    simp only at he
    split at he
    · cases he
    · cases he
      refine inv_core h ⟨h.1.1, h.1.2⟩ ⟨h.2.1, Nat.zero_le _⟩ rfl rfl rfl rfl rfl rfl
        ?_ rfl rfl (.inl rfl) (fun _ => enc _)
        ⟨fun _ _ => h.6.1 hb ho, fun _ _ he => by (cases he), fun _ _ he => by (cases he)⟩
      intro _; show errOf s.op .corruptStream = true; rw [ho]; rfl
    · cases he
      exact inv_core h ⟨h.1.1, by simp [State.pushOut]; omega⟩ ⟨h.2.1, hlen⟩ rfl rfl rfl rfl rfl rfl
        (fun _ => h.4.4 hb) rfl rfl (.inl rfl) (fun _ => enc _) ⟨fun _ _ => hroot, fun _ _ _ => rem, fun _ _ _ _ => ht⟩
    · rename_i i hw
      cases he
      refine inv_core h ⟨h.1.1, h.1.2⟩ ⟨h.2.1, hlen⟩ rfl rfl rfl rfl rfl rfl
        (fun _ => h.4.4 hb) rfl rfl (.inl rfl) (fun _ => enc _) ⟨fun _ _ => ?_, fun _ _ _ => rem, fun _ _ _ _ => ht⟩
      unfold Arena.walkBit at hw
      cases hn : s.arena.nodeAt s.dnode with
      | none => rw [hn] at hw; simp at hw
      | some n =>
        rw [hn] at hw
        simp only at hw
        generalize hcd : (if bit = true then n.right else n.left) = cd at hw
        by_cases hc : cd = nullIdx
        · simp [hc] at hw
        · rw [if_neg hc, nodeAt_some s.arena _ (toNat_lt_of_ne_null hc)] at hw
          simp only at hw
          cases hl : s.arena.node[cd.toNat]'(toNat_lt_of_ne_null hc) |>.isLeaf with
          | true => simp [hl] at hw
          | false => simp [hl] at hw; subst hw; exact ⟨_, nodeAt_some s.arena _ (toNat_lt_of_ne_null hc), hl⟩

end Sys2Proof.Machine
end

