-- ==== Sys2Proof/Tests/Slice0.lean ====
section
/-! SUPPORT. Tests and witnesses: the ill-formed term that WellFormed refuses, the words of every
constructor written out from 30_encoding.md, one-step vectors of 95_test_vectors.md, and for every
statement with hypotheses a state and operands that meet them, clause by clause. -/

-- One theorem at a time: a task for each of many small theorems would each hold a stack.
set_option Elab.async false

namespace Sys2Proof.Machine

/-! ### Well-formedness (R77) -/

theorem test_wellFormed_refuses_read_with_data : (Instr.rd 0x0002 0x12345678).wellFormed = false := by decide
theorem test_wellFormed_accepts_canonical_read : (Instr.rd 0x0002 0).wellFormed = true := by decide

/-! ### Decoding: OPC and RSV of R71; W, ADDR and DATA of R77, written out field by field -/

theorem test_decode_nop : decodeCmd 0b0000000000000000000000000000_0000#32 = .ok .nop := by decide
theorem test_decode_clrfreq : decodeCmd 0b0000000000000000000000000000_0001#32 = .ok .clrfreq := by decide
theorem test_decode_count : decodeCmd 0b0000000000000000000000000000_0010#32 = .ok .count := by decide
theorem test_decode_build : decodeCmd 0b0000000000000000000000000000_0011#32 = .ok .build := by decide
theorem test_decode_gencodes : decodeCmd 0b0000000000000000000000000000_0100#32 = .ok .gencodes := by decide
theorem test_decode_encode : decodeCmd 0b0000000000000000000000000000_0101#32 = .ok .encode := by decide
theorem test_decode_decode : decodeCmd 0b0000000000000000000000000000_0110#32 = .ok .decode := by decide
theorem test_decode_flush : decodeCmd 0b0000000000000000000000000000_0111#32 = .ok .flush := by decide
theorem test_decode_softreset : decodeCmd 0b0000000000000000000000000000_1111#32 = .ok .softreset := by decide
theorem test_decode_rejects_reserved_opcode :
    decodeCmd 0b0000000000000000000000000000_1110#32 = .error .reservedOpcode := by decide
theorem test_decode_rejects_reserved_bits :
    decodeCmd 0b1000000000000000000000000000_0011#32 = .error .reservedBitsSet := by decide
/-- `RD CODE[0x63].0`, 0B1800000000 (95_test_vectors.md 2.1). -/
theorem test_decode_rd : decodeBus 0b0_0101100011000_00000000000000000000000000000000#46 = .rd 0x0B18 0 := by decide
/-- `WR FREQ[0x7A], 0x4`, 217A00000004 (95_test_vectors.md 2.1). -/
theorem test_decode_wr : decodeBus 0b1_0000101111010_00000000000000000000000000000100#46 = .wr 0x017A 4 := by decide
theorem test_decodeTableWord_takes_both_formats :
    decodeTableWord 32 0x7 = some .flush ∧ decodeTableWord 32 0x10 = none ∧
    decodeTableWord 48 0x200A00000061 = some (.wr 0x000A 0x61) ∧
    decodeTableWord 48 0x400000000000 = none := by decide

/-- The ends of every range of R46 to R48. -/
theorem test_address_map_boundaries :
    target 0x000E = .treeinfo ∧ target 0x000F = .reserved ∧ target 0x00FF = .reserved ∧
    target 0x0100 = .freq 0 ∧ target 0x01FF = .freq 255 ∧ target 0x0200 = .codeLen 0 ∧ target 0x02FF = .codeLen 255 ∧
    target 0x0300 = .reserved ∧ target 0x07FF = .reserved ∧ target 0x0800 = .code 0 0 ∧ target 0x0FFF = .code 255 7 ∧
    target 0x1000 = .node 0 0 ∧ target 0x17FB = .node 510 3 ∧ target 0x17FC = .reserved ∧ target 0x1FFF = .reserved := by
  decide

/-! ### Small states -/

/-- The reset state of a block whose FIFOs hold four bytes. -/
def base : State := { State.reset with inDepth := ⟨⟨3, by decide⟩⟩, outDepth := ⟨⟨3, by decide⟩⟩ }

/-- A command is running and it is the core's turn. -/
def running (op : BitVec 4) (s : State) : State := { s with agent := .core, busy := true, op := op, lastcmd := op }

/-- FREQ with one symbol: FREQ[0x7A] = 4 (95_test_vectors.md T2). -/
def freqZ : Vector (BitVec 32) 256 := (Vector.replicate 256 0).set 0x7A 4

/-- A leaf and the synthetic root over it. -/
def treeZ : Arena := (Arena.zero.append (Node.leaf 0x7A 4)).wrapSingle

/-- Two leaves and no more, of weights 4 and 3. -/
def twoLeaves : Arena := (Arena.zero.append (Node.leaf 0x61 4)).append (Node.leaf 0x62 3)

/-- The tree over them: node 2 is (7, L1, R0). -/
def twoTree : Arena := { twoLeaves.append (Node.internal 7 1 0) with root := 2 }

/-- A tree whose root has a leaf on its left and an internal node on its right. -/
def threeTree : Arena :=
  { (((twoLeaves.append (Node.leaf 0x63 9)).append (Node.internal 7 1 0)).append (Node.internal 16 2 3)) with root := 4 }

/-- The code table of twoTree: 0x62 has code 0, 0x61 has code 1. -/
def twoCodes : CodeTable := { CodeTable.zero with len := (CodeTable.zero.len.set 0x61 1).set 0x62 1,
                                                  code := CodeTable.zero.code.set 0x61 1 }

/-! ### One step of each instruction, against 95_test_vectors.md 2.1 and the examples of the rules -/

/-- An outcome that is a next state with a property. -/
theorem next_of_check {r : Result} {p : State → Bool}
    (h : (match r with | .next t => p t | .fault _ => false | .refused _ => false) = true) :
    ∃ t, r = .next t ∧ p t = true := by
  cases r with
  | next t => exact ⟨t, rfl, h⟩
  | fault f => simp at h
  | refused f => simp at h

/-- What STATUS reads after the first step from reset with a table word, the FIFOs being empty. -/
def statusAfter (s : State) (i : Instr) : Option Word :=
  match exec i s with
  | .next t => some t.statusWord
  | _ => none

/-- R91: an accepted command reads BUSY = 1, LASTCMD = its opcode and nothing else beside the empty FIFOs. -/
theorem test_acceptance_status :
    statusAfter base .nop = some 0x00000281 ∧ statusAfter base .clrfreq = some 0x00010281 ∧
    statusAfter base .count = some 0x00020281 ∧ statusAfter base .build = some 0x00030281 ∧
    statusAfter base .gencodes = some 0x00040281 ∧ statusAfter base .encode = some 0x00050281 ∧
    statusAfter base .decode = some 0x00060281 ∧ statusAfter base .flush = some 0x00070281 ∧
    statusAfter base .softreset = some 0x00000280 := by decide +kernel

/-- 95_test_vectors.md 2.1, the STATUS column of the commands that end without building anything. -/
theorem test_core_step_status :
    statusAfter (running 0 base) .nop = some 0x00000288 ∧
    statusAfter (running 1 base) .clrfreq = some 0x00010288 ∧
    statusAfter (running 2 base) .count = some 0x00020288 ∧
    statusAfter (running 4 base) .gencodes = some 0x00047288 ∧
    statusAfter (running 5 base) .encode = some 0x00050288 ∧
    statusAfter (running 6 base) .decode = some 0x00060288 ∧
    statusAfter (running 7 base) .flush = some 0x00070288 := by decide +kernel

/-- 95_test_vectors.md 2.1, `BUILD` with NSYM = 0. -/
theorem test_build_empty_status : statusAfter (running 3 base) .build = some 0x00031288 := by decide +kernel

/-- 95_test_vectors.md 2.1, the refused words. -/
theorem test_refused_words :
    statusAfter base (.wr 0x0001 0x0000000E) = some 0x000E6288 ∧
    statusAfter base (.wr 0x0001 0x00000010) = some 0x00006288 ∧
    statusAfter base (.wr 0x0001 0x0000001F) = some 0x000F6288 ∧
    statusAfter base (.wr 0x0001 0x80000003) = some 0x00036288 := by decide +kernel

/-- 95_test_vectors.md 2.1: a command word written while COUNT waits on INQ is dropped. -/
theorem test_drop_while_waiting : statusAfter (running 2 base) (.wr 0x0001 0) = some 0x00020291 := by decide +kernel

/-- 95_test_vectors.md 2.1: `WR IRQEN, 1; CMD NOP; WAIT` raises IRQ, `WR STATUS, 0x8` lowers it. -/
theorem test_irq_line :
    ({ base with irqEn := true, done := true }).irq = true ∧
    ((({ base with irqEn := true, done := true } : State).busWrite 0x0002 0x8).irq = false) := by decide +kernel

/-- 95_test_vectors.md 2.2: a byte is counted, and at 0xFFFFFFFF it raises COUNT_OVERFLOW and is lost. -/
theorem test_count_byte_and_overflow :
    (countByte { running 2 base with jobRem := 2, inq := [0x41, 0x41], freq := base.freq.set 0x41 0xFFFFFFFE }).freqOf 0x41 =
        0xFFFFFFFF ∧
    (countByte { running 2 base with jobRem := 1, inq := [0x41], freq := base.freq.set 0x41 0xFFFFFFFF }).err =
        .countOverflow := by decide +kernel

theorem freqZ_absent {k : Nat} (hk : k < 256) (h : k ≠ 0x7A) : freqZ[k]?.getD 0 = 0 := by
  have hn : ¬0x7A = k := fun e => h e.symm
  simp [freqZ, hk, hn]

/-- 95_test_vectors.md T2: the tree of FREQ z = 4. -/
theorem test_build_single_symbol : buildTree freqZ = treeZ := by
  have low : insertLeaves freqZ 0x7A = Arena.zero :=
    insertLeaves_skip (n := 0) (by omega) fun k _ h => freqZ_absent (by omega) (by omega)
  have mid : insertLeaves freqZ 0x7B = Arena.zero.append (Node.leaf 0x7A 4) := by
    rw [show 0x7B = 0x7A + 1 from rfl, insertLeaves, low]
    rfl
  have all : insertLeaves freqZ 256 = Arena.zero.append (Node.leaf 0x7A 4) := by
    rw [insertLeaves_skip (n := 0x7B) (by omega) fun k h h' => freqZ_absent h' (by omega), mid]
  unfold buildTree
  rw [all]
  rfl

/-- 95_test_vectors.md T2: the words of its entries. -/
theorem test_node_words :
    nodeWord treeZ.node[0] 0 = 0x00000004 ∧ nodeWord treeZ.node[0] 2 = 0x01FF01FF ∧ nodeWord treeZ.node[0] 3 = 0x00007A01 ∧
    nodeWord treeZ.node[1] 0 = 0x00000004 ∧ nodeWord treeZ.node[1] 2 = 0x01FF0000 ∧ nodeWord treeZ.node[1] 3 = 0 ∧
    treeZ.root = 1 ∧ treeZ.nnodes = 2 := by
  decide +kernel

/-- 95_test_vectors.md T4, its first merge: of the leaves 1, 1 and 2, (2, L0, R1) is made, and the leaf of weight
2 then goes before the internal node of weight 2. -/
theorem test_merge_ties :
    let a := ((Arena.zero.append (Node.leaf 0x61 1)).append (Node.leaf 0x62 1)).append (Node.leaf 0x63 2)
    a.merge.node[3] = Node.internal 2 0 1 ∧ (a.merge.extractMin.map fun p => p.1.idx) = some 2 := by decide +kernel

/-- R120: the codes of a tree, left before right, 0 = left. -/
theorem test_gencodes_directions :
    (genCodes twoTree).toOption.map (fun t => (t.bitsOf 0x62, t.bitsOf 0x61)) = some ([false], [true]) := by
  decide +kernel

/-- 95_test_vectors.md E1, "aaaabbbccd": the bytes 0x0A, 0xBF, 0xC0, from the codes a 0, b 10, c 111, d 110. -/
theorem test_pack_worked_example :
    packBits ([false, false, false, false] ++ [true, false, true, false, true, false] ++ [true, true, true, true, true, true] ++
      [true, true, false]) = [0x0A, 0xBF, 0xC0] := by decide

/-- R131: a code is appended first bit first. -/
theorem test_encode_consume :
    (encConsume { running 5 base with jobRem := 1, inq := [0x61], codes := twoCodes, pb := [false] }).pb = [false, true] := by
  decide +kernel

/-- R132: PB's first bit becomes bit 7. -/
theorem test_encode_emit :
    (encEmit { running 5 base with pb := [true, false, false, false, false, false, true, false, true] }).outq = [0x82] := by
  decide +kernel

/-- R143: of the byte 0xA0 with three bits still to come, three are taken, bit 7 first. -/
theorem test_decode_load :
    (decLoad { running 6 base with jobRem := 1, inq := [0xA0], dbitsRem := 3 }).dbuf = [true, false, true] := by decide +kernel

/-- R141: a 0 bit leads left, to the leaf 0x62, which is emitted. -/
theorem test_decode_walk :
    ∃ t, decWalk { running 6 base with dbuf := [false, true], arena := twoTree, dnode := 2 } = .next t ∧
      decide (t.outq = [0x62] ∧ t.dnode = 2 ∧ t.dbuf = [true]) = true :=
  next_of_check (by decide +kernel)

/-- 40_control.md R98: `RD ID -> 0x48554631`. -/
theorem test_read_id : ReadsAs base 0x0000 0x48554631 := rfl

/-- R58: OUT_DATA returns bit 31 and the byte, and pops it. -/
theorem test_pop_out_data :
    (({ base with outq := [0x0A, 0xBF] } : State).busRead 0x000B).1 = 0x8000000A ∧
    (({ base with outq := [0x0A, 0xBF] } : State).busRead 0x000B).2.outq = [0xBF] := by decide +kernel

/-- R99: `WR FREQ[0x7A], 4` sets the entry and clears the valid flags. -/
theorem test_write_freq :
    (({ base with treeValid := true, codesValid := true } : State).busWrite 0x017A 4).freqOf 0x7A = 4 ∧
    (({ base with treeValid := true, codesValid := true } : State).busWrite 0x017A 4).treeValid = false := by decide +kernel

/-- R200: reset reads 0x00000280. -/
theorem test_reset_status : State.reset.statusWord.extractLsb' 10 22 = 0 ∧ State.reset.statusWord.extractLsb' 0 6 = 0 := by
  decide

/-! ### Witnesses of the statements' hypotheses -/

theorem witness_DecodeOfEncodeIsTheInstruction :
    (Instr.rd 0x1FFF 0).wellFormed = true ∧ (Instr.wr 0x1FFF 0xFFFFFFFF).wellFormed = true ∧
    decode (.cmd 0xF) = .ok .softreset ∧ decode (.bus 0x000212345678) = .ok (.rd 2 0) := by decide

theorem witness_AddressMapNamesEveryRegister :
    (Target.node 510 3).addr = some 0x17FB ∧ (Target.code 255 7).addr = some 0x0FFF ∧ Target.reserved.addr = none := by decide

theorem witness_StepRunsTheHostLine :
    (∃ (s : State) (w : HostWord) (rest : List Turn) (i : Instr), s.script = .host w :: rest ∧ decode w = .ok i) ∧
    (∃ (s : State) (w : HostWord) (rest : List Turn) (x : Word) (e : DecodeError),
      s.script = .host w :: rest ∧ w = .cmd x ∧ decodeCmd x = .error e) :=
  ⟨⟨{ base with script := [.host (.cmd 3)] }, _, _, .build, rfl, rfl⟩,
    ⟨{ base with script := [.host (.cmd 8)] }, _, _, 8, .reservedOpcode, rfl, rfl, rfl⟩⟩

theorem witness_StepRunsTheRunningCommand :
    (∃ (s : State) (i : Instr), s.script = [] ∧ s.busy = true ∧ encode i = .cmd (s.op.setWidth 32)) ∧
    (∃ (s : State) (rest : List Turn), s.script = .core :: rest ∧ s.busy = false) :=
  ⟨⟨running 6 base, .decode, rfl, rfl, rfl⟩, ⟨{ base with script := [.core] }, [], rfl, rfl⟩⟩

theorem witness_ResetRestoresEveryElement :
    (∃ (s : State) (rest : List Turn), s.busy = true ∧ s.script = .reset :: rest) ∧
    (∃ s : State, s.busy = true ∧ s.agent = .host) ∧ (∃ s : State, s.agent = .core) :=
  ⟨⟨{ running 2 base with script := [.reset] }, [], rfl, rfl⟩, ⟨{ base with busy := true }, rfl, rfl⟩,
    ⟨running 2 base, rfl⟩⟩

theorem witness_CommandLineIsTheWriteToCmd : encode .flush = .cmd 7 ∧ base.agent = .host := ⟨rfl, rfl⟩

/-- For AcceptanceStartsTheCommand. -/
theorem witness_idle_on_the_hosts_turn : base.agent = .host ∧ base.busy = false := ⟨rfl, rfl⟩

/-- For EncodeAcceptanceChecksTheTable and DecodeAcceptanceChecksLengthThenTree: each check, each way. -/
theorem witness_acceptance_checks :
    (∃ s : State, s.agent = .host ∧ s.busy = false ∧ s.inlen ≠ 0 ∧ s.codesValid = false) ∧
    (∃ s : State, s.agent = .host ∧ s.busy = false ∧ s.inlen.toNat ≠ (s.bitcnt.toNat + 7) / 8) ∧
    (∃ s : State, s.agent = .host ∧ s.busy = false ∧ s.inlen.toNat = (s.bitcnt.toNat + 7) / 8 ∧ s.bitcnt ≠ 0 ∧
      s.treeValid = false) ∧
    (∃ s : State, s.agent = .host ∧ s.busy = false ∧ s.inlen.toNat = (s.bitcnt.toNat + 7) / 8 ∧ s.bitcnt.toNat = 2 ^ 64 - 1) :=
  ⟨⟨{ base with inlen := 1 }, rfl, rfl, by decide, rfl⟩, ⟨{ base with inlen := 1 }, rfl, rfl, by decide⟩,
    ⟨{ base with inlen := 1, bitcnt := 8 }, rfl, rfl, by decide, by decide, rfl⟩,
    ⟨{ base with inlen := 0x2000000000000000, bitcnt := 0xFFFFFFFFFFFFFFFF }, rfl, rfl, by decide, by decide⟩⟩

theorem witness_BusyCommandWriteIsDropped :
    (running 2 base).busy = true ∧ (0x0000001F : Word) ≠ 0x0000000F := ⟨rfl, by decide⟩

theorem witness_IllegalCommandWordIsRefused :
    base.busy = false ∧
    ([0x8, 0xE, 0x10, 0x1F, 0xFFFFFFFF].all fun w : Word =>
      decide (w.extractLsb' 4 28 ≠ 0 ∨ (0x8 ≤ w.extractLsb' 0 4 ∧ w.extractLsb' 0 4 ≤ 0xE))) = true := ⟨rfl, by decide +kernel⟩

/-- For NopAndFlushComplete, ClrfreqZeroesTheTable, CountCountsEachByte and BuildStepBuildsOrReportsEmpty: a running
command of each opcode on the core's turn. -/
theorem witness_running : ∀ op ∈ [(0 : BitVec 4), 7, 1, 3, 4, 2],
    (running op base).agent = .core ∧ (running op base).busy = true ∧ (running op base).op = op := fun _ _ => ⟨rfl, rfl, rfl⟩

theorem witness_CountCountsEachByte :
    (∃ (s : State) (b : Byte), s = { running 2 base with jobRem := 1, inq := [b], freq := s.freq } ∧ s.err = .noError ∧
      s.freqOf b = 0xFFFFFFFE) ∧
    (∃ (s : State) (b : Byte), s = { running 2 base with jobRem := 1, inq := [b], freq := s.freq } ∧ s.err = .noError ∧
      s.freqOf b = 0xFFFFFFFF) ∧
    (∃ (s : State) (b : Byte), s = { running 2 base with jobRem := 1, inq := [b], err := s.err } ∧ s.err ≠ .noError) ∧
    (running 2 base).jobRem = 0 ∧
    (∃ s : State, s = { running 2 base with jobRem := s.jobRem } ∧ s.jobRem ≠ 0 ∧ s.inq = []) :=
  ⟨⟨{ running 2 base with jobRem := 1, inq := [0xFF], freq := base.freq.set 0xFF 0xFFFFFFFE }, 0xFF, rfl, rfl, by decide +kernel⟩,
    ⟨{ running 2 base with jobRem := 1, inq := [0xFF], freq := base.freq.set 0xFF 0xFFFFFFFF }, 0xFF, rfl, rfl, by decide +kernel⟩,
    ⟨{ running 2 base with jobRem := 1, inq := [0], err := .countOverflow }, 0, rfl, by decide⟩, rfl,
    ⟨{ running 2 base with jobRem := 1 }, rfl, by decide, rfl⟩⟩

theorem witness_CountJobAddsOccurrences :
    ∃ (s : State) (input rest : List Byte), s.busy = false ∧ s.inq = input ++ rest ∧ s.inlen.toNat = input.length ∧
      input ≠ [] ∧ ∀ b : Byte, (s.freqOf b).toNat + input.count b < 2 ^ 32 := by
  refine ⟨{ base with inq := [5, 5, 9], inlen := 2, freq := Vector.replicate 256 0xFFFFFFFD }, [5, 5], [9], rfl, rfl, rfl,
    by decide, fun b => ?_⟩
  have h : ([5, 5] : List Byte).count b ≤ 2 := List.count_le_length
  have hf : ({ base with inq := [5, 5, 9], inlen := 2, freq := Vector.replicate 256 0xFFFFFFFD } : State).freqOf b =
      0xFFFFFFFD := by simp [State.freqOf]
  have hn : (0xFFFFFFFD : BitVec 32).toNat = 0xFFFFFFFD := rfl
  rw [hf, hn]
  omega

theorem witness_BuildStepBuildsOrReportsEmpty :
    (∀ b : Byte, (running 3 base).freqOf b = 0) ∧ ∃ b : Byte, ({ running 3 base with freq := freqZ } : State).freqOf b ≠ 0 :=
  ⟨fun b => by simp [State.freqOf, running, base, State.reset], 0x7A, by decide +kernel⟩

theorem witness_ExtractMinTakesTheLeastKey :
    Arena.zero.extractMin = none ∧ ∃ p, twoLeaves.extractMin = some p ∧ p.1.idx = 1 :=
  have h : (twoLeaves.extractMin.map fun p => p.1.idx) = some 1 := by decide +kernel
  ⟨by decide +kernel, Option.map_eq_some_iff.1 h⟩

theorem witness_MergeJoinsTheTwoLeast :
    twoLeaves.nnodes.toNat < 511 ∧
    ∃ p q, twoLeaves.extractMin = some p ∧ p.2.extractMin = some q ∧ q.1.idx = 0 := by
  refine ⟨by decide +kernel, ?_⟩
  have h : (twoLeaves.extractMin.bind fun p => p.2.extractMin.map fun q => q.1.idx) = some 0 := by decide +kernel
  obtain ⟨p, hp, h⟩ := Option.bind_eq_some_iff.1 h
  obtain ⟨q, hq, h⟩ := Option.map_eq_some_iff.1 h
  exact ⟨p, q, hp, hq, h⟩

theorem witness_LeavesStandInSymbolOrder :
    present ((freqZ.set 0 1).set 2 1) 2 = true ∧ rank ((freqZ.set 0 1).set 2 1) 2 = 1 := by decide +kernel

theorem present_freqZ {x : Byte} (h : x ≠ 0x7A) : present freqZ x = false := by
  have hn : ¬0x7A = x.toNat := fun e => h (BitVec.eq_of_toNat_eq e.symm)
  simp [present, freqZ, hn]

theorem witness_SingleSymbolTreeHasSyntheticRoot :
    present freqZ 0x7A = true ∧ ∀ x : Byte, x ≠ 0x7A → present freqZ x = false :=
  ⟨by decide +kernel, fun _ h => present_freqZ h⟩

theorem nsym_freqZ : nsym freqZ = 1 := by decide +kernel

theorem nsym_two : nsym (freqZ.set 0xFF 1) = 2 := by decide +kernel

/-- For BuildMergesDownToOneRoot, BuiltTreeShape and CodeTableLaws: one, two and 256 symbols, the ends of their ranges. -/
theorem witness_tables_by_size :
    nsym freqZ = 1 ∧ nsym (freqZ.set 0xFF 1) = 2 ∧ nsym (Vector.replicate 256 0xFFFFFFFF) = 256 := by decide +kernel

theorem witness_HuffmanCodeIsOptimal :
    ∃ (freq : Vector (BitVec 32) 256) (t : CodeTable) (c : Byte → Bits), 2 ≤ nsym freq ∧ genCodes (buildTree freq) = .ok t ∧
      ∀ x y : Byte, present freq x = true → present freq y = true → x ≠ y → ¬ c x <+: c y := by
  obtain ⟨t, ht⟩ := genCodes_buildTree (freqZ.set 0xFF 1) (by rw [nsym_two]; decide)
  refine ⟨_, t, fun b => bits 8 b.toNat, by rw [nsym_two], ht, fun x y _ _ hne hp => hne ?_⟩
  have he := hp.eq_of_length (by simp)
  have hn := congrArg num he
  rw [num_bits, num_bits, Nat.mod_eq_of_lt x.isLt, Nat.mod_eq_of_lt y.isLt] at hn
  exact BitVec.eq_of_toNat_eq hn

/-! ### Sound states -/

theorem base_inv : Inv base := (inv_softreset State.reset).frame ⟨Nat.zero_le _, Nat.zero_le _⟩ rfl

/-- An idle block with the tree of freqZ. -/
def withTree : State := { base with freq := freqZ, arena := treeZ, treeValid := true }

theorem withTree_arena : withTree.arena = buildTree withTree.freq := test_build_single_symbol.symm

theorem withTree_inv : Inv withTree := by
  have hn : nsym withTree.freq ≠ 0 := by
    have : withTree.freq = freqZ := rfl
    rw [this, nsym_freqZ]
    decide
  exact inv_idle rfl ⟨Nat.zero_le _, Nat.zero_le _⟩ ⟨Nat.zero_le _, Nat.zero_le _⟩ base_inv.codes (Nat.zero_le _)
    ⟨_, withTree_arena⟩ (fun _ => ⟨withTree_arena, hn⟩) (fun h => Bool.noConfusion h)

/-- A command accepted in a sound state, then the core's turn. -/
def started (s : State) (op : BitVec 4) : State := { s.accept op with agent := .core }

theorem started_inv {s : State} (h : Inv s) {op : BitVec 4} (hop : op.toNat ≤ 7) : Inv (started s op) :=
  (inv_accept h op hop).frame ⟨(inv_accept h op hop).fifo.inq_le, (inv_accept h op hop).fifo.outq_le⟩ rfl

theorem witness_GencodesRecordsEveryPath :
    (∃ s, Inv s ∧ s.agent = .core ∧ s.busy = true ∧ s.op = 0x4 ∧ s.treeValid = true) ∧
    (∃ s, Inv s ∧ s.agent = .core ∧ s.busy = true ∧ s.op = 0x4 ∧ s.treeValid = false) :=
  ⟨⟨started withTree opGencodes, started_inv withTree_inv (by decide), rfl, rfl, rfl, rfl⟩,
    ⟨started base opGencodes, started_inv base_inv (by decide), rfl, rfl, rfl, rfl⟩⟩

/-- A path to a leaf, for the statements about codes: in the tree of freqZ, [0] leads to the leaf of 0x7A. -/
theorem witness_IsCodeOf : (buildTree freqZ).IsCodeOf 0x7A [false] := by
  rw [test_build_single_symbol]
  refine ⟨Node.leaf 0x7A 4, ?_, rfl, rfl⟩
  decide +kernel

/-! ### Encoder and decoder -/

theorem witness_EncConsumeAppendsTheCode :
    (∃ (s : State) (b : Byte), s = { running 5 base with jobRem := 1, inq := [b], codes := twoCodes, pb := s.pb } ∧
      s.pb.length = 7 ∧ s.codes.lenOf b ≠ 0) ∧
    (∃ (s : State) (b : Byte), s = { running 5 base with jobRem := 1, inq := [b], codes := twoCodes, pb := s.pb } ∧
      s.pb.length < 8 ∧ s.codes.lenOf b = 0) ∧
    (∃ (s : State) (b : Byte), s = { running 5 base with jobRem := 1, inq := [b], err := .notReady } ∧ s.err ≠ .noError) :=
  ⟨⟨{ running 5 base with jobRem := 1, inq := [0x61], codes := twoCodes, pb := List.replicate 7 true }, 0x61, rfl, by decide,
      by decide +kernel⟩,
    ⟨{ running 5 base with jobRem := 1, inq := [0x60], codes := twoCodes }, 0x60, rfl, by decide, by decide +kernel⟩,
    ⟨{ running 5 base with jobRem := 1, inq := [0x60], err := .notReady }, 0x60, rfl, by decide⟩⟩

/-- Eight pending bits, with room for a byte and without. -/
theorem witness_EncEmitPushesEightBits :
    ∃ s t : State, s = { running 5 base with pb := List.replicate 8 true, outq := s.outq } ∧
      s.outq.length < s.outDepth.val ∧
      t = { running 5 base with pb := List.replicate 8 true, outq := t.outq } ∧ t.outDepth.val ≤ t.outq.length :=
  ⟨{ running 5 base with pb := List.replicate 8 true, outq := [1, 2, 3] },
    { running 5 base with pb := List.replicate 8 true, outq := [1, 2, 3, 4] }, rfl, by decide, rfl, by decide⟩

/-- The end of the input: nothing pending; one and seven pending bits with room and without; an error. -/
theorem witness_EncDonePadsAndReports :
    (running 5 base).jobRem = 0 ∧ (running 5 base).err = .noError ∧ (running 5 base).pb = [] ∧
    (∃ s : State, s = { running 5 base with pb := [true] } ∧ s.pb ≠ [] ∧ s.pb.length < 8 ∧ s.outq.length < s.outDepth.val) ∧
    (∃ s : State, s = { running 5 base with pb := List.replicate 7 true, outq := [1, 2, 3, 4] } ∧ s.pb ≠ [] ∧
      s.pb.length < 8 ∧ s.outDepth.val ≤ s.outq.length) ∧
    (∃ s : State, s = { running 5 base with err := .unknownSymbol } ∧ s.err ≠ .noError) :=
  ⟨rfl, rfl, rfl, ⟨_, rfl, by decide, by decide, by decide⟩, ⟨_, rfl, by decide, by decide, by decide⟩, ⟨_, rfl, by decide⟩⟩

theorem witness_PayloadBitsStandMostSignificantFirst :
    (packBits [true, false, true])[0 / 8]? = some 0xA0 ∧ (packBits (List.replicate 9 true))[8 / 8]? = some 0x80 := by decide

/-- An empty job without a code table; and a job that fills OUTQ to its depth. -/
theorem witness_EncodeJobPushesThePackedCodes :
    (∃ s : State, s.busy = false ∧ s.codesValid = false ∧ s.inq = ([] : List Byte) ++ [7] ∧ s.inlen.toNat = ([] : List Byte).length) ∧
    (∃ (s : State) (input rest : List Byte), s.busy = false ∧ s.codesValid = true ∧ s.inq = input ++ rest ∧
      s.inlen.toNat = input.length ∧ (∀ b ∈ input, s.codes.lenOf b ≠ 0) ∧ input ≠ [] ∧
      s.outq.length + ((encodeBits s.codes input).length + 7) / 8 = s.outDepth.val) :=
  ⟨⟨{ base with inq := [7] }, rfl, rfl, rfl, rfl⟩,
    ⟨{ base with codes := twoCodes, codesValid := true, inq := [0x61, 0x62, 7], inlen := 2, outq := [1, 2, 3] },
      [0x61, 0x62], [7], rfl, rfl, rfl, rfl, by decide +kernel, by decide, by decide +kernel⟩⟩

theorem witness_EncodeJobStopsAtUnknownSymbol :
    ∃ (s : State) (input : List Byte) (b : Byte) (tail rest : List Byte), s.busy = false ∧ s.codesValid = true ∧
      s.inq = input ++ b :: tail ++ rest ∧ s.inlen.toNat = input.length + 1 + tail.length ∧
      (∀ x ∈ input, s.codes.lenOf x ≠ 0) ∧ s.codes.lenOf b = 0 ∧
      s.outq.length + (encodeBits s.codes input).length / 8 ≤ s.outDepth.val :=
  ⟨{ base with codes := twoCodes, codesValid := true, inq := [0x61, 0x60, 0x61, 7], inlen := 3 }, [0x61], 0x60, [0x61], [7], rfl,
    rfl, rfl, rfl, by decide +kernel, by decide +kernel, by decide +kernel⟩

/-- A byte with eight or more bits to come, one with fewer, and a drained one. -/
theorem witness_DecLoadTakesTheValidBits :
    (∃ s : State, s = { running 6 base with jobRem := 1, inq := [0xA0], dbitsRem := 8 } ∧ s.err = .noError ∧ s.dbuf = []) ∧
    (∃ s : State, s = { running 6 base with jobRem := 1, inq := [0xA0], dbitsRem := 1 } ∧ s.err = .noError ∧ s.dbuf = []) ∧
    (∃ s : State, s = { running 6 base with jobRem := 1, inq := [0xA0], err := .notReady } ∧ s.err ≠ .noError) :=
  ⟨⟨_, rfl, rfl, rfl⟩, ⟨_, rfl, rfl, rfl⟩, ⟨_, rfl, by decide⟩⟩

/-- A missing child, a leaf, an internal node; room in OUTQ and none. -/
theorem witness_DecWalkFollowsOneBit :
    (∃ n, treeZ.nodeAt 1 = some n ∧ n.right = 0x1FF) ∧
    (∃ n l i, threeTree.nodeAt 4 = some n ∧ threeTree.nodeAt n.left = some l ∧ l.isLeaf = true ∧
      threeTree.nodeAt n.right = some i ∧ i.isLeaf = false) ∧
    (∃ s t : State, s = { running 6 base with arena := threeTree, dnode := 4, dbuf := [true], outq := s.outq } ∧
      s.err = .noError ∧ s.outq.length < s.outDepth.val ∧
      t = { running 6 base with arena := threeTree, dnode := 4, dbuf := [true], outq := t.outq } ∧
      t.outDepth.val ≤ t.outq.length) := by
  refine ⟨⟨Node.internal 4 0 nullIdx, by decide +kernel, rfl⟩,
    ⟨Node.internal 16 2 3, Node.leaf 0x63 9, Node.internal 7 1 0, by decide +kernel, by decide +kernel, rfl,
      by decide +kernel, rfl⟩,
    ⟨{ running 6 base with arena := threeTree, dnode := 4, dbuf := [true] },
      { running 6 base with arena := threeTree, dnode := 4, dbuf := [true], outq := [1, 2, 3, 4] }, rfl, rfl, by decide, rfl,
      by decide⟩⟩

theorem witness_DecDoneChecksForMidCode :
    (running 6 base).jobRem = 0 ∧ (running 6 base).err = .noError ∧ (running 6 base).dbuf = [] ∧
    (running 6 base).dnode = (running 6 base).arena.root ∧
    ({ running 6 base with dnode := 3 } : State).dnode ≠ (running 6 base).arena.root ∧
    ({ running 6 base with err := .corruptStream } : State).err ≠ .noError :=
  ⟨rfl, rfl, rfl, rfl, by decide, by decide⟩

/-- Two bits of 0x80 through twoTree give the symbols 0x61, 0x62; one more 1 bit of threeTree ends mid-code. -/
theorem witness_DecodeJobWalksTheValidBits :
    (∃ (s : State) (payload rest out : List Byte), s.busy = false ∧ s.bitcnt ≠ 0 ∧ s.treeValid = true ∧ s.inq = payload ++ rest ∧
      s.inlen.toNat = payload.length ∧ payload.length = (s.bitcnt.toNat + 7) / 8 ∧ out ≠ [] ∧
      decodeBits s.arena s.arena.root ((payloadBits payload).take s.bitcnt.toNat) = (out, .ok) ∧
      s.outq.length + out.length < s.outDepth.val) ∧
    decodeBits threeTree threeTree.root [true] = ([], .midCode) ∧
    decodeBits treeZ treeZ.root [false, true] = ([0x7A], .missingChild) :=
  ⟨⟨{ base with arena := twoTree, treeValid := true, inq := [0x80, 7], inlen := 1, bitcnt := 2, outq := [1] }, [0x80], [7],
      [0x61, 0x62], rfl, by decide, rfl, rfl, rfl, by decide, by decide, by decide +kernel, by decide⟩,
    by decide +kernel, by decide +kernel⟩

theorem witness_RejectedJobsDrainTheirInput :
    (∃ s : State, s = { base with inq := [1, 2], inlen := 1 } ∧ s.codesValid = false ∧ s.inlen.toNat = ([1] : List Byte).length ∧
      ([1] : List Byte).length ≠ 0 ∧ ([1] : List Byte).length ≠ (s.bitcnt.toNat + 7) / 8) ∧
    (∃ s : State, s = { base with inq := [1, 2], inlen := 1, bitcnt := 8 } ∧ s.inlen.toNat = ([1] : List Byte).length ∧
      ([1] : List Byte).length = (s.bitcnt.toNat + 7) / 8 ∧ s.bitcnt ≠ 0 ∧ s.treeValid = false) :=
  ⟨⟨_, rfl, rfl, rfl, by decide, by decide⟩, ⟨_, rfl, rfl, by decide, by decide, rfl⟩⟩

theorem witness_DecodeInvertsEncode :
    ∃ (freq : Vector (BitVec 32) 256) (t : CodeTable), genCodes (buildTree freq) = .ok t ∧
      (∀ b ∈ [(0x7A : Byte)], present freq b = true) ∧
      decodeBits (buildTree freq) (buildTree freq).root [false, false] = ([0x7A, 0x7A], .ok) := by
  obtain ⟨t, ht⟩ := genCodes_buildTree freqZ (by rw [nsym_freqZ]; decide)
  exact ⟨freqZ, t, ht, by decide +kernel, by rw [test_build_single_symbol]; decide +kernel⟩

/-! ### Host transactions -/

theorem witness_ReadsReturnTheRegisters :
    base.inq.length < 65536 ∧ base.outq.length < 65536 ∧ base.busy = false ∧ target 0x000F = .reserved ∧
    target 0x1FFF = .reserved := ⟨by decide, by decide, rfl, by decide, by decide⟩

theorem witness_BusyReadsOfTablesAreFreeDraws :
    (running 2 base).busy = true ∧
    ([0x0006, 0x0009, 0x000D, 0x000E, 0x0100, 0x02FF, 0x0800, 0x17FB].all fun a : Addr =>
      decide ((0x0006 ≤ a.toNat ∧ a.toNat ≤ 0x0009) ∨ a = 0x000D ∨ a = 0x000E ∨ (0x0100 ≤ a.toNat ∧ a.toNat ≤ 0x02FF) ∨
        (0x0800 ≤ a.toNat ∧ a.toNat ≤ 0x17FB))) = true := ⟨rfl, by decide +kernel⟩

theorem witness_OutDataReadPopsTheHead :
    ({ base with outq := [0xFF] } : State).outq = [0xFF] ∧ base.outq = [] := ⟨rfl, rfl⟩

/-- For ConfigurationWrites and FreqWriteStoresAndInvalidates. -/
theorem witness_writes_while_idle_and_busy : base.busy = false ∧ (running 2 base).busy = true := ⟨rfl, rfl⟩

theorem witness_InDataWritePushesOrOverflows :
    ({ base with inq := [1, 2, 3] } : State).inq.length < base.inDepth.val ∧
    base.inDepth.val ≤ ({ base with inq := [1, 2, 3, 4] } : State).inq.length := by decide

theorem witness_OtherWritesHaveNoEffect :
    ([0, 8, 9, 0xB, 0xFF, 0x200, 0x1FFF].all fun a : Addr =>
      decide (a.toNat = 0 ∨ a.toNat = 8 ∨ a.toNat = 9 ∨ (0xB ≤ a.toNat ∧ a.toNat ≤ 0xFF) ∨ 0x200 ≤ a.toNat)) = true := by
  decide +kernel

/-! ### The whole machine -/

theorem witness_AtMostOneCoreStepIsEnabled :
    base.busy = false ∧ CoreStep.decDone.enabled (running 6 base) = true ∧ (running 6 base).coreInstr = some .decode ∧
    (running 6 base).agent = .core ∧
    ({ running 2 base with jobRem := 1 } : State).coreQuiet := by
  refine ⟨rfl, by decide, rfl, rfl, fun step => ?_⟩
  cases step <;> decide +kernel

/-- COUNT waiting for its byte. -/
theorem witness_CoreHoldsOnlyForTheHost :
    ∃ s, Inv s ∧ s.busy = true ∧ s.coreQuiet := by
  refine ⟨started { base with inlen := 1 } opCount, started_inv (base_inv.frame ⟨Nat.zero_le _, Nat.zero_le _⟩ rfl) (by decide),
    rfl, fun step => ?_⟩
  cases step <;> decide +kernel

/-- A DECODE that is not ready and has a byte to drain. -/
def draining : State := started { base with inlen := 1, inq := [0xA0], bitcnt := 3 } opDecode

theorem draining_inv : Inv draining :=
  started_inv (base_inv.frame (t := { base with inlen := 1, inq := [0xA0], bitcnt := 3 })
    ⟨Depth.val_pos base.inDepth, Nat.zero_le _⟩ rfl) (by decide)

/-- For FirstErrorStaysUntilCompletion, CoreRunsOutOfSteps and SoundStatesNeverStop. -/
theorem witness_sound_busy_with_error :
    Inv draining ∧ draining.busy = true ∧ draining.err ≠ .noError ∧ draining.agent = .core ∧
    exec .decode draining = .next (decLoad draining) ∧ step draining = .next (decLoad draining) := by
  refine ⟨draining_inv, rfl, by decide +kernel, rfl, ?_, ?_⟩ <;> rfl

/-- BUSY falls on completion. -/
theorem witness_FirstErrorStaysUntilCompletion :
    ∃ (i : Instr) (s t : State), Inv s ∧ s.busy = true ∧ exec i s = .next t ∧ t.busy = false :=
  ⟨.nop, started base opNop, _, started_inv base_inv (by decide), rfl, rfl, rfl⟩

/-- Each clause's change, by the step that makes it. -/
theorem witness_TablesChangeOnlyByTheirCommands :
    (∃ s t : State, exec .build s = .next t ∧ s.treeValid = false ∧
      (decide (t.arena.nnodes ≠ s.arena.nnodes) && t.treeValid) = true) ∧
    (∃ s t : State, exec .gencodes s = .next t ∧ s.codesValid = false ∧
      (decide (t.codes.lenOf 0x61 ≠ s.codes.lenOf 0x61) && t.codesValid) = true) ∧
    (∃ s t : State, exec .encode s = .next t ∧ t.outlen ≠ s.outlen ∧ t.bitcnt ≠ s.bitcnt) ∧
    (∃ s t : State, exec (.wr 0x0004 5) s = .next t ∧ t.inlen ≠ s.inlen) ∧
    (∃ s t : State, exec (.wr 0x0003 1) s = .next t ∧ t.irqEn ≠ s.irqEn) := by
  refine ⟨⟨{ running 3 base with freq := freqZ }, ?_⟩, ⟨{ running 4 base with arena := twoTree, treeValid := true }, ?_⟩,
    ⟨{ running 5 base with encBits := 9, outN := 2 }, _, rfl, by decide +kernel, by decide +kernel⟩,
    ⟨base, _, rfl, by decide +kernel⟩, ⟨base, _, rfl, by decide +kernel⟩⟩
  · obtain ⟨t, ht, hp⟩ := next_of_check (r := exec .build { running 3 base with freq := freqZ })
      (p := fun t => decide (t.arena.nnodes ≠ 0) && t.treeValid) (by decide +kernel)
    exact ⟨t, ht, rfl, hp⟩
  · obtain ⟨t, ht, hp⟩ := next_of_check (r := exec .gencodes { running 4 base with arena := twoTree, treeValid := true })
      (p := fun t => decide (t.codes.lenOf 0x61 ≠ CodeTable.zero.lenOf 0x61) && t.codesValid) (by decide +kernel)
    exact ⟨t, ht, rfl, hp⟩

theorem witness_FreqChangeLeavesNoValidTable :
    ∃ (i : Instr) (s t : State), Inv s ∧ s.treeValid = true ∧ exec i s = .next t ∧ t.freqOf 0x7A ≠ s.freqOf 0x7A :=
  ⟨.wr 0x017A 5, withTree, _, withTree_inv, rfl, rfl, by decide +kernel⟩

/-- A COUNT step and an ENCODE step beside a push and a pop. -/
theorem witness_HostTransfersCommuteWithCoreSteps :
    ∃ s t : State, s = { running 5 base with pb := List.replicate 8 true, outq := [1, 2, 3], inq := [1, 2, 3] } ∧
      s.agent = .core ∧ s.coreInstr = some .encode ∧ s.op ≠ 0x7 ∧ exec .encode s = .next t ∧ t.pb ≠ s.pb ∧
      s.inq.length < s.inDepth.val ∧ s.outq ≠ [] :=
  ⟨_, _, rfl, rfl, rfl, by decide, rfl, by decide +kernel, by decide, by decide⟩

theorem witness_StepKeepsSoundness :
    (∃ s t : State, Inv s ∧ s.busy = true ∧ step s = .next t) ∧ Inv withTree :=
  ⟨⟨draining, _, draining_inv, rfl, rfl⟩, withTree_inv⟩

/-- Container K1 (95_test_vectors.md 2.7). -/
def containerK1 : List Byte :=
  [0, 0, 0, 4, 0x61, 0, 0, 0, 4, 0x62, 0, 0, 0, 3, 0x63, 0, 0, 0, 2, 0x64, 0, 0, 0, 1,
   0, 0, 0, 0, 0, 0, 0, 19, 0x0A, 0xBF, 0xC0]

/-- The words of a script that write, in order. -/
def writtenWords (turns : List Turn) : List HostWord :=
  turns.filterMap fun
    | .host (.cmd w) => some (.cmd w)
    | .host (.bus w) => if w.getLsbD 45 then some (.bus w) else none
    | .core => none
    | .reset => none

/-- 95_test_vectors.md P2: the writes that restore K1, with the CLRFREQ of R156 in front. -/
theorem test_restore_writes_of_P2 :
    (restoreTurns containerK1).map writtenWords = some
      [.cmd 0x1, .bus 0x216100000004, .bus 0x216200000003, .bus 0x216300000002, .bus 0x216400000001, .cmd 0x3,
       .bus 0x200600000013, .bus 0x200700000000, .bus 0x200400000003, .bus 0x200500000000, .cmd 0x6,
       .bus 0x200A0000000A, .bus 0x200A000000BF, .bus 0x200A000000C0] := by decide +kernel

/-- R158 (f), R156: a truncated K1 is reported and nothing is written. -/
theorem test_restore_malformed : restoreTurns containerK1.dropLast = none := by decide +kernel

/-- 95_test_vectors.md P2: what the host makes of the words `POP 11` returns, newest first. -/
theorem test_symbols_of_P2 :
    symbolsRead [0x00000000, 0x80000064, 0x80000063, 0x80000063, 0x80000062, 0x80000062, 0x80000062,
      0x80000061, 0x80000061, 0x80000061, 0x80000061] =
      [0x61, 0x61, 0x61, 0x61, 0x62, 0x62, 0x62, 0x63, 0x63, 0x64] := by decide +kernel

/-- A table with two symbols and three valid bits, and an empty one. -/
theorem witness_ContainerRoundTrip :
    ([0xA0] : List Byte).length = ((3 : BitVec 64).toNat + 7) / 8 ∧ nsym (freqZ.set 0xFF 1) ≠ 0 ∧
    ([] : List Byte).length = ((0 : BitVec 64).toNat + 7) / 8 ∧ base.busy = false ∧ ∀ b : Byte, base.freqOf b = 0 :=
  ⟨by decide, by rw [nsym_two]; decide, by decide, rfl, fun b => by simp [State.freqOf, base, State.reset]⟩

end Sys2Proof.Machine
end

section
/-! What the step of each turn runs (00_scope.md R15; 30_encoding.md R79). -/

namespace Sys2Proof.Machine

theorem nextTurn_cons {s : State} {u : Turn} {rest : List Turn} (h : s.script = u :: rest) : s.nextTurn = u := by
  simp [State.nextTurn, h]

theorem forAgent_cons {s : State} {u : Turn} {rest : List Turn} (h : s.script = u :: rest) (a : Agent) :
    s.forAgent a = { s with script := rest, agent := a } := by
  simp [State.forAgent, h]

/-- R90: a write to address 1 is a write to CMD. -/
theorem exec_wr_cmd (s : State) (w : Word) : exec (.wr 0x0001 w) s = .next (s.cmdWrite w) :=
  congrArg Host.Outcome.next (busWrite_eq w target_cmd)

theorem step_host_legal {s : State} {w : HostWord} {i : Instr} {rest : List Turn} (h : s.script = .host w :: rest)
    (hw : decode w = .ok i) : step s = exec i { s with script := rest, agent := .host } := by
  simp only [step, nextTurn_cons h, hw, forAgent_cons h]

/-- R90, R92: an illegal command word goes to CMD like any other. -/
theorem step_host_illegal {s : State} {c : Word} {e : DecodeError} {rest : List Turn}
    (h : s.script = .host (.cmd c) :: rest) (hc : decodeCmd c = .error e) :
    step s = exec (.wr 0x0001 c) { s with script := rest, agent := .host } := by
  have hd : decode (.cmd c) = .error e := hc
  simp only [step, nextTurn_cons h, hd, forAgent_cons h, exec_wr_cmd, State.illegalWord]

end Sys2Proof.Machine

open Sys2Proof Sys2Proof.Machine

/-- Settles O6, one lemma for a legal word and one for an illegal one. -/
theorem stepRunsTheHostLine : Obligations.StepRunsTheHostLine := by
  intro s w rest h
  refine ⟨fun i hi => step_host_legal h hi, fun c e hw hc => ?_⟩
  subst hw
  exact step_host_illegal h hc
end

section
/-! Every step keeps soundness: the core steps that Laws/Sound.lean does not treat, then the meaning of an
instruction, then the step. -/

namespace Sys2Proof.Machine

/-! ### The depths of the FIFOs (R9) -/

/-- Two states have the same FIFO depths. -/
def SameDepths (s t : State) : Prop := t.inDepth = s.inDepth ∧ t.outDepth = s.outDepth

theorem consume_sameDepths {f : Byte → State → State} (hf : ∀ b s, SameDepths s (f b s)) (s : State) :
    SameDepths s (s.consume f) := by
  cases hq : s.inq with
  | nil => rw [consume_nil f hq]; exact ⟨rfl, rfl⟩
  | cons b q =>
    rw [consume_cons f hq]
    split
    · exact hf b _
    · exact ⟨rfl, rfl⟩

theorem countSymbol_sameDepths (b : Byte) (s : State) : SameDepths s (countSymbol b s) := by
  unfold countSymbol
  split <;> exact ⟨rfl, rfl⟩

theorem encodeSymbol_sameDepths (b : Byte) (s : State) : SameDepths s (encodeSymbol b s) := by
  unfold encodeSymbol
  split <;> exact ⟨rfl, rfl⟩

theorem loadByte_sameDepths (b : Byte) (s : State) : SameDepths s (loadByte b s) := ⟨rfl, rfl⟩

theorem buildExec_sameDepths (s : State) : SameDepths s (buildExec s) := by
  simp only [buildExec]
  split <;> exact ⟨rfl, rfl⟩

theorem gencodesExec_sameDepths {s t : State} (h : gencodesExec s = .next t) : SameDepths s t := by
  unfold gencodesExec at h
  split at h
  · cases h; exact ⟨rfl, rfl⟩
  · split at h <;> cases h
    exact ⟨rfl, rfl⟩

theorem encDone_sameDepths (s : State) : SameDepths s (encDone s) := by
  simp only [encDone]
  split <;> exact ⟨rfl, rfl⟩

theorem decWalk_sameDepths {s t : State} (h : decWalk s = .next t) : SameDepths s t := by
  unfold decWalk at h
  split at h
  · cases h; exact ⟨rfl, rfl⟩
  · dsimp only at h
    split at h <;> cases h <;> exact ⟨rfl, rfl⟩

theorem decDone_sameDepths (s : State) : SameDepths s (decDone s) := by
  simp only [decDone]
  split <;> exact ⟨rfl, rfl⟩

theorem perform_sameDepths {c : CoreStep} {s t : State} (h : c.perform s = .next t) : SameDepths s t := by
  cases c with
  | gencodesExec => exact gencodesExec_sameDepths h
  | decWalk => exact decWalk_sameDepths h
  | nopExec => cases h; exact ⟨rfl, rfl⟩
  | clrfreqExec => cases h; exact ⟨rfl, rfl⟩
  | countByte => cases h; exact consume_sameDepths countSymbol_sameDepths s
  | countDone => cases h; exact ⟨rfl, rfl⟩
  | buildExec => cases h; exact buildExec_sameDepths s
  | encConsume => cases h; exact consume_sameDepths encodeSymbol_sameDepths s
  | encEmit => cases h; exact ⟨rfl, rfl⟩
  | encDone => cases h; exact encDone_sameDepths s
  | decLoad => cases h; exact consume_sameDepths loadByte_sameDepths s
  | decDone => cases h; exact decDone_sameDepths s
  | flushExec => cases h; exact ⟨rfl, rfl⟩

theorem cmdWrite_sameDepths (s : State) (w : Word) : SameDepths s (s.cmdWrite w) := by
  rcases cmdWrite_cases s w with e | ⟨-, e⟩ | ⟨-, e⟩ | ⟨-, op, -, e⟩ <;> rw [e]
  · exact ⟨rfl, rfl⟩
  · exact ⟨rfl, rfl⟩
  · exact ⟨rfl, rfl⟩
  · exact ⟨accept_inDepth_field s op, accept_outDepth_field s op⟩

theorem pushIn_sameDepths (s : State) (b : Byte) : SameDepths s (s.pushIn b) := by
  unfold State.pushIn
  split <;> exact ⟨rfl, rfl⟩

theorem busWrite_sameDepths (s : State) (a : Addr) (v : Word) : SameDepths s (s.busWrite a v) := by
  unfold State.busWrite
  cases target a with
  | cmd => exact cmdWrite_sameDepths s v
  | inData => exact pushIn_sameDepths s _
  | inlenLo | inlenHi | bitcntLo | bitcntHi | freq =>
    simp only [writeTarget]
    split <;> exact ⟨rfl, rfl⟩
  | _ => exact ⟨rfl, rfl⟩

theorem busRead_sameDepths (s : State) (a : Addr) : SameDepths s (s.busRead a).2 := by
  rcases busRead_state_cases s a with e | ⟨-, b, q, -, e⟩ | e <;> rw [e] <;> exact ⟨rfl, rfl⟩

theorem exec_sameDepths {i : Instr} {s t : State} (h : exec i s = .next t) : SameDepths s t := by
  rcases exec_cases h with ⟨-, w, -, rfl⟩ | ⟨-, c, -, hc⟩ | rfl | ⟨a, d, -, rfl⟩ | ⟨a, v, -, rfl⟩
  · exact cmdWrite_sameDepths s w
  · exact perform_sameDepths (hc ▸ h)
  · exact ⟨rfl, rfl⟩
  · exact busRead_sameDepths s a
  · exact busWrite_sameDepths s a v

theorem step_sameDepths {s t : State} (h : step s = .next t) : SameDepths s t := by
  rcases step_cases h with ⟨a, rfl⟩ | ⟨i, a, he⟩ | ⟨w, rfl⟩ | rfl | rfl
  · exact ⟨rfl, rfl⟩
  · obtain ⟨hin, hout⟩ := exec_sameDepths he
    exact ⟨hin, hout⟩
  · exact cmdWrite_sameDepths (s.forAgent .host) w
  · exact ⟨rfl, rfl⟩
  · exact ⟨rfl, rfl⟩

/-! ### Soundness -/

/-- R106: CLRFREQ runs with both valid flags clear (R43), so they promise nothing about the zeroed table. -/
theorem inv_clrfreqExec {s : State} (h : Inv s) (hb : s.busy = true) (ho : s.op = opClrfreq) :
    Inv (clrfreqExec s) := by
  obtain ⟨tree, codes⟩ := h.tree.freq_writer hb (.inl ho)
  exact inv_idle rfl ⟨h.fifo.inq_le, h.fifo.outq_le⟩ ⟨h.buffers.pb_le, h.buffers.dbuf_le⟩ h.codes h.job.op_le
    h.tree.built (fun ht : s.treeValid = true => by simp [tree] at ht)
    (fun hc : s.codesValid = true => by simp [codes] at hc)

theorem inv_flushExec {s : State} (h : Inv s) : Inv (flushExec s) :=
  (inv_complete h).frame ⟨Nat.zero_le _, Nat.zero_le _⟩ rfl

/-- COUNT_BYTE as a core step: its enabling condition gives the byte it takes. -/
theorem inv_countByte_enabled {s : State} (h : Inv s) (he : countByteEnabled s = true) : Inv (countByte s) := by
  simp only [countByteEnabled, Bool.and_eq_true, running_iff] at he
  obtain ⟨⟨⟨hb, ho⟩, -⟩, hq⟩ := he
  cases hs : s.inq with
  | nil => simp [hs] at hq
  | cons b q => exact inv_countByte h hb ho b q hs

/-- R100: every enabled core step keeps soundness. -/
theorem inv_perform {c : CoreStep} {s t : State} (h : Inv s) (he : c.enabled s = true)
    (hp : c.perform s = .next t) : Inv t := by
  cases c with
  | gencodesExec => exact inv_gencodesExec h hp
  | decWalk => exact inv_decWalk h he hp
  | nopExec => cases hp; exact inv_complete h
  | clrfreqExec =>
    cases hp
    obtain ⟨hb, ho⟩ := (running_iff s opClrfreq).1 he
    exact inv_clrfreqExec h hb ho
  | countByte => cases hp; exact inv_countByte_enabled h he
  | countDone => cases hp; exact inv_complete h
  | buildExec =>
    cases hp
    obtain ⟨hb, ho⟩ := (running_iff s opBuild).1 he
    exact inv_buildExec h hb ho
  | encConsume => cases hp; exact inv_encConsume h he
  | encEmit => cases hp; exact inv_encEmit h he
  | encDone => cases hp; exact inv_encDone h he
  | decLoad => cases hp; exact inv_decLoad h he
  | decDone => cases hp; exact inv_decDone h
  | flushExec => cases hp; exact inv_flushExec h

theorem inv_exec {i : Instr} {s t : State} (h : Inv s) (he : exec i s = .next t) : Inv t := by
  rcases exec_cases he with ⟨-, w, -, rfl⟩ | ⟨-, c, hc, hp⟩ | rfl | ⟨a, d, -, rfl⟩ | ⟨a, v, -, rfl⟩
  · exact inv_cmdWrite h w
  · exact inv_perform h hc (hp ▸ he)
  · exact h
  · have hr := inv_busRead h a
    exact hr.frame ⟨hr.fifo.inq_le, hr.fifo.outq_le⟩ rfl
  · exact inv_busWrite h a v

theorem inv_forAgent {s : State} (h : Inv s) (a : Agent) : Inv (s.forAgent a) :=
  h.frame ⟨h.fifo.inq_le, h.fifo.outq_le⟩ rfl

theorem inv_step {s t : State} (h : Inv s) (hs : step s = .next t) : Inv t := by
  rcases step_cases hs with ⟨a, rfl⟩ | ⟨i, a, he⟩ | ⟨w, rfl⟩ | rfl | rfl
  · exact inv_softreset (s.forAgent a)
  · exact inv_exec (inv_forAgent h a) he
  · exact inv_cmdWrite (inv_forAgent h .host) w
  · exact inv_forAgent h .core
  · exact inv_forAgent h .host

end Sys2Proof.Machine

open Sys2Proof Sys2Proof.Machine

/-- Settles O57: `Inv` is inductive (`inv_step`), and no step writes a depth (`step_sameDepths`). -/
theorem stepKeepsSoundness : Obligations.StepKeepsSoundness :=
  fun _ _ h hs => ⟨inv_step h hs, step_sameDepths hs⟩
end

section
/-! A host's push into INQ or pop from OUTQ and a core step, in either order (00_scope.md R15; 44_encoder.md
R138; 45_decoder.md R148): both transfers are one update, which every core step but FLUSH_EXEC commutes with. -/

namespace Sys2Proof.Machine

/-! ### The core step that a command performs (R91, R100) -/

/-- The command whose core step it is. -/
def CoreStep.instr : CoreStep → Instr
  | .nopExec => .nop
  | .clrfreqExec => .clrfreq
  | .countByte => .count
  | .countDone => .count
  | .buildExec => .build
  | .gencodesExec => .gencodes
  | .encConsume => .encode
  | .encEmit => .encode
  | .encDone => .encode
  | .decLoad => .decode
  | .decWalk => .decode
  | .decDone => .decode
  | .flushExec => .flush

/-- The opcode of that command (R72). -/
def CoreStep.op : CoreStep → BitVec 4
  | .nopExec => opNop
  | .clrfreqExec => opClrfreq
  | .countByte => opCount
  | .countDone => opCount
  | .buildExec => opBuild
  | .gencodesExec => opGencodes
  | .encConsume => opEncode
  | .encEmit => opEncode
  | .encDone => opEncode
  | .decLoad => opDecode
  | .decWalk => opDecode
  | .decDone => opDecode
  | .flushExec => opFlush

theorem CoreStep.running_of_enabled {c : CoreStep} {s : State} (h : c.enabled s = true) :
    s.running c.op = true := by
  cases c with
  | nopExec | clrfreqExec | buildExec | gencodesExec | flushExec => exact h
  | _ =>
    simp only [CoreStep.enabled, countByteEnabled, countDoneEnabled, encConsumeEnabled, encEmitEnabled,
      encDoneEnabled, decLoadEnabled, decWalkEnabled, decDoneEnabled, Bool.and_eq_true, and_assoc] at h
    exact h.1

theorem CoreStep.coreInstr_of_enabled {c : CoreStep} {s : State} (h : c.enabled s = true) :
    s.coreInstr = some c.instr := by
  obtain ⟨hb, ho⟩ := (running_iff s c.op).1 (running_of_enabled h)
  simp only [State.coreInstr, hb, ho, if_true]
  cases c <;> rfl

/-- The steps of COUNT exclude each other by JOB_REM. -/
theorem countByte_disabled {s : State} (h : countDoneEnabled s = true) : countByteEnabled s = false := by
  simp only [countDoneEnabled, Bool.and_eq_true, beq_iff_eq] at h
  simp [countByteEnabled, h.2]

/-- ENC_CONSUME has fewer than 8 pending bits or an error, ENC_EMIT has neither. -/
theorem encConsume_disabled_of_emit {s : State} (h : encEmitEnabled s = true) : encConsumeEnabled s = false := by
  simp only [encEmitEnabled, Bool.and_eq_true, beq_iff_eq, decide_eq_true_eq] at h
  obtain ⟨⟨⟨-, he⟩, h8⟩, -⟩ := h
  simp [encConsumeEnabled, he, h8]

theorem encConsume_disabled_of_done {s : State} (h : encDoneEnabled s = true) : encConsumeEnabled s = false := by
  simp only [encDoneEnabled, Bool.and_eq_true, beq_iff_eq] at h
  obtain ⟨⟨⟨-, hj⟩, -⟩, -⟩ := h
  simp [encConsumeEnabled, hj]

theorem encEmit_disabled_of_done {s : State} (h : encDoneEnabled s = true) : encEmitEnabled s = false := by
  simp only [encDoneEnabled, Bool.and_eq_true, Bool.or_eq_true, bne_iff_ne, decide_eq_true_eq] at h
  obtain ⟨⟨-, hp⟩, -⟩ := h
  rcases hp with he | h8
  · simp [encEmitEnabled, he]
  · simp [encEmitEnabled, h8]

/-- DEC_LOAD has an empty DBUF or an error, DEC_WALK has neither. -/
theorem decLoad_disabled_of_walk {s : State} (h : decWalkEnabled s = true) : decLoadEnabled s = false := by
  simp only [decWalkEnabled, Bool.and_eq_true, beq_iff_eq, Bool.not_eq_true'] at h
  obtain ⟨⟨⟨-, he⟩, hd⟩, -⟩ := h
  simp [decLoadEnabled, he, hd]

theorem decLoad_disabled_of_done {s : State} (h : decDoneEnabled s = true) : decLoadEnabled s = false := by
  simp only [decDoneEnabled, Bool.and_eq_true, beq_iff_eq] at h
  obtain ⟨⟨-, hj⟩, -⟩ := h
  simp [decLoadEnabled, hj]

theorem decWalk_disabled_of_done {s : State} (h : decDoneEnabled s = true) : decWalkEnabled s = false := by
  simp only [decDoneEnabled, Bool.and_eq_true, Bool.or_eq_true, bne_iff_ne] at h
  obtain ⟨-, he | hd⟩ := h
  · simp [decWalkEnabled, he]
  · simp [decWalkEnabled, hd]

theorem countStep_done {s : State} (h : countDoneEnabled s = true) : countStep s = countDone s := by
  simp [countStep, h, countByte_disabled h]

theorem encodeStep_emit {s : State} (h : encEmitEnabled s = true) : encodeStep s = encEmit s := by
  simp [encodeStep, h, encConsume_disabled_of_emit h]

theorem encodeStep_done {s : State} (h : encDoneEnabled s = true) : encodeStep s = encDone s := by
  simp [encodeStep, h, encConsume_disabled_of_done h, encEmit_disabled_of_done h]

theorem decodeStep_walk {s : State} (h : decWalkEnabled s = true) : decodeStep s = decWalk s := by
  simp [decodeStep, h, decLoad_disabled_of_walk h]

theorem decodeStep_done {s : State} (h : decDoneEnabled s = true) : decodeStep s = .next (decDone s) := by
  simp [decodeStep, h, decLoad_disabled_of_done h, decWalk_disabled_of_done h]

/-- On the core's turn a command performs whichever of its core steps is enabled. -/
theorem CoreStep.exec_of_enabled {c : CoreStep} {s : State} (ha : s.agent = .core) (h : c.enabled s = true) :
    exec c.instr s = c.perform s := by
  have turn (w : Word) (f : State → Result) : byTurn w f s = f s := byTurn_core w f ha
  cases c with
  | nopExec =>
    have h : nopExecEnabled s = true := h
    simp only [instr, perform, exec, execNop, turn, if_pos h]
  | clrfreqExec =>
    have h : clrfreqExecEnabled s = true := h
    simp only [instr, perform, exec, execClrfreq, turn, if_pos h]
  | countByte =>
    have h : countByteEnabled s = true := h
    simp only [instr, perform, exec, execCount, turn, countStep, if_pos h]
  | countDone => simp only [instr, perform, exec, execCount, turn, countStep_done h]
  | buildExec =>
    have h : buildExecEnabled s = true := h
    simp only [instr, perform, exec, execBuild, turn, if_pos h]
  | gencodesExec =>
    have h : gencodesExecEnabled s = true := h
    simp only [instr, perform, exec, execGencodes, turn, if_pos h]
  | encConsume =>
    have h : encConsumeEnabled s = true := h
    simp only [instr, perform, exec, execEncode, turn, encodeStep, if_pos h]
  | encEmit => simp only [instr, perform, exec, execEncode, turn, encodeStep_emit h]
  | encDone => simp only [instr, perform, exec, execEncode, turn, encodeStep_done h]
  | decLoad =>
    have h : decLoadEnabled s = true := h
    simp only [instr, perform, exec, execDecode, turn, decodeStep, if_pos h]
  | decWalk => simp only [instr, perform, exec, execDecode, turn, decodeStep_walk h]
  | decDone => simp only [instr, perform, exec, execDecode, turn, decodeStep_done h]
  | flushExec =>
    have h : flushExecEnabled s = true := h
    simp only [instr, perform, exec, execFlush, turn, if_pos h]

/-! ### The transfers of the host (R58, R59) -/

/-- What a transfer of the host does: `bytes` enter INQ, `n` bytes leave OUTQ, and the host reads `words`. -/
def State.transfer (s : State) (bytes : List Byte) (n : Nat) (words : List Word) : State :=
  { s with inq := s.inq ++ bytes, outq := s.outq.drop n, readLog := words ++ s.readLog }

theorem exec_push {s : State} (v : Word) (h : s.inq.length < s.inDepth.val) :
    exec (.wr 0x000A v) s = .next (s.transfer [v.extractLsb' 0 8] 0 []) :=
  congrArg Host.Outcome.next ((busWrite_eq v target_inData).trans (pushIn_room _ h))

theorem exec_pop {s : State} {b : Byte} {q : List Byte} (h : s.outq = b :: q) :
    exec (.rd 0x000B 0) s = .next (s.transfer [] 1 [0x80000000#32 ||| b.setWidth 32]) := by
  rw [exec_rd, show s.busRead 0x000B = s.popOut from busRead_outData target_outData, popOut_cons h]
  simp [State.transfer, h]

section
variable (bytes : List Byte) (n : Nat) (words : List Word)

@[simp] theorem transfer_treeValid (s : State) : (s.transfer bytes n words).treeValid = s.treeValid := rfl
@[simp] theorem transfer_err (s : State) : (s.transfer bytes n words).err = s.err := rfl
@[simp] theorem transfer_freq (s : State) : (s.transfer bytes n words).freq = s.freq := rfl
@[simp] theorem transfer_freqOf (s : State) (b : Byte) : (s.transfer bytes n words).freqOf b = s.freqOf b := rfl
@[simp] theorem transfer_arena (s : State) : (s.transfer bytes n words).arena = s.arena := rfl
@[simp] theorem transfer_codes (s : State) : (s.transfer bytes n words).codes = s.codes := rfl
@[simp] theorem transfer_pb (s : State) : (s.transfer bytes n words).pb = s.pb := rfl
@[simp] theorem transfer_dnode (s : State) : (s.transfer bytes n words).dnode = s.dnode := rfl
@[simp] theorem transfer_dbuf (s : State) : (s.transfer bytes n words).dbuf = s.dbuf := rfl

theorem transfer_inq_isEmpty {s : State} (h : s.inq.isEmpty = false) :
    (s.transfer bytes n words).inq.isEmpty = false := by
  simp only [State.transfer, List.isEmpty_eq_false_iff] at h ⊢
  simp [h]

theorem transfer_outRoom {s : State} (h : s.outRoom = true) : (s.transfer bytes n words).outRoom = true := by
  simp only [State.outRoom, State.transfer, decide_eq_true_eq, List.length_drop] at h ⊢
  omega

/-- More input and more room disable no core step. -/
theorem CoreStep.enabled_transfer {c : CoreStep} {s : State} (h : c.enabled s = true) :
    c.enabled (s.transfer bytes n words) = true := by
  cases c with
  | nopExec | clrfreqExec | countDone | buildExec | gencodesExec | decDone | flushExec => exact h
  | countByte =>
    simp only [enabled, countByteEnabled, Bool.and_eq_true, Bool.not_eq_true'] at h ⊢
    obtain ⟨hj, hq⟩ := h
    exact ⟨hj, transfer_inq_isEmpty bytes n words hq⟩
  | encConsume =>
    simp only [enabled, encConsumeEnabled, Bool.and_eq_true, Bool.not_eq_true'] at h ⊢
    obtain ⟨⟨hj, hq⟩, hp⟩ := h
    exact ⟨⟨hj, transfer_inq_isEmpty bytes n words hq⟩, hp⟩
  | decLoad =>
    simp only [enabled, decLoadEnabled, Bool.and_eq_true, Bool.not_eq_true'] at h ⊢
    obtain ⟨⟨hj, hq⟩, hp⟩ := h
    exact ⟨⟨hj, transfer_inq_isEmpty bytes n words hq⟩, hp⟩
  | encEmit =>
    simp only [enabled, encEmitEnabled, Bool.and_eq_true] at h ⊢
    obtain ⟨hp, hr⟩ := h
    exact ⟨hp, transfer_outRoom bytes n words hr⟩
  | decWalk =>
    simp only [enabled, decWalkEnabled, Bool.and_eq_true] at h ⊢
    obtain ⟨hp, hr⟩ := h
    exact ⟨hp, transfer_outRoom bytes n words hr⟩
  | encDone =>
    simp only [enabled, encDoneEnabled, Bool.and_eq_true, Bool.or_eq_true] at h ⊢
    obtain ⟨hp, hr⟩ := h
    exact ⟨hp, hr.imp_right (transfer_outRoom bytes n words)⟩

/-! ### Each core step commutes with a transfer -/

theorem inq_of_countByte {s : State} (h : countByteEnabled s = true) : s.inq.isEmpty = false := by
  simp only [countByteEnabled, Bool.and_eq_true, Bool.not_eq_true'] at h
  exact h.2

theorem inq_of_encConsume {s : State} (h : encConsumeEnabled s = true) : s.inq.isEmpty = false := by
  simp only [encConsumeEnabled, Bool.and_eq_true, Bool.not_eq_true'] at h
  obtain ⟨⟨-, hq⟩, -⟩ := h
  exact hq

theorem inq_of_decLoad {s : State} (h : decLoadEnabled s = true) : s.inq.isEmpty = false := by
  simp only [decLoadEnabled, Bool.and_eq_true, Bool.not_eq_true'] at h
  obtain ⟨⟨-, hq⟩, -⟩ := h
  exact hq

theorem consume_transfer {f : Byte → State → State} {s : State} (hq : s.inq.isEmpty = false)
    (hf : ∀ b s, f b (State.transfer s bytes n words) = (f b s).transfer bytes n words) :
    (s.transfer bytes n words).consume f = (s.consume f).transfer bytes n words := by
  cases hs : s.inq with
  | nil => simp [hs] at hq
  | cons b q =>
    have hs' : (s.transfer bytes n words).inq = b :: (q ++ bytes) := by simp [State.transfer, hs]
    rw [consume_cons f hs, consume_cons f hs', apply_ite (State.transfer · bytes n words), ← hf]
    rfl

theorem countSymbol_transfer (b : Byte) (s : State) :
    countSymbol b (s.transfer bytes n words) = (countSymbol b s).transfer bytes n words := by
  by_cases h : s.freqOf b = 0xFFFFFFFF#32
  · simp only [countSymbol, transfer_freqOf, h, if_true]
    rfl
  · simp only [countSymbol, transfer_freqOf, h, if_false]
    rfl

theorem encodeSymbol_transfer (b : Byte) (s : State) :
    encodeSymbol b (s.transfer bytes n words) = (encodeSymbol b s).transfer bytes n words := by
  by_cases h : s.codes.lenOf b = 0
  · simp only [encodeSymbol, transfer_codes, h, if_true]
    rfl
  · simp only [encodeSymbol, transfer_codes, h, if_false]
    rfl

theorem loadByte_transfer (b : Byte) (s : State) :
    loadByte b (s.transfer bytes n words) = (loadByte b s).transfer bytes n words := rfl

theorem buildExec_transfer (s : State) :
    buildExec (s.transfer bytes n words) = (buildExec s).transfer bytes n words := by
  by_cases h : nsym s.freq = 0
  · simp only [buildExec, transfer_freq, h, if_true]
    rfl
  · simp only [buildExec, transfer_freq, h, if_false]
    rfl

theorem gencodesExec_transfer {s t : State} (h : gencodesExec s = .next t) :
    gencodesExec (s.transfer bytes n words) = .next (t.transfer bytes n words) := by
  by_cases hv : s.treeValid = false
  · simp only [gencodesExec, transfer_treeValid, hv, if_true] at h ⊢
    cases h
    rfl
  · simp only [gencodesExec, transfer_treeValid, transfer_arena, hv] at h ⊢
    cases hg : genCodes s.arena with
    | error f => simp [hg] at h
    | ok codes =>
      simp only [hg] at h ⊢
      cases h
      rfl

theorem decDone_transfer (s : State) :
    decDone (s.transfer bytes n words) = (decDone s).transfer bytes n words := by
  by_cases h : s.err = .noError ∧ s.dnode ≠ s.arena.root
  · simp only [decDone, transfer_err, transfer_dnode, transfer_arena, eq_true h, if_true]
    rfl
  · simp only [decDone, transfer_err, transfer_dnode, transfer_arena, eq_false h, if_false]
    rfl

variable {n}

/-- A byte pushed at the tail of OUTQ does not meet the bytes popped at its head. -/
theorem pushOut_transfer {s : State} (b : Byte) (hn : n ≤ s.outq.length) :
    (s.transfer bytes n words).pushOut b = (s.pushOut b).transfer bytes n words := by
  simp [State.pushOut, State.transfer, List.drop_append_of_le_length hn]

theorem encEmit_transfer {s : State} (hn : n ≤ s.outq.length) :
    encEmit (s.transfer bytes n words) = (encEmit s).transfer bytes n words := by
  rw [encEmit, pushOut_transfer bytes words _ hn]
  rfl

theorem encDone_transfer {s : State} (hn : n ≤ s.outq.length) :
    encDone (s.transfer bytes n words) = (encDone s).transfer bytes n words := by
  by_cases h : s.err = .noError ∧ s.pb ≠ []
  · simp only [encDone, transfer_err, transfer_pb, eq_true h, if_true, pushOut_transfer bytes words _ hn]
    rfl
  · simp only [encDone, transfer_err, transfer_pb, eq_false h, if_false]
    rfl

theorem decWalk_transfer {s t : State} (hn : n ≤ s.outq.length) (h : decWalk s = .next t) :
    decWalk (s.transfer bytes n words) = .next (t.transfer bytes n words) := by
  simp only [decWalk, transfer_dbuf, transfer_arena, transfer_dnode] at h ⊢
  split at h
  · cases h
    rfl
  · rename_i bit rest hd
    split at h <;> cases h
    · rfl
    · exact congrArg (fun u : State => Host.Outcome.next { u with dnode := s.arena.root })
        (pushOut_transfer (s := { s with dbuf := rest }) bytes words _ hn)
    · rfl

/-- Every core step but FLUSH_EXEC commutes with a transfer that finds its bytes in OUTQ. -/
theorem CoreStep.perform_transfer {c : CoreStep} {s t : State} (hc : c ≠ .flushExec) (he : c.enabled s = true)
    (hn : n ≤ s.outq.length) (h : c.perform s = .next t) :
    c.perform (s.transfer bytes n words) = .next (t.transfer bytes n words) := by
  cases c with
  | flushExec => exact absurd rfl hc
  | gencodesExec => exact gencodesExec_transfer bytes n words h
  | decWalk => exact decWalk_transfer bytes words hn h
  | nopExec => cases h; rfl
  | clrfreqExec => cases h; rfl
  | countDone => cases h; rfl
  | countByte =>
    cases h
    exact congrArg Host.Outcome.next
      (consume_transfer bytes n words (inq_of_countByte he) (countSymbol_transfer bytes n words))
  | buildExec => cases h; exact congrArg Host.Outcome.next (buildExec_transfer bytes n words s)
  | encConsume =>
    cases h
    exact congrArg Host.Outcome.next
      (consume_transfer bytes n words (inq_of_encConsume he) (encodeSymbol_transfer bytes n words))
  | decLoad =>
    cases h
    exact congrArg Host.Outcome.next
      (consume_transfer bytes n words (inq_of_decLoad he) fun b t => loadByte_transfer bytes n words b t)
  | encEmit => cases h; exact congrArg Host.Outcome.next (encEmit_transfer bytes words hn)
  | encDone => cases h; exact congrArg Host.Outcome.next (encDone_transfer bytes words hn)
  | decDone => cases h; exact congrArg Host.Outcome.next (decDone_transfer bytes n words s)

end

/-! ### The transfers on the core's turn -/

/-- R100: OP names no transaction. -/
theorem coreInstr_ne_bus {s : State} {i : Instr} (h : s.coreInstr = some i) (a : Addr) (d : Word) :
    i ≠ .rd a d ∧ i ≠ .wr a d := by
  unfold State.coreInstr at h
  split at h
  · split at h
    · rename_i hd
      cases h
      rcases decodeCmd_ok hd with ⟨-, rfl⟩ | ⟨-, -, hi⟩
      · exact ⟨by simp, by simp⟩
      · exact hi a d
    · cases h
  · cases h

/-- On the core's turn a running command that changes the state performs one enabled core step of its own. -/
theorem coreStep_of_exec {s t : State} {i : Instr} (ha : s.agent = .core) (hi : s.coreInstr = some i)
    (h : exec i s = .next t) (hne : t ≠ s) :
    ∃ c : CoreStep, i = c.instr ∧ c.enabled s = true ∧ c.perform s = .next t := by
  rcases coreTurn_cases ha (fun a d => (coreInstr_ne_bus hi a d).1) (fun a d => (coreInstr_ne_bus hi a d).2) with
    ⟨c, hc, hp⟩ | hold
  · have hci := CoreStep.coreInstr_of_enabled hc
    rw [hi, Option.some.injEq] at hci
    exact ⟨c, hci, hc, hp ▸ h⟩
  · rw [hold, Host.Outcome.next.injEq] at h
    exact absurd h.symm hne

/-- R91: the command on the core's turn after a transfer is the command before it, with the transfer made. -/
theorem exec_transfer {s t : State} {c : CoreStep} (ha : s.agent = .core) (hc : c ≠ .flushExec)
    (he : c.enabled s = true) (h : c.perform s = .next t) (bytes : List Byte) {n : Nat} (words : List Word)
    (hn : n ≤ s.outq.length) :
    exec c.instr (s.transfer bytes n words) = .next (t.transfer bytes n words) :=
  (CoreStep.exec_of_enabled (s := s.transfer bytes n words) ha (CoreStep.enabled_transfer bytes n words he)).trans
    (CoreStep.perform_transfer bytes words hc he hn h)

/-! ### What a core step leaves of the FIFOs (R13) -/

/-- INQ is no longer than before, and the bytes of OUTQ stand in front of those pushed. -/
def FifosServed (s t : State) : Prop := t.inq.length ≤ s.inq.length ∧ s.outq <+: t.outq

theorem FifosServed.of_eq {s t : State} (hi : t.inq = s.inq) (ho : t.outq = s.outq) : FifosServed s t :=
  ⟨hi ▸ Nat.le_refl _, ho ▸ List.prefix_rfl⟩

theorem FifosServed.of_push {s t : State} {b : Byte} (hi : t.inq = s.inq) (ho : t.outq = s.outq ++ [b]) :
    FifosServed s t :=
  ⟨hi ▸ Nat.le_refl _, ho ▸ List.prefix_append _ _⟩

theorem consume_fifosServed {f : Byte → State → State}
    (hf : ∀ b s, (f b s).inq = s.inq ∧ (f b s).outq = s.outq) (s : State) : FifosServed s (s.consume f) := by
  cases hq : s.inq with
  | nil => rw [consume_nil f hq]; exact .of_eq rfl rfl
  | cons b q =>
    have shorter {t : State} (hi : t.inq = q) (ho : t.outq = s.outq) : FifosServed s t :=
      ⟨by simp [hi, hq], ho ▸ List.prefix_rfl⟩
    rw [consume_cons f hq]
    split
    · obtain ⟨hi, ho⟩ := hf b { s with inq := q, jobRem := s.jobRem - 1 }
      exact shorter hi ho
    · exact shorter rfl rfl

theorem countSymbol_fifos (b : Byte) (s : State) :
    (countSymbol b s).inq = s.inq ∧ (countSymbol b s).outq = s.outq := by
  unfold countSymbol
  split <;> exact ⟨rfl, rfl⟩

theorem encodeSymbol_fifos (b : Byte) (s : State) :
    (encodeSymbol b s).inq = s.inq ∧ (encodeSymbol b s).outq = s.outq := by
  unfold encodeSymbol
  split <;> exact ⟨rfl, rfl⟩

theorem buildExec_fifosServed (s : State) : FifosServed s (buildExec s) := by
  simp only [buildExec]
  split <;> exact .of_eq rfl rfl

theorem gencodesExec_fifosServed {s t : State} (h : gencodesExec s = .next t) : FifosServed s t := by
  unfold gencodesExec at h
  split at h
  · cases h
    exact .of_eq rfl rfl
  · split at h <;> cases h
    exact .of_eq rfl rfl

theorem encDone_fifosServed (s : State) : FifosServed s (encDone s) := by
  simp only [encDone]
  split
  · exact .of_push rfl rfl
  · exact .of_eq rfl rfl

theorem decWalk_fifosServed {s t : State} (h : decWalk s = .next t) : FifosServed s t := by
  unfold decWalk at h
  split at h
  · cases h
    exact .of_eq rfl rfl
  · dsimp only at h
    split at h <;> cases h
    · exact .of_eq rfl rfl
    · exact .of_push rfl rfl
    · exact .of_eq rfl rfl

theorem decDone_fifosServed (s : State) : FifosServed s (decDone s) := by
  simp only [decDone]
  split <;> exact .of_eq rfl rfl

theorem CoreStep.perform_fifosServed {c : CoreStep} {s t : State} (hc : c ≠ .flushExec)
    (h : c.perform s = .next t) : FifosServed s t := by
  cases c with
  | flushExec => exact absurd rfl hc
  | gencodesExec => exact gencodesExec_fifosServed h
  | decWalk => exact decWalk_fifosServed h
  | nopExec => cases h; exact .of_eq rfl rfl
  | clrfreqExec => cases h; exact .of_eq rfl rfl
  | countByte => cases h; exact consume_fifosServed countSymbol_fifos s
  | countDone => cases h; exact .of_eq rfl rfl
  | buildExec => cases h; exact buildExec_fifosServed s
  | encConsume => cases h; exact consume_fifosServed encodeSymbol_fifos s
  | encEmit => cases h; exact .of_push rfl rfl
  | encDone => cases h; exact encDone_fifosServed s
  | decLoad => cases h; exact consume_fifosServed (f := loadByte) (fun _ _ => ⟨rfl, rfl⟩) s
  | decDone => cases h; exact decDone_fifosServed s

end Sys2Proof.Machine

open Sys2Proof Sys2Proof.Machine

/-- Settles O56: both transfers are `State.transfer`, and `exec_transfer` moves it across the core step. -/
theorem hostTransfersCommuteWithCoreSteps : Obligations.HostTransfersCommuteWithCoreSteps := by
  intro s t i ha hi hop h hne
  obtain ⟨c, rfl, hc, hp⟩ := coreStep_of_exec ha hi h hne
  have hf : c ≠ .flushExec := by
    rintro rfl
    exact hop ((running_iff s opFlush).1 (CoreStep.running_of_enabled hc)).2
  obtain ⟨hin, r, hout⟩ := CoreStep.perform_fifosServed hf hp
  obtain ⟨hdepth, -⟩ := perform_sameDepths hp
  refine ⟨fun v hroom => ?_, fun hne => ?_⟩
  · have hroom' : t.inq.length < t.inDepth.val := by rw [hdepth]; omega
    exact ⟨_, _, exec_push v hroom, exec_push v hroom', exec_transfer ha hf hc hp _ _ (Nat.zero_le _)⟩
  · obtain ⟨b, q, hq⟩ := List.exists_cons_of_ne_nil hne
    have hq' : t.outq = b :: (q ++ r) := by rw [← hout, hq]; rfl
    exact ⟨_, _, exec_pop hq, exec_pop hq', exec_transfer ha hf hc hp _ _ (by simp [hq])⟩
end

section
/-! STATUS as read, writes to the configuration registers, and the reset state (10_state.md R22 to R24, R44). -/

namespace Sys2Proof.Machine

/-! ### STATUS as read (R22, R23) -/

/-- Bits 9:0 of STATUS: the six stored flags, then the four derived ones. -/
theorem statusWord_flags (s : State) :
    s.statusWord.getLsbD 0 = s.busy ∧ s.statusWord.getLsbD 1 = s.treeValid ∧
    s.statusWord.getLsbD 2 = s.codesValid ∧ s.statusWord.getLsbD 3 = s.done ∧
    s.statusWord.getLsbD 4 = s.cmdDropped ∧ s.statusWord.getLsbD 5 = s.inOvf ∧
    s.statusWord.getLsbD 6 = s.inFull ∧ s.statusWord.getLsbD 7 = s.inEmpty ∧
    s.statusWord.getLsbD 8 = s.outFull ∧ s.statusWord.getLsbD 9 = s.outEmpty := by
  simp only [State.statusWord, BitVec.getLsbD_append]
  simp

/-- STATUS as a number: LASTCMD at bit 16 and the error code at bit 12, above ten bits of flags. -/
theorem statusWord_toNat (s : State) :
    ∃ flags < 2 ^ 10, s.statusWord.toNat = s.lastcmd.toNat * 2 ^ 16 + s.err.code.toNat * 2 ^ 12 + flags := by
  refine ⟨(BitVec.ofBool s.outEmpty ++ BitVec.ofBool s.outFull ++ BitVec.ofBool s.inEmpty ++
    BitVec.ofBool s.inFull ++ BitVec.ofBool s.inOvf ++ BitVec.ofBool s.cmdDropped ++ BitVec.ofBool s.done ++
    BitVec.ofBool s.codesValid ++ BitVec.ofBool s.treeValid ++ BitVec.ofBool s.busy).toNat, BitVec.isLt _, ?_⟩
  simp only [State.statusWord, toNat_append_fields, BitVec.toNat_ofNat]
  omega

/-- R22: the two fields of STATUS above the flags, and the reserved bits. -/
theorem statusWord_fields (s : State) :
    s.statusWord.extractLsb' 10 2 = 0#2 ∧ s.statusWord.extractLsb' 20 12 = 0#12 ∧
      s.statusWord.extractLsb' 12 4 = s.err.code ∧ s.statusWord.extractLsb' 16 4 = s.lastcmd := by
  obtain ⟨flags, hlt, hw⟩ := statusWord_toNat s
  have hc := s.lastcmd.isLt
  have he := s.err.code.isLt
  refine ⟨?_, ?_, ?_, ?_⟩ <;> apply BitVec.eq_of_toNat_eq <;>
    simp only [BitVec.extractLsb'_toNat, Nat.shiftRight_eq_div_pow, hw, BitVec.toNat_ofNat] <;> omega

theorem inFull_iff (s : State) : s.inFull = true ↔ s.inq.length = s.inDepth.val := decide_eq_true_iff
theorem outFull_iff (s : State) : s.outFull = true ↔ s.outq.length = s.outDepth.val := decide_eq_true_iff
theorem inEmpty_iff (s : State) : s.inEmpty = true ↔ s.inq = [] := by simp [State.inEmpty]
theorem outEmpty_iff (s : State) : s.outEmpty = true ↔ s.outq = [] := by simp [State.outEmpty]

/-- R9: a depth is at least 1, so no empty FIFO is full. -/
theorem not_empty_of_full {q : List Byte} {d : Depth} (h : q.length = d.val) : q ≠ [] := by
  rintro rfl
  exact absurd h.symm (Nat.ne_of_gt (Depth.val_pos d))

/-! ### The halves of a 64-bit register, as numbers (R51) -/

theorem setLo32_eq (x : BitVec 64) (v : Word) :
    setLo32 x v = BitVec.ofNat 64 (x.toNat / 2 ^ 32 * 2 ^ 32 + v.toNat) := by
  rw [← setLo32_toNat, BitVec.ofNat_toNat, BitVec.setWidth_eq]

theorem setHi32_eq (x : BitVec 64) (v : Word) :
    setHi32 x v = BitVec.ofNat 64 (v.toNat * 2 ^ 32 + x.toNat % 2 ^ 32) := by
  rw [← setHi32_toNat, BitVec.ofNat_toNat, BitVec.setWidth_eq]

end Sys2Proof.Machine

open Sys2Proof Sys2Proof.Machine

/-- Settles O44: the flags bit by bit, the fields from STATUS as a number, and no FIFO of depth 0. -/
theorem statusWordLayout : Obligations.StatusWordLayout := by
  intro s
  obtain ⟨busy, tree, codes, done, dropped, ovf, inFull, inEmpty, outFull, outEmpty⟩ := statusWord_flags s
  obtain ⟨reserved, reserved', err, lastcmd⟩ := statusWord_fields s
  rw [inFull, inEmpty, outFull, outEmpty, inFull_iff, inEmpty_iff, outFull_iff, outEmpty_iff, done]
  refine ⟨busy, tree, codes, rfl, dropped, ovf, .rfl, .rfl, .rfl, .rfl, reserved, reserved', ?_, lastcmd,
    fun ⟨hf, he⟩ => not_empty_of_full hf he, fun ⟨hf, he⟩ => not_empty_of_full hf he, rfl⟩
  rw [err]
  cases s.err <;> rfl

/-- Settles O46: the write of each of the five addresses, by its target. -/
theorem configurationWrites : Obligations.ConfigurationWrites := by
  intro s v
  refine ⟨?_, fun hb => ?_, fun hb => ?_⟩
  · simp [exec_wr, busWrite_eq v target_irqen, writeTarget]
  · simp [exec_wr, busWrite_eq v target_inlenLo, busWrite_eq v target_inlenHi, busWrite_eq v target_bitcntLo,
      busWrite_eq v target_bitcntHi, writeTarget, hb, setLo32_eq, setHi32_eq]
  · simp [exec_wr, busWrite_eq v target_inlenLo, busWrite_eq v target_inlenHi, busWrite_eq v target_bitcntLo,
      busWrite_eq v target_bitcntHi, writeTarget, hb]

/-- Settles O58: SOFTRESET of the reset state is the reset state. -/
theorem resetIsSound : Obligations.ResetIsSound := inv_softreset State.reset
end

section
/-! The shape of a built tree (42_tree_builder.md R111, R116, R118): what every merge keeps beyond `Shape`, namely
that the queue's weights still add up to the same number and that an entry has a parent exactly when it has left
the queue. -/

namespace Sys2Proof.Machine

/-! ### The weight in the queue -/

/-- The weights of the live entries as an exact sum. -/
def Arena.liveWeight (a : Arena) : Nat := ∑ i : Fin 511, if a.live[i] then a.node[i].weight.toNat else 0

theorem liveWeight_zero : Arena.zero.liveWeight = 0 := by
  simp [Arena.liveWeight, Arena.zero]

theorem liveWeight_append {a : Arena} (n : Node) (h : a.nnodes.toNat < 511) (hl : a.live[a.nnodes.toNat] = false) :
    (a.append n).liveWeight = a.liveWeight + n.weight.toNat := by
  have entry (i : Fin 511) :
      (if (a.append n).live[i] then (a.append n).node[i].weight.toNat else 0) =
        (if a.live[i] then a.node[i].weight.toNat else 0) + if i = ⟨a.nnodes.toNat, h⟩ then n.weight.toNat else 0 := by
    simp only [Fin.getElem_fin, append_live n h, append_node n h, Fin.ext_iff]
    by_cases hi : i.val = a.nnodes.toNat
    · simp [hi, hl]
    · simp [hi, Ne.symm hi]
  simp only [Arena.liveWeight, entry, Finset.sum_add_distrib, Finset.sum_ite_eq', Finset.mem_univ, if_true]

theorem liveWeight_extractMin {a a' : Arena} {x : Entry} (h : a.extractMin = some (x, a')) :
    a'.liveWeight + x.weight.toNat = a.liveWeight := by
  obtain ⟨hx, -, rfl⟩ := extractMin_spec h
  obtain ⟨hlt, hl, hw⟩ := (mem_queue a x).1 hx
  have entry (i : Fin 511) :
      (if a.live[i] then a.node[i].weight.toNat else 0) =
        (if (a.live.setIfInBounds x.idx false)[i] then a.node[i].weight.toNat else 0) +
          if i = ⟨x.idx, hlt⟩ then x.weight.toNat else 0 := by
    simp only [Fin.getElem_fin, Vector.getElem_setIfInBounds, Fin.ext_iff]
    by_cases hi : i.val = x.idx
    · simp [hi, hl, hw]
    · simp [hi, Ne.symm hi]
  simp only [Arena.liveWeight, entry, Finset.sum_add_distrib, Finset.sum_ite_eq', Finset.mem_univ, if_true]

/-- R112: the leaves carry the frequencies of their symbols. -/
theorem liveWeight_insertLeaves (freq : Vector (BitVec 32) 256) {n : Nat} (hn : n ≤ 256) :
    (insertLeaves freq n).liveWeight = ∑ k ∈ Finset.range n, (freq[k]?.getD 0).toNat := by
  induction n with
  | zero => exact liveWeight_zero
  | succ n ih =>
    have leaves := leaves_insertLeaves freq n (by omega)
    have count := presentCount_le freq n
    have hnn := leaves.nn
    have room : (insertLeaves freq n).nnodes.toNat < 511 := by omega
    have dead : (insertLeaves freq n).live[(insertLeaves freq n).nnodes.toNat] = false := by
      rw [Bool.eq_false_iff, ne_eq, leaves.live _ room, hnn]
      exact Nat.lt_irrefl _
    rw [Finset.sum_range_succ, ← ih (by omega), insertLeaves]
    by_cases hf : freq[n]?.getD 0 = 0
    · rw [if_neg (not_not.2 hf), hf]
      simp
    · have hw : ((freq[n]?.getD 0).setWidth 40).toNat = (freq[n]?.getD 0).toNat := by
        rw [BitVec.toNat_setWidth]
        omega
      simp only [ne_eq, hf, not_false_eq_true, if_true, liveWeight_append _ room dead, Node.leaf, hw]

theorem liveWeight_insertLeaves_lt (freq : Vector (BitVec 32) 256) : (insertLeaves freq 256).liveWeight < 2 ^ 40 := by
  have h := Finset.sum_le_card_nsmul (Finset.range 256) (fun k => (freq[k]?.getD 0).toNat) (2 ^ 32 - 1) fun k _ => by
    have := (freq[k]?.getD 0).isLt
    omega
  rw [Finset.card_range, smul_eq_mul] at h
  rw [liveWeight_insertLeaves freq (Nat.le_refl 256)]
  omega

/-! ### One merge (R111) -/

/-- R111: `b` is `a` with its live entries `x` and `y` joined under a new entry, whose weight is their exact sum. -/
structure Joined (a b : Arena) (x y : Nat) : Prop where
  room : a.nnodes.toNat < 511
  x_lt : x < a.nnodes.toNat
  y_lt : y < a.nnodes.toNat
  ne : x ≠ y
  live_x : a.live[x] = true
  live_y : a.live[y] = true
  nnodes : b.nnodes.toNat = a.nnodes.toNat + 1
  live : ∀ i (h : i < 511), b.live[i] = true ↔ i = a.nnodes.toNat ∨ (a.live[i] = true ∧ i ≠ x ∧ i ≠ y)
  old : ∀ i (h : i < 511), i ≠ a.nnodes.toNat → b.node[i] = a.node[i]
  new : b.node[a.nnodes.toNat] =
    Node.internal (a.node[x].weight + a.node[y].weight) (BitVec.ofNat 9 x) (BitVec.ofNat 9 y)
  weight : (a.node[x].weight + a.node[y].weight).toNat = a.node[x].weight.toNat + a.node[y].weight.toNat
  liveWeight : b.liveWeight = a.liveWeight

theorem Shape.joined {N : Nat} {a : Arena} (h : Shape N a) (hq : 2 ≤ a.queue.length) (hw : a.liveWeight < 2 ^ 40) :
    ∃ x y, Joined a a.merge x y := by
  obtain ⟨x, a₁, hx⟩ := extractMin_some (a := a) (by omega)
  have len₁ := queue_length_extractMin hx
  obtain ⟨y, a₂, hy⟩ := extractMin_some (a := a₁) (by omega)
  have weight₁ := liveWeight_extractMin hx
  have weight₂ := liveWeight_extractMin hy
  obtain ⟨mx, -, e₁⟩ := extractMin_spec hx
  obtain ⟨my, -, e₂⟩ := extractMin_spec hy
  obtain ⟨my, hne⟩ := (mem_queue_extractMin hx y).1 my
  have hne : x.idx ≠ y.idx := fun he => hne (queue_index_inj my mx he.symm)
  obtain ⟨xlt, xlive, xw⟩ := (mem_queue a x).1 mx
  obtain ⟨ylt, ylive, yw⟩ := (mem_queue a y).1 my
  have x_lt := h.live_lt _ xlt xlive
  have y_lt := h.live_lt _ ylt ylive
  have le := h.le
  have cons := h.cons
  have hnn : a₂.nnodes = a.nnodes := by rw [e₂, e₁]
  have hnode : a₂.node = a.node := by rw [e₂, e₁]
  have hlive (i : Nat) (hi : i < 511) : a₂.live[i] = true ↔ a.live[i] = true ∧ i ≠ x.idx ∧ i ≠ y.idx := by
    simp only [e₂, e₁, Vector.getElem_setIfInBounds]
    grind
  have room : a₂.nnodes.toNat < 511 := by rw [hnn]; omega
  have dead : a₂.live[a₂.nnodes.toNat] = false := by
    rw [Bool.eq_false_iff, ne_eq, hlive _ room]
    rintro ⟨hl, -⟩
    have := h.live_lt _ room hl
    rw [hnn] at this
    omega
  have sum : (x.weight + y.weight).toNat = x.weight.toNat + y.weight.toNat := by
    rw [BitVec.toNat_add]
    omega
  refine ⟨x.idx, y.idx, ?_⟩
  rw [merge_eq hx hy]
  exact
    { room := hnn ▸ room
      x_lt, y_lt, ne := hne, live_x := xlive, live_y := ylive
      nnodes := by rw [append_nnodes _ room, hnn]
      live := fun i hi => by
        rw [append_live _ room i hi, hnn, ← hlive i hi]
        grind
      old := fun i hi hin => by simp only [append_node _ room i hi, hnn, if_neg (Ne.symm hin), hnode]
      new := by rw [append_node _ room _ (hnn ▸ room), if_pos (congrArg BitVec.toNat hnn), xw, yw]
      weight := by rw [← xw, ← yw, sum]
      liveWeight := by
        rw [liveWeight_append _ room dead]
        simp only [Node.internal, sum]
        omega }

/-! ### The forest that the merges keep (R118) -/

/-- `i` is an internal entry of `a` with `c` among its children. -/
def Arena.ParentOf (a : Arena) (N : Nat) (c : BitVec 9) (i : Nat) : Prop :=
  ∃ h : i < 511, N ≤ i ∧ i < a.nnodes.toNat ∧ ((a.node[i]).left = c ∨ (a.node[i]).right = c)

/-- R31: an internal record over two entries of the arena, with the sum of their weights. -/
def Arena.JoinsTwo (a : Arena) (n : Node) : Prop :=
  ∃ (hl : n.left.toNat < 511) (hr : n.right.toNat < 511),
    n.left ≠ n.right ∧ n.weight.toNat = a.node[n.left.toNat].weight.toNat + a.node[n.right.toNat].weight.toNat

/-- What every merge keeps of an arena over `N` leaves, beside its `Shape`. -/
structure Forest (N : Nat) (a : Arena) : Prop where
  shape : Shape N a
  bounded : a.liveWeight < 2 ^ 40
  last_live : ∀ i (h : i < 511), i + 1 = a.nnodes.toNat → a.live[i] = true
  joins : ∀ i (h : i < 511), N ≤ i → i < a.nnodes.toNat → a.JoinsTwo a.node[i]
  parent_unique : ∀ c i k, a.ParentOf N c i → a.ParentOf N c k → i = k
  dead_iff : ∀ (c : BitVec 9) (h : c.toNat < 511), c.toNat < a.nnodes.toNat →
    (a.live[c.toNat] = false ↔ ∃ i, a.ParentOf N c i)

section
variable {N : Nat} {a b : Arena} {x y : Nat}

/-- A child stands below its parent. -/
theorem Shape.child_lt (h : Shape N a) {c : BitVec 9} {i : Nat} (hp : a.ParentOf N c i) :
    c.toNat < i ∧ i < a.nnodes.toNat := by
  obtain ⟨hi, hN, hn, hc⟩ := hp
  obtain ⟨-, hl, hr⟩ := h.inner i hi hN hn
  rcases hc with rfl | rfl
  · exact ⟨hl, hn⟩
  · exact ⟨hr, hn⟩

/-- An entry still in the queue has no parent. -/
theorem Forest.no_parent_of_live (h : Forest N a) {c : BitVec 9} (hc : c.toNat < 511)
    (hl : a.live[c.toNat] = true) (i : Nat) : ¬a.ParentOf N c i := fun hp => by
  have hlt := h.shape.live_lt _ hc hl
  simp [(h.dead_iff c hc hlt).2 ⟨i, hp⟩] at hl

theorem ofNat_idx_eq_iff {c : BitVec 9} (hx : x < 511) : BitVec.ofNat 9 x = c ↔ c.toNat = x := by
  rw [← BitVec.toNat_inj, BitVec.toNat_ofNat]
  omega

/-- After a merge the parents are those from before and the new entry, over the two entries it joins. -/
theorem Joined.parentOf_iff (j : Joined a b x y) (hN : N ≤ a.nnodes.toNat) (c : BitVec 9) (i : Nat) :
    b.ParentOf N c i ↔ a.ParentOf N c i ∨ (i = a.nnodes.toNat ∧ (c.toNat = x ∨ c.toNat = y)) := by
  have room := j.room
  have x_lt := j.x_lt
  have y_lt := j.y_lt
  have nnodes := j.nnodes
  by_cases hi : i = a.nnodes.toNat
  · subst hi
    have new := j.new
    simp only [Arena.ParentOf, new, Node.internal, ofNat_idx_eq_iff (x := x) (c := c) (by omega),
      ofNat_idx_eq_iff (x := y) (c := c) (by omega)]
    grind
  · have old (h : i < 511) := j.old i h hi
    simp only [Arena.ParentOf, nnodes]
    grind

theorem Joined.joinsTwo_old (j : Joined a b x y) {n : Node} (hl : n.left.toNat < a.nnodes.toNat)
    (hr : n.right.toNat < a.nnodes.toNat) (h : a.JoinsTwo n) : b.JoinsTwo n := by
  obtain ⟨hl', hr', ne, weight⟩ := h
  exact ⟨hl', hr', ne, by rw [j.old _ hl' (Nat.ne_of_lt hl), j.old _ hr' (Nat.ne_of_lt hr), weight]⟩

theorem Joined.joinsTwo_new (j : Joined a b x y) : b.JoinsTwo (b.node[a.nnodes.toNat]'j.room) := by
  have room := j.room
  have x_lt := j.x_lt
  have y_lt := j.y_lt
  have hx : (BitVec.ofNat 9 x).toNat = x := by rw [BitVec.toNat_ofNat]; omega
  have hy : (BitVec.ofNat 9 y).toNat = y := by rw [BitVec.toNat_ofNat]; omega
  rw [j.new]
  refine ⟨by simp only [Node.internal]; omega, by simp only [Node.internal]; omega, ?_, ?_⟩
  · intro he
    have := congrArg BitVec.toNat he
    exact j.ne (hx ▸ hy ▸ this)
  · simp only [Node.internal, hx, hy, j.weight, j.old x (by omega) (Nat.ne_of_lt x_lt),
      j.old y (by omega) (Nat.ne_of_lt y_lt)]

/-- The two entries that a merge joins have no parent before it. -/
theorem Forest.joined_orphan (h : Forest N a) (j : Joined a b x y) {c : BitVec 9} (hc : c.toNat = x ∨ c.toNat = y)
    (i : Nat) : ¬a.ParentOf N c i := by
  have room := j.room
  have x_lt := j.x_lt
  have y_lt := j.y_lt
  rcases hc with rfl | rfl
  · exact h.no_parent_of_live (by omega) j.live_x i
  · exact h.no_parent_of_live (by omega) j.live_y i

theorem Forest.joined_joins (h : Forest N a) (j : Joined a b x y) (i : Nat) (hi : i < 511) (hN : N ≤ i)
    (hn : i < b.nnodes.toNat) : b.JoinsTwo b.node[i] := by
  have nnodes := j.nnodes
  by_cases he : i = a.nnodes.toNat
  · subst he
    exact j.joinsTwo_new
  · have hn' : i < a.nnodes.toNat := by omega
    obtain ⟨-, hl, hr⟩ := h.shape.inner i hi hN hn'
    rw [j.old i hi he]
    exact j.joinsTwo_old (by omega) (by omega) (h.joins i hi hN hn')

theorem Forest.joined_parent_unique (h : Forest N a) (j : Joined a b x y) (c : BitVec 9) (i k : Nat)
    (hi : b.ParentOf N c i) (hk : b.ParentOf N c k) : i = k := by
  have parents := j.parentOf_iff h.shape.lo c
  rcases (parents i).1 hi with hi | ⟨ei, hi⟩ <;> rcases (parents k).1 hk with hk | ⟨ek, hk⟩
  · exact h.parent_unique c i k hi hk
  · exact absurd hi (h.joined_orphan j hk i)
  · exact absurd hk (h.joined_orphan j hi k)
  · exact ei.trans ek.symm

/-- The new entry is live and no child; the two it joins leave the queue and become its children. -/
theorem Forest.joined_dead_iff (h : Forest N a) (j : Joined a b x y) (c : BitVec 9) (hc : c.toNat < 511)
    (hn : c.toNat < b.nnodes.toNat) : b.live[c.toNat] = false ↔ ∃ i, b.ParentOf N c i := by
  have x_lt := j.x_lt
  have y_lt := j.y_lt
  have nnodes := j.nnodes
  simp only [j.parentOf_iff h.shape.lo c, exists_or, ← Bool.not_eq_true, j.live _ hc]
  by_cases he : c.toNat = a.nnodes.toNat
  · have none (i : Nat) : ¬a.ParentOf N c i := fun hp => by
      have := h.shape.child_lt hp
      omega
    have joins : ¬(c.toNat = x ∨ c.toNat = y) := by omega
    simp [he, none, he ▸ joins]
  · rw [← h.dead_iff c hc (by omega)]
    cases a.live[c.toNat] <;> simp [he, or_iff_not_imp_left]

/-- R111: a merge keeps the forest. -/
theorem Forest.joined (h : Forest N a) (j : Joined a b x y) (hs : Shape N b) : Forest N b where
  shape := hs
  bounded := j.liveWeight.trans_lt h.bounded
  last_live := fun i hi hn => (j.live i hi).2 (.inl (Nat.succ.inj (hn.trans j.nnodes)))
  joins := h.joined_joins j
  parent_unique := h.joined_parent_unique j
  dead_iff := h.joined_dead_iff j

end

/-! ### From the leaves to the root (R114, R115) -/

theorem Forest.merge {N : Nat} {a : Arena} (h : Forest N a) (hq : 2 ≤ a.queue.length) : Forest N a.merge := by
  obtain ⟨x, y, j⟩ := h.shape.joined hq h.bounded
  exact h.joined j (h.shape.merge hq).1

/-- R114: what every merge keeps, the whole loop keeps. -/
theorem mergeWhile_induct {P : Arena → Prop} (hstep : ∀ a, P a → 2 ≤ a.queue.length → P a.merge) (n : Nat)
    {a : Arena} (h : P a) : P (mergeWhile n a) := by
  induction n generalizing a with
  | zero => exact h
  | succ n ih =>
    simp only [mergeWhile]
    split
    · exact ih (hstep a h (by omega))
    · exact h

theorem Leaves.forest {N : Nat} {a : Arena} (h : Leaves N a) (hN : 1 ≤ N) (hw : a.liveWeight < 2 ^ 40) :
    Forest N a := by
  have nn := h.nn
  have none (c : BitVec 9) (i : Nat) : ¬a.ParentOf N c i := fun ⟨_, hi, hn, _⟩ => by omega
  exact
    { shape := h.shape hN
      bounded := hw
      last_live := fun i hi hn => (h.live i hi).2 (by omega)
      joins := fun i hi hl hn => by omega
      parent_unique := fun c i k hi => absurd hi (none c i)
      dead_iff := fun c hc hn => by simp [none, (h.live _ hc).2 (by omega)] }

theorem Forest.withRoot {N : Nat} {a : Arena} (h : Forest N a) (r : BitVec 9) : Forest N { a with root := r } :=
  ⟨h.shape.withRoot r, h.bounded, h.last_live, h.joins, h.parent_unique, h.dead_iff⟩

/-- R114: the tree of two or more symbols is what the merges leave, under its last entry. -/
theorem buildTree_merged {freq : Vector (BitVec 32) 256} (h : 2 ≤ nsym freq) :
    ∃ r, buildTree freq = { mergeWhile 511 (insertLeaves freq 256) with root := r } := by
  have nn := (leaves_insertLeaves freq 256 (Nat.le_refl _)).nn
  rw [← nsym_eq_presentCount] at nn
  have many (v : BitVec 10) (hv : v.toNat < 2) : (insertLeaves freq 256).nnodes ≠ v := fun he => by
    rw [he] at nn
    omega
  exact ⟨_, by simp only [buildTree, many 0 (by decide), many 1 (by decide), if_false]; rfl⟩

theorem buildTree_forest {freq : Vector (BitVec 32) 256} (h : 2 ≤ nsym freq) :
    Forest (nsym freq) (buildTree freq) := by
  have leaves := leaves_insertLeaves freq 256 (Nat.le_refl _)
  rw [← nsym_eq_presentCount] at leaves
  obtain ⟨r, hr⟩ := buildTree_merged h
  rw [hr]
  exact (mergeWhile_induct (fun _ => Forest.merge) 511
    (leaves.forest (by omega) (liveWeight_insertLeaves_lt freq))).withRoot r

/-! ### The shape of the tree -/

/-- R118: a tree over `N` leaves, with the synthetic root of R116 over a single one. -/
structure TreeShape (N : Nat) (a : Arena) : Prop where
  root : a.root.toNat + 1 = a.nnodes.toNat
  leaf : ∀ i (h : i < 511), i < N → (a.node[i]).isLeaf = true
  inner : ∀ i (h : i < 511), N ≤ i → i < a.nnodes.toNat →
    (a.node[i]).isLeaf = false ∧
    ∃ (hl : (a.node[i]).left.toNat < i),
      ((a.node[i]).right = 0x1FF ∧ N = 1 ∧ (a.node[i]).weight = a.node[(a.node[i]).left.toNat].weight) ∨
      ∃ (hr : (a.node[i]).right.toNat < i),
        (a.node[i]).left ≠ (a.node[i]).right ∧
        (a.node[i]).weight.toNat =
          a.node[(a.node[i]).left.toNat].weight.toNat + a.node[(a.node[i]).right.toNat].weight.toNat
  parent : ∀ c : BitVec 9, c.toNat < a.root.toNat →
    ∃ i, a.ParentOf N c i ∧ ∀ k, a.ParentOf N c k → k = i
  zero : ∀ i (h : i < 511), a.nnodes.toNat ≤ i → a.node[i] = Node.zero

/-- R116: one symbol. -/
theorem buildTree_one_treeShape {freq : Vector (BitVec 32) 256} (h : nsym freq = 1) :
    TreeShape 1 (buildTree freq) := by
  obtain ⟨e, leaves⟩ := buildTree_one freq h
  rw [e]
  generalize insertLeaves freq 256 = a at leaves
  have node (i : Nat) (hi : i < 511) : a.wrapSingle.node[i] =
      if i = 1 then Node.internal (a.node[0]).weight 0 nullIdx else a.node[i] := by
    simp only [Arena.wrapSingle, Vector.getElem_set]
    grind
  have nnodes : a.wrapSingle.nnodes.toNat = 2 := rfl
  have root : a.wrapSingle.root.toNat = 1 := rfl
  have one (c : BitVec 9) (i : Nat) : a.wrapSingle.ParentOf 1 c i → i = 1 := fun ⟨_, h1, h2, _⟩ => by omega
  refine ⟨rfl, fun i hi h1 => ?_, fun i hi h1 h2 => ?_, fun c hc => ⟨1, ?_, one c⟩, fun i hi h2 => ?_⟩
  · rw [node i hi, if_neg (by omega)]
    exact leaves.leaf i hi h1
  · obtain rfl : i = 1 := by omega
    simp [node, Node.internal]
  · have hc0 : (0 : BitVec 9) = c := BitVec.eq_of_toNat_eq (by rw [root] at hc; simp; omega)
    exact ⟨by omega, by omega, by omega, .inl (by simp [node, Node.internal, hc0])⟩
  · rw [node i hi, if_neg (by omega)]
    exact leaves.zero i hi (by omega)

/-- R115, R118: two or more symbols. The one live entry that is left is the root, so every other has a parent. -/
theorem buildTree_many_treeShape {freq : Vector (BitVec 32) 256} (h : 2 ≤ nsym freq) :
    TreeShape (nsym freq) (buildTree freq) := by
  have forest := buildTree_forest h
  obtain ⟨shape, nnodes, root⟩ := buildTree_shape freq h
  generalize buildTree freq = a at forest shape nnodes root
  have le := shape.le
  have cons := shape.cons
  refine ⟨by omega, shape.leaf, fun i hi hN hn => ?_, fun c hc => ?_, shape.zero⟩
  · obtain ⟨leaf, hl, hr⟩ := shape.inner i hi hN hn
    obtain ⟨_, _, ne, weight⟩ := forest.joins i hi hN hn
    exact ⟨leaf, hl, .inr ⟨hr, ne, weight⟩⟩
  · have dead : a.live[c.toNat] = false := by
      rw [Bool.eq_false_iff]
      intro hl
      have mem (i : Nat) (hi : i < 511) (hl : a.live[i] = true) : ⟨i, a.node[i].weight⟩ ∈ a.queue :=
        (mem_queue a _).2 ⟨hi, hl, rfl⟩
      obtain ⟨e, he⟩ := List.length_eq_one_iff.1 (show a.queue.length = 1 by omega)
      have last := mem a.root.toNat (by omega) (forest.last_live _ (by omega) (by omega))
      have this := mem c.toNat (by omega) hl
      rw [he, List.mem_singleton] at last this
      have := congrArg Entry.idx (this.trans last.symm)
      simp only at this
      omega
    obtain ⟨i, hi⟩ := (forest.dead_iff c (by omega) (by omega)).1 dead
    exact ⟨i, hi, fun k hk => forest.parent_unique c k i hk hi⟩

theorem buildTree_treeShape {freq : Vector (BitVec 32) 256} (h : nsym freq ≠ 0) :
    TreeShape (nsym freq) (buildTree freq) := by
  by_cases h1 : nsym freq = 1
  · rw [h1]
    exact buildTree_one_treeShape h1
  · exact buildTree_many_treeShape (by omega)

/-! ### Depth -/

/-- R118: each edge goes down by at least one index, and only internal entries have edges. -/
theorem TreeShape.follow_length_le {N : Nat} {a : Arena} (t : TreeShape N a) {path : Bits} :
    ∀ {i : BitVec 9} {n : Node}, i.toNat < 511 → i.toNat < a.nnodes.toNat → a.follow i path = some n →
      path.length ≤ i.toNat + 1 - N := by
  induction path with
  | nil => exact fun _ _ _ => Nat.zero_le _
  | cons b path ih =>
    intro i n h511 hn hf
    simp only [Arena.follow, nodeAt_some a i h511] at hf
    generalize hchild : (if b = true then a.node[i.toNat].right else a.node[i.toNat].left) = child at hf
    split at hf
    · cases hf
    · rename_i hc
      simp only [Bool.or_eq_true, beq_iff_eq, not_or] at hc
      obtain ⟨hleaf, hnull⟩ := hc
      have hN : N ≤ i.toNat := by
        by_contra hlt
        exact hleaf (t.leaf _ h511 (by omega))
      obtain ⟨-, hl, hr⟩ := t.inner _ h511 hN hn
      have down : child.toNat < i.toNat := by
        cases b with
        | false => exact hchild ▸ hl
        | true =>
          rcases hr with ⟨hr, -⟩ | ⟨hr, -⟩
          · exact absurd (hchild.symm.trans hr) hnull
          · exact hchild ▸ hr
      have := ih (by omega) (by omega) hf
      rw [List.length_cons]
      omega

/-- R33, R118: the depth of a leaf. -/
theorem buildTree_depth {freq : Vector (BitVec 32) 256} (h : nsym freq ≠ 0) {b : Byte} {path : Bits}
    (hp : (buildTree freq).IsCodeOf b path) : 1 ≤ path.length ∧ path.length ≤ max 1 (nsym freq - 1) := by
  obtain ⟨n, hf, hleaf, -⟩ := hp
  have t := buildTree_treeShape h
  obtain ⟨r, hr, hinner⟩ := buildTree_root_inner freq
  have hroot := (nodeAt_iff _ _).1 ⟨r, hr⟩
  have root := t.root
  have bound := t.follow_length_le hroot (by omega) hf
  refine ⟨?_, ?_⟩
  · cases path with
    | nil =>
      rw [Arena.follow, hr, Option.some.injEq] at hf
      simp [hf, hleaf] at hinner
    | cons b path => simp
  · by_cases h1 : nsym freq = 1
    · obtain ⟨e, -⟩ := buildTree_one freq h1
      have : (buildTree freq).root.toNat = 1 := by rw [e]; rfl
      omega
    · obtain ⟨-, -, hroot⟩ := buildTree_shape freq (by omega)
      omega

end Sys2Proof.Machine

open Sys2Proof Sys2Proof.Machine

/-- Settles O25: `Forest` holds of the leaves and every merge keeps it; the synthetic root is a case of its own. -/
theorem builtTreeShape : Obligations.BuiltTreeShape := by
  intro freq h
  have t := buildTree_treeShape h
  refine ⟨t.root, t.leaf, t.inner, fun c hc => ?_, t.zero, fun b path => buildTree_depth h⟩
  obtain ⟨i, hi, unique⟩ := t.parent c hc
  exact ⟨i, hi, fun k hk hN hn hchild => unique k ⟨hk, hN, hn, hchild⟩⟩
end

section
/-! Who writes what (10_state.md R24 to R30, R34, R43): one inversion lemma for the meaning of an instruction that
names the writer of each table, valid flag and data register. -/

namespace Sys2Proof.Machine

/-! ### The address of a write (R46 to R48) -/

theorem controlTarget_addr {n : Nat} (h : controlTarget n ≠ .reserved) :
    (controlTarget n).addr = some (BitVec.ofNat 13 n) := by
  unfold controlTarget at h ⊢
  split at h
  case h_16 => exact absurd rfl h
  all_goals rfl

/-- R84: an address is the canonical address of what it names. -/
theorem target_addr {a : Addr} (h : target a ≠ .reserved) : (target a).addr = some a := by
  have ha := a.isLt
  have back {n : Nat} (hn : n = a.toNat) : some (BitVec.ofNat 13 n) = some a := by
    rw [hn, BitVec.ofNat_toNat, BitVec.setWidth_eq]
  simp only [target] at h ⊢
  split_ifs at h ⊢ with h1 h2 h3 h4 h5 h6
  · exact (controlTarget_addr h).trans (back rfl)
  · exact back (by simp only [Fin.val_ofNat]; omega)
  · exact back (by simp only [Fin.val_ofNat]; omega)
  · exact absurd rfl h
  · exact back (by simp only [Fin.val_ofNat]; omega)
  · exact back (by simp only [Fin.val_ofNat]; omega)
  · exact absurd rfl h

theorem addr_of_target {a c : Addr} {t : Target} (h : target a = t) (hc : t.addr = some c) : a = c := by
  have hr : target a ≠ .reserved := by
    rintro h0
    rw [← h, h0] at hc
    cases hc
  have := target_addr hr
  rw [h, hc, Option.some.injEq] at this
  exact this.symm

/-! ### The core step behind a command (R91, R100) -/

/-- On the core's turn a command of which no core step is enabled holds. -/
theorem exec_holds {i : Instr} {s : State} (ha : s.agent = .core) (hr : ∀ a d, i ≠ .rd a d) (hw : ∀ a d, i ≠ .wr a d)
    (h : ∀ c : CoreStep, c.instr = i → c.enabled s = false) : exec i s = .next s := by
  have turn (w : Word) (f : State → Result) : byTurn w f s = f s := byTurn_core w f ha
  cases i with
  | nop =>
    have off : nopExecEnabled s = false := h .nopExec rfl
    simp [exec, execNop, turn, off]
  | clrfreq =>
    have off : clrfreqExecEnabled s = false := h .clrfreqExec rfl
    simp [exec, execClrfreq, turn, off]
  | count =>
    have off₁ : countByteEnabled s = false := h .countByte rfl
    have off₂ : countDoneEnabled s = false := h .countDone rfl
    simp [exec, execCount, turn, countStep, off₁, off₂]
  | build =>
    have off : buildExecEnabled s = false := h .buildExec rfl
    simp [exec, execBuild, turn, off]
  | gencodes =>
    have off : gencodesExecEnabled s = false := h .gencodesExec rfl
    simp [exec, execGencodes, turn, off]
  | encode =>
    have off₁ : encConsumeEnabled s = false := h .encConsume rfl
    have off₂ : encEmitEnabled s = false := h .encEmit rfl
    have off₃ : encDoneEnabled s = false := h .encDone rfl
    simp [exec, execEncode, turn, encodeStep, off₁, off₂, off₃]
  | decode =>
    have off₁ : decLoadEnabled s = false := h .decLoad rfl
    have off₂ : decWalkEnabled s = false := h .decWalk rfl
    have off₃ : decDoneEnabled s = false := h .decDone rfl
    simp [exec, execDecode, turn, decodeStep, off₁, off₂, off₃]
  | flush =>
    have off : flushExecEnabled s = false := h .flushExec rfl
    simp [exec, execFlush, turn, off]
  | softreset => simp only [exec, execSoftreset, turn]
  | rd a d => exact absurd rfl (hr a d)
  | wr a d => exact absurd rfl (hw a d)

/-- `exec_cases`, with the core step performed on the core's turn tied to its command. -/
theorem exec_inversion {i : Instr} {s t : State} (h : exec i s = .next t) :
    t = s ∨ (∃ w, t = s.cmdWrite w) ∨
      (s.agent = .core ∧ ∃ c : CoreStep, i = c.instr ∧ c.enabled s = true ∧ c.perform s = .next t) ∨
      (∃ a, t = { (s.busRead a).2 with readLog := (s.busRead a).1 :: (s.busRead a).2.readLog }) ∨
      (∃ a v, i = .wr a v ∧ t = s.busWrite a v) := by
  rcases exec_cases h with ⟨-, w, -, e⟩ | ⟨ha, -⟩ | e | ⟨a, d, -, e⟩ | ⟨a, v, e⟩
  · exact .inr (.inl ⟨w, e⟩)
  · by_cases hr : ∃ a d, i = .rd a d
    · obtain ⟨a, d, rfl⟩ := hr
      rw [exec_rd, Host.Outcome.next.injEq] at h
      exact .inr (.inr (.inr (.inl ⟨a, h.symm⟩)))
    by_cases hw : ∃ a v, i = .wr a v
    · obtain ⟨a, v, rfl⟩ := hw
      rw [exec_wr, Host.Outcome.next.injEq] at h
      exact .inr (.inr (.inr (.inr ⟨a, v, rfl, h.symm⟩)))
    by_cases hc : ∃ c : CoreStep, i = c.instr ∧ c.enabled s = true
    · obtain ⟨c, rfl, hc⟩ := hc
      exact .inr (.inr (.inl ⟨ha, c, rfl, hc, CoreStep.exec_of_enabled ha hc ▸ h⟩))
    · have off (c : CoreStep) (hi : c.instr = i) : c.enabled s = false :=
        Bool.eq_false_iff.2 fun he => hc ⟨c, hi.symm, he⟩
      rw [exec_holds ha (fun a d he => hr ⟨a, d, he⟩) (fun a v he => hw ⟨a, v, he⟩) off, Host.Outcome.next.injEq] at h
      exact .inl h.symm
  · exact .inl e
  · exact .inr (.inr (.inr (.inl ⟨a, e⟩)))
  · exact .inr (.inr (.inr (.inr ⟨a, v, e⟩)))

/-! ### What leaves the tables and the registers alone -/

/-- The tables and the data registers are the same, and no valid flag is newly set. -/
structure Kept (s t : State) : Prop where
  arena : t.arena = s.arena
  codes : t.codes = s.codes
  treeValid : t.treeValid = true → s.treeValid = true
  codesValid : t.codesValid = true → s.codesValid = true
  outlen : t.outlen = s.outlen
  inlen : t.inlen = s.inlen
  bitcnt : t.bitcnt = s.bitcnt
  irqEn : t.irqEn = s.irqEn

theorem Kept.treeValid_false {s t : State} (k : Kept s t) (h : s.treeValid = false) : t.treeValid = false := by
  have := k.treeValid
  rw [h] at this
  simpa using this

theorem Kept.codesValid_false {s t : State} (k : Kept s t) (h : s.codesValid = false) : t.codesValid = false := by
  have := k.codesValid
  rw [h] at this
  simpa using this

theorem cmdWrite_kept (s : State) (w : Word) : s.cmdWrite w = s.softreset ∨ Kept s (s.cmdWrite w) := by
  rcases cmdWrite_cases s w with e | ⟨-, e⟩ | ⟨-, e⟩ | ⟨-, op, -, e⟩ <;> rw [e]
  · exact .inl rfl
  · exact .inr ⟨rfl, rfl, id, id, rfl, rfl, rfl, rfl⟩
  · exact .inr ⟨rfl, rfl, id, id, rfl, rfl, rfl, rfl⟩
  · exact .inr ⟨accept_arena_field s op, accept_codes_field s op, accept_treeValid s op, accept_codesValid s op,
      accept_outlen_field s op, accept_inlen_field s op, accept_bitcnt_field s op, accept_irqEn_field s op⟩

theorem busRead_kept (s : State) (a : Addr) : Kept s (s.busRead a).2 := by
  rcases busRead_state_cases s a with e | ⟨-, b, q, -, e⟩ | e <;> rw [e] <;>
    exact ⟨rfl, rfl, id, id, rfl, rfl, rfl, rfl⟩

theorem consume_kept {f : Byte → State → State} (hf : ∀ b s, Kept s (f b s)) (s : State) : Kept s (s.consume f) := by
  cases hq : s.inq with
  | nil => rw [consume_nil f hq]; exact ⟨rfl, rfl, id, id, rfl, rfl, rfl, rfl⟩
  | cons b q =>
    rw [consume_cons f hq]
    split
    · have k := hf b { s with inq := q, jobRem := s.jobRem - 1 }
      exact ⟨k.arena, k.codes, k.treeValid, k.codesValid, k.outlen, k.inlen, k.bitcnt, k.irqEn⟩
    · exact ⟨rfl, rfl, id, id, rfl, rfl, rfl, rfl⟩

theorem countSymbol_kept (b : Byte) (s : State) : Kept s (countSymbol b s) := by
  unfold countSymbol
  split <;> exact ⟨rfl, rfl, id, id, rfl, rfl, rfl, rfl⟩

theorem encodeSymbol_kept (b : Byte) (s : State) : Kept s (encodeSymbol b s) := by
  unfold encodeSymbol
  split <;> exact ⟨rfl, rfl, id, id, rfl, rfl, rfl, rfl⟩

theorem loadByte_kept (b : Byte) (s : State) : Kept s (loadByte b s) := ⟨rfl, rfl, id, id, rfl, rfl, rfl, rfl⟩

theorem decWalk_kept {s t : State} (h : decWalk s = .next t) : Kept s t := by
  unfold decWalk at h
  split at h
  · cases h; exact ⟨rfl, rfl, id, id, rfl, rfl, rfl, rfl⟩
  · dsimp only at h
    split at h <;> cases h <;> exact ⟨rfl, rfl, id, id, rfl, rfl, rfl, rfl⟩

/-- The core steps that write a table, a valid flag or a data register. -/
theorem perform_kept {c : CoreStep} {s t : State} (h : c.perform s = .next t) :
    c = .buildExec ∨ c = .gencodesExec ∨ c = .encDone ∨ c = .decDone ∨ Kept s t := by
  have kept (k : Kept s t) : c = .buildExec ∨ c = .gencodesExec ∨ c = .encDone ∨ c = .decDone ∨ Kept s t :=
    .inr (.inr (.inr (.inr k)))
  cases c with
  | buildExec | gencodesExec | encDone | decDone => simp
  | nopExec | clrfreqExec | countDone | flushExec | encEmit =>
    cases h
    exact kept ⟨rfl, rfl, id, id, rfl, rfl, rfl, rfl⟩
  | countByte => cases h; exact kept (consume_kept countSymbol_kept s)
  | encConsume => cases h; exact kept (consume_kept encodeSymbol_kept s)
  | decLoad => cases h; exact kept (consume_kept loadByte_kept s)
  | decWalk => exact kept (decWalk_kept h)

/-! ### The writers -/

/-- R113: BUILD's core step writes the arena and TREE_VALID alone, and sets the flag only without an error. -/
theorem buildExec_kept (s : State) :
    Kept s { buildExec s with arena := s.arena, treeValid := s.treeValid } ∧
      (s.treeValid = false → (buildExec s).treeValid = true → (buildExec s).err = s.err) := by
  simp only [buildExec]
  split
  · exact ⟨⟨rfl, rfl, id, id, rfl, rfl, rfl, rfl⟩, fun h0 h1 => absurd (h0.symm.trans h1) (by decide)⟩
  · exact ⟨⟨rfl, rfl, id, id, rfl, rfl, rfl, rfl⟩, fun _ _ => rfl⟩

/-- R120: GENCODES's core step writes the code table and CODES_VALID alone, the flag only without an error. -/
theorem gencodesExec_kept {s t : State} (h : gencodesExec s = .next t) :
    Kept s { t with codes := s.codes, codesValid := s.codesValid } ∧
      (s.codesValid = false → t.codesValid = true → t.err = s.err) := by
  unfold gencodesExec at h
  split at h
  · cases h
    exact ⟨⟨rfl, rfl, id, id, rfl, rfl, rfl, rfl⟩, fun h0 h1 => absurd (h0.symm.trans h1) (by decide)⟩
  · split at h <;> cases h
    exact ⟨⟨rfl, rfl, id, id, rfl, rfl, rfl, rfl⟩, fun _ _ => rfl⟩

/-- R133: ENC_DONE writes OUTLEN and BITCNT alone. -/
theorem encDone_kept (s : State) : Kept s { encDone s with outlen := s.outlen, bitcnt := s.bitcnt } := by
  simp only [encDone]
  split <;> exact ⟨rfl, rfl, id, id, rfl, rfl, rfl, rfl⟩

/-- R144: DEC_DONE writes OUTLEN alone. -/
theorem decDone_kept (s : State) : Kept s { decDone s with outlen := s.outlen } := by
  simp only [decDone]
  split <;> exact ⟨rfl, rfl, id, id, rfl, rfl, rfl, rfl⟩

/-- R54 to R57: what a bus write can do to the tables and the registers. -/
theorem busWrite_writers (s : State) (a : Addr) (v : Word) :
    s.busWrite a v = s.softreset ∨ Kept s (s.busWrite a v) ∨
      ((a = 0x0004 ∨ a = 0x0005) ∧ s.busy = false ∧ Kept s { s.busWrite a v with inlen := s.inlen }) ∨
      ((a = 0x0006 ∨ a = 0x0007) ∧ s.busy = false ∧ Kept s { s.busWrite a v with bitcnt := s.bitcnt }) ∨
      (a = 0x0003 ∧ Kept s { s.busWrite a v with irqEn := s.irqEn }) := by
  cases ht : target a <;> rw [busWrite_eq v ht] <;> simp only [writeTarget]
  case cmd => exact (cmdWrite_kept s v).imp_right .inl
  case irqen =>
    exact .inr (.inr (.inr (.inr ⟨addr_of_target ht rfl, rfl, rfl, id, id, rfl, rfl, rfl, rfl⟩)))
  case inlenLo | inlenHi =>
    split
    · exact .inr (.inl ⟨rfl, rfl, id, id, rfl, rfl, rfl, rfl⟩)
    · have ha := addr_of_target ht rfl
      exact .inr (.inr (.inl ⟨by simp [ha], by simpa using ‹¬s.busy = true›, rfl, rfl, id, id, rfl, rfl, rfl, rfl⟩))
  case bitcntLo | bitcntHi =>
    split
    · exact .inr (.inl ⟨rfl, rfl, id, id, rfl, rfl, rfl, rfl⟩)
    · have ha := addr_of_target ht rfl
      exact .inr (.inr (.inr (.inl
        ⟨by simp [ha], by simpa using ‹¬s.busy = true›, rfl, rfl, id, id, rfl, rfl, rfl, rfl⟩)))
  case inData =>
    unfold State.pushIn
    split <;> exact .inr (.inl ⟨rfl, rfl, id, id, rfl, rfl, rfl, rfl⟩)
  case freq =>
    split
    · exact .inr (.inl ⟨rfl, rfl, id, id, rfl, rfl, rfl, rfl⟩)
    · exact .inr (.inl ⟨rfl, rfl, fun h => Bool.noConfusion h, fun h => Bool.noConfusion h, rfl, rfl, rfl, rfl⟩)
  all_goals exact .inr (.inl ⟨rfl, rfl, id, id, rfl, rfl, rfl, rfl⟩)

/-- A core step that writes a table, a valid flag or a data register, with its command. -/
theorem perform_writers {c : CoreStep} {s t : State} (he : c.enabled s = true) (h : c.perform s = .next t) :
    Kept s t ∨
      (c.instr = .build ∧ s.op = opBuild ∧ t = buildExec s) ∨
      (c.instr = .gencodes ∧ s.op = opGencodes ∧ gencodesExec s = .next t) ∨
      (c.instr = .encode ∧ t = encDone s) ∨ (c.instr = .decode ∧ t = decDone s) := by
  obtain ⟨-, ho⟩ := (running_iff s c.op).1 (CoreStep.running_of_enabled he)
  rcases perform_kept h with rfl | rfl | rfl | rfl | k
  · cases h; exact .inr (.inl ⟨rfl, ho, rfl⟩)
  · exact .inr (.inr (.inl ⟨rfl, ho, h⟩))
  · cases h; exact .inr (.inr (.inr (.inl ⟨rfl, rfl⟩)))
  · cases h; exact .inr (.inr (.inr (.inr ⟨rfl, rfl⟩)))
  · exact .inl k

/-- An instruction resets the block, keeps the tables, flags and registers, or is one of their writers. -/
theorem exec_writers {i : Instr} {s t : State} (h : exec i s = .next t) :
    t = s.softreset ∨ Kept s t ∨
      (s.agent = .core ∧
        ((i = .build ∧ s.op = opBuild ∧ t = buildExec s) ∨
          (i = .gencodes ∧ s.op = opGencodes ∧ gencodesExec s = .next t) ∨
          (i = .encode ∧ t = encDone s) ∨ (i = .decode ∧ t = decDone s))) ∨
      ∃ a v, i = .wr a v ∧
        (((a = 0x0004 ∨ a = 0x0005) ∧ s.busy = false ∧ Kept s { t with inlen := s.inlen }) ∨
          ((a = 0x0006 ∨ a = 0x0007) ∧ s.busy = false ∧ Kept s { t with bitcnt := s.bitcnt }) ∨
          (a = 0x0003 ∧ Kept s { t with irqEn := s.irqEn })) := by
  rcases exec_inversion h with rfl | ⟨w, rfl⟩ | ⟨ha, c, rfl, he, hp⟩ | ⟨a, rfl⟩ | ⟨a, v, rfl, rfl⟩
  · exact .inr (.inl ⟨rfl, rfl, id, id, rfl, rfl, rfl, rfl⟩)
  · exact (cmdWrite_kept s w).imp_right .inl
  · rcases perform_writers he hp with k | w
    · exact .inr (.inl k)
    · exact .inr (.inr (.inl ⟨ha, w⟩))
  · have k := busRead_kept s a
    exact .inr (.inl ⟨k.arena, k.codes, k.treeValid, k.codesValid, k.outlen, k.inlen, k.bitcnt, k.irqEn⟩)
  · exact (busWrite_writers s a v).imp_right (.imp_right fun w => .inr ⟨a, v, rfl, w⟩)

/-! ### FREQ (R28) -/

theorem consume_freq {f : Byte → State → State} (hf : ∀ b s, (f b s).freq = s.freq) (s : State) :
    (s.consume f).freq = s.freq := by
  cases hq : s.inq with
  | nil => rw [consume_nil f hq]
  | cons b q =>
    rw [consume_cons f hq]
    split
    · exact hf b _
    · rfl

theorem encodeSymbol_freq (b : Byte) (s : State) : (encodeSymbol b s).freq = s.freq := by
  unfold encodeSymbol
  split <;> rfl

theorem gencodesExec_freq {s t : State} (h : gencodesExec s = .next t) : t.freq = s.freq := by
  unfold gencodesExec at h
  split at h
  · cases h; rfl
  · split at h <;> cases h
    rfl

theorem decWalk_freq {s t : State} (h : decWalk s = .next t) : t.freq = s.freq := by
  unfold decWalk at h
  split at h
  · cases h; rfl
  · dsimp only at h
    split at h <;> cases h <;> rfl

/-- R106, R108: the two core steps that change FREQ. -/
theorem perform_freq {c : CoreStep} {s t : State} (h : c.perform s = .next t) :
    c = .clrfreqExec ∨ c = .countByte ∨ t.freq = s.freq := by
  cases c with
  | clrfreqExec => exact .inl rfl
  | countByte => exact .inr (.inl rfl)
  | nopExec | countDone | encEmit | flushExec => cases h; exact .inr (.inr rfl)
  | gencodesExec => exact .inr (.inr (gencodesExec_freq h))
  | decWalk => exact .inr (.inr (decWalk_freq h))
  | buildExec => cases h; exact .inr (.inr (by simp only [buildExec]; split <;> rfl))
  | encConsume => cases h; exact .inr (.inr (consume_freq encodeSymbol_freq s))
  | encDone => cases h; exact .inr (.inr (by simp only [encDone]; split <;> rfl))
  | decLoad => cases h; exact .inr (.inr (consume_freq (f := loadByte) (fun _ _ => rfl) s))
  | decDone => cases h; exact .inr (.inr (by simp only [decDone]; split <;> rfl))

/-- R43: both commands that change FREQ run with the valid flags clear, and their core steps set neither. -/
theorem perform_freq_invalid {c : CoreStep} {s t : State} (hs : Inv s) (he : c.enabled s = true)
    (h : c.perform s = .next t) : t.freq = s.freq ∨ (t.treeValid = false ∧ t.codesValid = false) := by
  obtain ⟨hb, ho⟩ := (running_iff s c.op).1 (CoreStep.running_of_enabled he)
  have invalid (hop : c.op = opClrfreq ∨ c.op = opCount) (k : Kept s t) :
      t.treeValid = false ∧ t.codesValid = false := by
    obtain ⟨tree, codes⟩ := hs.tree.freq_writer hb (ho ▸ hop.imp_right .inl)
    exact ⟨k.treeValid_false tree, k.codesValid_false codes⟩
  rcases perform_freq h with rfl | rfl | hf
  · exact .inr (invalid (.inl rfl) (by simpa using perform_kept h))
  · exact .inr (invalid (.inr rfl) (by simpa using perform_kept h))
  · exact .inl hf

/-- R43: a write to CMD changes FREQ by a reset only. -/
theorem cmdWrite_freq_invalid (s : State) (w : Word) :
    (s.cmdWrite w).freq = s.freq ∨ ((s.cmdWrite w).treeValid = false ∧ (s.cmdWrite w).codesValid = false) := by
  rcases cmdWrite_cases s w with e | ⟨-, e⟩ | ⟨-, e⟩ | ⟨-, op, -, e⟩ <;> rw [e]
  · exact .inr ⟨rfl, rfl⟩
  · exact .inl rfl
  · exact .inl rfl
  · exact .inl (accept_freq_field s op)

theorem busWrite_freq_invalid (s : State) (a : Addr) (v : Word) :
    (s.busWrite a v).freq = s.freq ∨ ((s.busWrite a v).treeValid = false ∧ (s.busWrite a v).codesValid = false) := by
  cases ht : target a <;> rw [busWrite_eq v ht]
  case cmd => exact cmdWrite_freq_invalid s v
  case inlenLo | inlenHi | bitcntLo | bitcntHi =>
    simp only [writeTarget]
    split <;> exact .inl rfl
  case inData =>
    simp only [writeTarget, State.pushIn]
    split <;> exact .inl rfl
  case freq =>
    rw [writeTarget_freq]
    split
    · exact .inl rfl
    · exact .inr ⟨rfl, rfl⟩
  all_goals exact .inl rfl

theorem busRead_freq (s : State) (a : Addr) : (s.busRead a).2.freq = s.freq := by
  rcases busRead_state_cases s a with e | ⟨-, b, q, -, e⟩ | e <;> rw [e]

end Sys2Proof.Machine

open Sys2Proof Sys2Proof.Machine

/-- Settles O53: `exec_writers` names the writer, and `Kept` says what it leaves alone. -/
theorem tablesChangeOnlyByTheirCommands : Obligations.TablesChangeOnlyByTheirCommands := by
  intro i s t h
  have unset {a b : Bool} {P : Prop} (h : a = true → b = true) (hb : b = false) (ha : a = true) : P :=
    absurd ((h ha).symm.trans hb) (by decide)
  rcases exec_writers h with rfl | k | ⟨ha, ⟨rfl, ho, rfl⟩ | ⟨rfl, ho, hg⟩ | ⟨rfl, rfl⟩ | ⟨rfl, rfl⟩⟩ |
    ⟨a, v, rfl, ⟨ha, hb, k⟩ | ⟨ha, hb, k⟩ | ⟨rfl, k⟩⟩
  · exact ⟨fun _ => .inr rfl, fun _ => .inr rfl, fun _ => Bool.noConfusion, fun _ => Bool.noConfusion,
      fun _ => .inr rfl, fun _ => .inr rfl, fun _ => .inr (.inr rfl), fun _ => .inr rfl⟩
  · exact ⟨absurd k.arena, absurd k.codes, unset k.treeValid, unset k.codesValid, absurd k.outlen, absurd k.inlen,
      absurd k.bitcnt, absurd k.irqEn⟩
  · obtain ⟨k, noError⟩ := buildExec_kept s
    exact ⟨fun _ => .inl ⟨rfl, ha, ho⟩, absurd k.codes, fun h₀ h₁ => ⟨rfl, ha, noError h₀ h₁⟩, unset k.codesValid,
      absurd k.outlen, absurd k.inlen, absurd k.bitcnt, absurd k.irqEn⟩
  · obtain ⟨k, noError⟩ := gencodesExec_kept hg
    exact ⟨absurd k.arena, fun _ => .inl ⟨rfl, ha, ho⟩, unset k.treeValid, fun h₀ h₁ => ⟨rfl, ha, noError h₀ h₁⟩,
      absurd k.outlen, absurd k.inlen, absurd k.bitcnt, absurd k.irqEn⟩
  · have k := encDone_kept s
    exact ⟨absurd k.arena, absurd k.codes, unset k.treeValid, unset k.codesValid, fun _ => .inl ⟨.inl rfl, ha, rfl⟩,
      absurd k.inlen, fun _ => .inr (.inl ⟨rfl, ha, rfl⟩), absurd k.irqEn⟩
  · have k := decDone_kept s
    exact ⟨absurd k.arena, absurd k.codes, unset k.treeValid, unset k.codesValid, fun _ => .inl ⟨.inr rfl, ha, rfl⟩,
      absurd k.inlen, absurd k.bitcnt, absurd k.irqEn⟩
  · exact ⟨absurd k.arena, absurd k.codes, unset k.treeValid, unset k.codesValid, absurd k.outlen,
      fun _ => .inl ⟨⟨a, v, rfl, ha⟩, hb⟩, absurd k.bitcnt, absurd k.irqEn⟩
  · exact ⟨absurd k.arena, absurd k.codes, unset k.treeValid, unset k.codesValid, absurd k.outlen, absurd k.inlen,
      fun _ => .inl ⟨⟨a, v, rfl, ha⟩, hb⟩, absurd k.irqEn⟩
  · exact ⟨absurd k.arena, absurd k.codes, unset k.treeValid, unset k.codesValid, absurd k.outlen, absurd k.inlen,
      absurd k.bitcnt, fun _ => .inl ⟨v, rfl⟩⟩

/-- Settles O54: a host write to FREQ clears both flags itself, and the commands that change FREQ run with both
clear in every sound state. -/
theorem freqChangeLeavesNoValidTable : Obligations.FreqChangeLeavesNoValidTable := by
  intro i s t hs h hne
  refine Or.resolve_left (a := t.freq = s.freq) ?_ hne
  rcases exec_cases h with ⟨-, w, -, rfl⟩ | ⟨-, c, he, hp⟩ | rfl | ⟨a, d, -, rfl⟩ | ⟨a, v, -, rfl⟩
  · exact cmdWrite_freq_invalid s w
  · exact perform_freq_invalid hs he (hp ▸ h)
  · exact .inl rfl
  · exact .inl (busRead_freq s a)
  · exact busWrite_freq_invalid s a v
end

section
/-! The register space (20_memory.md R46 to R49, R53 to R59, R67): which addresses are reserved, what each register
reads as a number, and what the reads and writes of each address change. -/

namespace Sys2Proof.Machine

/-! ### The address map (R46 to R48) -/

theorem controlTarget_eq_reserved_iff (n : Nat) : controlTarget n = .reserved ↔ 0xF ≤ n := by
  unfold controlTarget
  split
  case h_16 =>
    refine iff_of_true rfl (Nat.le_of_not_lt fun h => ?_)
    interval_cases n <;> contradiction
  all_goals exact iff_of_false (by simp) (by decide)

theorem target_eq_reserved_iff (a : Addr) :
    target a = .reserved ↔
      (0x000F ≤ a.toNat ∧ a.toNat ≤ 0x00FF) ∨ (0x0300 ≤ a.toNat ∧ a.toNat ≤ 0x07FF) ∨ 0x17FC ≤ a.toNat := by
  simp only [target]
  split_ifs with control freq codeLen gap code node
  · rw [controlTarget_eq_reserved_iff]
    omega
  · exact iff_of_false (by simp) (by omega)
  · exact iff_of_false (by simp) (by omega)
  · exact iff_of_true rfl (by omega)
  · exact iff_of_false (by simp) (by omega)
  · exact iff_of_false (by simp) (by omega)
  · exact iff_of_true rfl (by omega)

/-- R84: the converse of `target_addr`. -/
theorem target_of_addr {t : Target} {a : Addr} (h : t.addr = some a) : target a = t := by
  cases t with
  | reserved => cases h
  | freq s => cases h; exact target_freq (.ofFin s)
  | codeLen s => cases h; exact target_codeLen (.ofFin s)
  | code s j => cases h; exact target_code (.ofFin s) j.isLt
  | node i k => cases h; exact target_node i.isLt k.isLt
  | _ => cases h; decide

theorem toNat_of_target_freq {a : Addr} {i : Fin 256} (h : target a = .freq i) : a.toNat = 0x100 + i := by
  have hi := i.isLt
  rw [addr_of_target h rfl, addr_toNat (by omega)]

/-! ### The values read, as numbers (R47, R48, R51, R53) -/

theorem word_eq_ofNat {x : Word} {n : Nat} (h : x.toNat = n % 2 ^ 32) : x = BitVec.ofNat 32 n :=
  BitVec.eq_of_toNat_eq (h.trans (BitVec.toNat_ofNat n 32).symm)

theorem extractLsb'_eq_ofNat {w : Nat} (x : BitVec w) (k : Nat) :
    x.extractLsb' k 32 = BitVec.ofNat 32 (x.toNat / 2 ^ k) :=
  word_eq_ofNat (by rw [BitVec.extractLsb'_toNat, Nat.shiftRight_eq_div_pow])

theorem lo32_eq_ofNat (x : BitVec 64) : lo32 x = BitVec.ofNat 32 x.toNat := word_eq_ofNat (lo32_toNat x)

theorem hi32_eq_ofNat (x : BitVec 64) : hi32 x = BitVec.ofNat 32 (x.toNat / 2 ^ 32) := extractLsb'_eq_ofNat x 32

theorem codeWord_eq_ofNat (c : BitVec 256) (j : Fin 8) :
    codeWord c j = BitVec.ofNat 32 (c.toNat / 2 ^ (32 * (j : Nat))) :=
  extractLsb'_eq_ofNat c (32 * j)

theorem nsym_le (freq : Vector (BitVec 32) 256) : nsym freq ≤ 256 := by
  simpa [nsym] using List.countP_le_length (p := (· != 0#32)) (l := freq.toList)

theorem readValue_irqen (s : State) : readValue s .irqen = if s.irqEn then 1 else 0 := by
  rw [readValue]
  cases s.irqEn <;> rfl

theorem readValue_fifoLevel {s : State} (hi : s.inq.length < 65536) :
    readValue s .fifoLevel = BitVec.ofNat 32 (s.inq.length + 65536 * s.outq.length) := by
  apply word_eq_ofNat
  rw [readValue, toNat_append_fields, BitVec.toNat_ofNat, BitVec.toNat_ofNat]
  omega

/-- R29: the nine bits of NSYM hold every count up to 256. -/
theorem readValue_nsym (s : State) : readValue s .nsym = BitVec.ofNat 32 (nsym s.freq) := by
  have := nsym_le s.freq
  apply word_eq_ofNat
  rw [readValue, BitVec.toNat_setWidth, BitVec.toNat_ofNat]
  omega

theorem readValue_treeinfo (s : State) :
    readValue s .treeinfo = BitVec.ofNat 32 (s.arena.root.toNat + 65536 * s.arena.nnodes.toNat) := by
  have hr := s.arena.root.isLt
  have hn := s.arena.nnodes.isLt
  apply word_eq_ofNat
  simp only [readValue, toNat_append_fields, BitVec.toNat_ofNat]
  omega

theorem readValue_codeLen (s : State) (b : Byte) :
    readValue s (.codeLen ⟨b.toNat, b.isLt⟩) = BitVec.ofNat 32 (s.codes.lenOf b).toNat :=
  word_eq_ofNat (BitVec.toNat_setWidth ..)

theorem nodeWord_zero (n : Node) : nodeWord n 0 = BitVec.ofNat 32 n.weight.toNat :=
  (extractLsb'_eq_ofNat n.weight 0).trans (by rw [Nat.pow_zero, Nat.div_one])

theorem nodeWord_one (n : Node) : nodeWord n 1 = BitVec.ofNat 32 (n.weight.toNat / 2 ^ 32) := by
  have hw := n.weight.isLt
  apply word_eq_ofNat
  simp only [nodeWord, BitVec.toNat_setWidth, BitVec.extractLsb'_toNat, Nat.shiftRight_eq_div_pow]
  omega

theorem nodeWord_two (n : Node) : nodeWord n 2 = BitVec.ofNat 32 (n.left.toNat + 65536 * n.right.toNat) := by
  have hl := n.left.isLt
  have hr := n.right.isLt
  apply word_eq_ofNat
  simp only [nodeWord, toNat_append_fields, BitVec.toNat_ofNat]
  omega

theorem nodeWord_three (n : Node) :
    nodeWord n 3 = BitVec.ofNat 32 ((if n.isLeaf then 1 else 0) + 256 * n.symbol.toNat) := by
  have hs := n.symbol.isLt
  apply word_eq_ofNat
  simp only [nodeWord, toNat_append_fields, BitVec.toNat_ofNat, BitVec.toNat_ofBool]
  cases n.isLeaf <;> simp only [Bool.toNat_true, Bool.toNat_false, if_true, Bool.false_eq_true, if_false] <;> omega

/-! ### Reads (R53, R58, R67) -/

theorem readsAs_of_target {s : State} {a : Addr} {t : Target} {v : Word} (ht : target a = t)
    (hf : s.busy = false ∨ t.freeWhileBusy = false) (hv : readValue s t = v) (hd : t ≠ .outData := by simp) :
    ReadsAs s a v := by
  subst ht
  rw [ReadsAs, exec_rd, busRead_plain hd hf, hv]

/-- R67: the addresses of the registers that read as free draws. -/
theorem freeWhileBusy_of_addr {a : Addr}
    (h : (0x0006 ≤ a.toNat ∧ a.toNat ≤ 0x0009) ∨ a = 0x000D ∨ a = 0x000E ∨ (0x0100 ≤ a.toNat ∧ a.toNat ≤ 0x02FF) ∨
      (0x0800 ≤ a.toNat ∧ a.toNat ≤ 0x17FB)) : (target a).freeWhileBusy = true := by
  cases ht : target a
  case id | cmd | status | irqen | inlenLo | inlenHi | inData | outData | fifoLevel =>
    exact absurd h (by rw [addr_of_target ht rfl]; decide)
  case reserved =>
    have := (target_eq_reserved_iff a).1 ht
    bv_omega
  all_goals rfl

/-- R58: a read of another address than OUT_DATA gives a word and counts at most one free draw. -/
theorem exec_rd_of_ne_outData (s : State) {a : Addr} (ha : a ≠ 0x000B) :
    ∃ (v : Word) (n : Nat), exec (.rd a 0) s = .next { s with readLog := v :: s.readLog, draws := n } := by
  have ht : target a ≠ .outData := fun ht => ha (addr_of_target ht rfl)
  rw [exec_rd]
  by_cases hf : s.busy = false ∨ (target a).freeWhileBusy = false
  · exact ⟨_, s.draws, by rw [busRead_plain ht hf]⟩
  · obtain ⟨hb, hf⟩ : s.busy = true ∧ (target a).freeWhileBusy = true := by simpa using hf
    exact ⟨_, s.draws + 1, by rw [busRead_free hb hf]⟩

/-- R132, R58: an ENCODE with eight pending bits, held on a full OUTQ of depth 1. -/
def emitHeld : State :=
  { State.reset with
    busy := true, op := opEncode, pb := List.replicate 8 false, outDepth := ⟨0⟩, outq := [0] }

theorem emitHeld_quiet : emitHeld.coreQuiet := by
  intro c
  cases c <;> decide

/-! ### Writes (R49, R54, R55) -/

theorem clearStatus_eq (s : State) (v : Word) :
    s.clearStatus v =
      { s with
        done := if v.getLsbD 3 then false else s.done
        cmdDropped := if v.getLsbD 4 then false else s.cmdDropped
        inOvf := if v.getLsbD 5 then false else s.inOvf } := by
  have clear (old bit : Bool) : (old && !bit) = if bit then false else old := by cases bit <;> simp
  simp only [State.clearStatus, clear]

theorem busWrite_of_readOnly (s : State) {a : Addr} (v : Word)
    (h : a.toNat = 0 ∨ a.toNat = 8 ∨ a.toNat = 9 ∨ (0xB ≤ a.toNat ∧ a.toNat ≤ 0xFF) ∨ 0x200 ≤ a.toNat) :
    s.busWrite a v = s := by
  cases ht : target a
  case cmd | status | irqen | inlenLo | inlenHi | bitcntLo | bitcntHi | inData =>
    exact absurd h (by rw [addr_of_target ht rfl]; decide)
  case freq i =>
    have hi := i.isLt
    have ha := toNat_of_target_freq ht
    omega
  all_goals exact busWrite_eq v ht

end Sys2Proof.Machine

open Sys2Proof Sys2Proof.Machine

/-- Settles O5: the inverse of the canonical addresses, and the ranges of `target`. -/
theorem addressMapNamesEveryRegister : Obligations.AddressMapNamesEveryRegister :=
  ⟨fun _ _ => target_of_addr, target_eq_reserved_iff⟩

/-- Settles O41: each address by its target, and the target's value as a number. -/
theorem readsReturnTheRegisters : Obligations.ReadsReturnTheRegisters := by
  intro s hi _
  refine ⟨⟨?_, ?_, ?_, ?_, ?_, ?_, ?_, ?_, fun a ha => ?_⟩, fun hb => ⟨?_, ?_, ?_, ?_, ?_, ?_⟩, fun hb =>
    ⟨fun b => ⟨?_, ?_, fun j hj => ?_⟩, fun i h => ⟨?_, ?_, ?_, ?_⟩⟩⟩
  · exact readsAs_of_target target_id (.inr rfl) rfl
  · exact readsAs_of_target target_cmd (.inr rfl) rfl
  · exact readsAs_of_target target_status (.inr rfl) rfl
  · exact readsAs_of_target target_irqen (.inr rfl) (readValue_irqen s)
  · exact readsAs_of_target target_inlenLo (.inr rfl) (lo32_eq_ofNat s.inlen)
  · exact readsAs_of_target target_inlenHi (.inr rfl) (hi32_eq_ofNat s.inlen)
  · exact readsAs_of_target target_inData (.inr rfl) rfl
  · exact readsAs_of_target target_fifoLevel (.inr rfl) (readValue_fifoLevel hi)
  · exact readsAs_of_target ha (.inr rfl) rfl
  · exact readsAs_of_target target_bitcntLo (.inl hb) (lo32_eq_ofNat s.bitcnt)
  · exact readsAs_of_target target_bitcntHi (.inl hb) (hi32_eq_ofNat s.bitcnt)
  · exact readsAs_of_target target_outlenLo (.inl hb) (lo32_eq_ofNat s.outlen)
  · exact readsAs_of_target target_outlenHi (.inl hb) (hi32_eq_ofNat s.outlen)
  · exact readsAs_of_target target_nsym (.inl hb) (readValue_nsym s)
  · exact readsAs_of_target target_treeinfo (.inl hb) (readValue_treeinfo s)
  · exact readsAs_of_target (target_freq b) (.inl hb) rfl
  · exact readsAs_of_target (target_codeLen b) (.inl hb) (readValue_codeLen s b)
  · exact readsAs_of_target (target_code b hj) (.inl hb) (codeWord_eq_ofNat _ ⟨j, hj⟩)
  · exact readsAs_of_target (target_node (k := 0) h (by decide)) (.inl hb) (nodeWord_zero _)
  · exact readsAs_of_target (target_node (k := 1) h (by decide)) (.inl hb) (nodeWord_one _)
  · exact readsAs_of_target (target_node (k := 2) h (by decide)) (.inl hb) (nodeWord_two _)
  · exact readsAs_of_target (target_node (k := 3) h (by decide)) (.inl hb) (nodeWord_three _)

/-- Settles O42: each of these addresses names a register of R67. -/
theorem busyReadsOfTablesAreFreeDraws : Obligations.BusyReadsOfTablesAreFreeDraws := by
  intro s a hb ha
  rw [exec_rd, busRead_free hb (freeWhileBusy_of_addr ha)]

/-- Settles O43: the two cases of OUTQ, every other address, and the held ENCODE of `emitHeld`. -/
theorem outDataReadPopsTheHead : Obligations.OutDataReadPopsTheHead := by
  refine ⟨fun s => ⟨fun b q hq => ?_, fun hq => ?_, fun a ha => exec_rd_of_ne_outData s ha⟩,
    emitHeld, _, rfl, emitHeld_quiet, rfl, exec_pop rfl, fun quiet => ?_⟩
  · rw [exec_pop hq, State.transfer, hq]
    simp
  · rw [exec_rd, show s.busRead 0x000B = s.popOut from busRead_outData target_outData, popOut_nil hq]
    rfl
  · exact absurd (quiet .encEmit) (by decide)

/-- Settles O45: `clearStatus` with each flag as a case of its written bit. -/
theorem statusWriteClearsWrittenOnes : Obligations.StatusWriteClearsWrittenOnes := fun s v =>
  congrArg Host.Outcome.next ((busWrite_eq v target_status).trans (clearStatus_eq s v))

/-- Settles O47: the write by its target, in the two cases of BUSY. -/
theorem freqWriteStoresAndInvalidates : Obligations.FreqWriteStoresAndInvalidates := by
  intro s b v
  rw [exec_wr, busWrite_eq v (target_freq b), writeTarget_freq]
  exact ⟨fun hb => congrArg Host.Outcome.next (if_neg (by simp [hb])),
    fun hb => congrArg Host.Outcome.next (if_pos hb)⟩

/-- Settles O48: a push with room, and a push on a full INQ. -/
theorem inDataWritePushesOrOverflows : Obligations.InDataWritePushesOrOverflows := by
  intro s v
  have write : s.busWrite 0x000A v = s.pushIn (v.extractLsb' 0 8) := busWrite_eq v target_inData
  have low : v.extractLsb' 0 8 = BitVec.ofNat 8 v.toNat :=
    BitVec.eq_of_toNat_eq (by rw [BitVec.extractLsb'_toNat, BitVec.toNat_ofNat, Nat.shiftRight_zero])
  rw [exec_wr, write, low]
  exact ⟨fun h => by rw [pushIn_room _ h], fun h => by rw [pushIn_full _ (Nat.not_lt.2 h)]⟩

/-- Settles O49: no register that a write changes has one of these addresses. -/
theorem otherWritesHaveNoEffect : Obligations.OtherWritesHaveNoEffect := fun s _ v h =>
  congrArg Host.Outcome.next (busWrite_of_readOnly s v h)
end

section
/-! Command words and transaction words (30_encoding.md R71 to R78): the words that decode, the decoder as the
inverse of the encoder, and the fields of a transaction word as numbers. -/

namespace Sys2Proof

/-! ### The decoder gives well-formed instructions (R77) -/

/-- R71: no command has an operand. -/
theorem wellFormed_of_ne_rd {i : Instr} (h : ∀ a d, i ≠ .rd a d) : i.wellFormed = true := by
  cases i with
  | rd a d => exact absurd rfl (h a d)
  | _ => rfl

theorem decodeCmd_wellFormed {w : Word} {i : Instr} (h : decodeCmd w = .ok i) : i.wellFormed = true := by
  rcases decodeCmd_ok h with ⟨-, rfl⟩ | ⟨-, -, hi⟩
  · rfl
  · exact wellFormed_of_ne_rd fun a d => (hi a d).1

/-- R78: a decoded read has the canonical data field. -/
theorem decodeBus_wellFormed (t : BitVec 46) : (decodeBus t).wellFormed = true := by
  unfold decodeBus
  split <;> rfl

theorem decode_wellFormed {w : HostWord} {i : Instr} (h : decode w = .ok i) : i.wellFormed = true := by
  cases w with
  | cmd w => exact decodeCmd_wellFormed h
  | bus t =>
    cases h
    exact decodeBus_wellFormed t

/-- R75, R78: every constructor's case of the family RoundTrip. -/
theorem decode_encode {i : Instr} (h : i.wellFormed = true) : decode (encode i) = .ok i := by
  cases i with
  | nop => exact Laws.RoundTrip.nop h
  | clrfreq => exact Laws.RoundTrip.clrfreq h
  | count => exact Laws.RoundTrip.count h
  | build => exact Laws.RoundTrip.build h
  | gencodes => exact Laws.RoundTrip.gencodes h
  | encode => exact Laws.RoundTrip.encode h
  | decode => exact Laws.RoundTrip.decode h
  | flush => exact Laws.RoundTrip.flush h
  | softreset => exact Laws.RoundTrip.softreset h
  | rd a d => exact Laws.RoundTrip.rd a d h
  | wr a d => exact Laws.RoundTrip.wr a d h

/-! ### The legal command words (R72, R74, R75) -/

/-- R72: the rows of the opcode map with bit 3 clear. -/
theorem decodeCmd_small {w : Word} (h : w.toNat < 8) : ∃ i, decodeCmd w = .ok i ∧ encode i = .cmd w := by
  have row : ∀ k < 8, (decodeCmd (BitVec.ofNat 32 k)).toOption.map encode = some (.cmd (BitVec.ofNat 32 k)) := by
    decide
  have hw := row w.toNat h
  rw [BitVec.ofNat_toNat, BitVec.setWidth_eq] at hw
  cases hd : decodeCmd w with
  | error e => simp [hd, Except.toOption] at hw
  | ok i => exact ⟨i, rfl, by simpa [hd, Except.toOption] using hw⟩

theorem encode_of_decodeCmd {w : Word} {i : Instr} (h : decodeCmd w = .ok i) : encode i = .cmd w := by
  rcases decodeCmd_ok h with ⟨rfl, rfl⟩ | ⟨hw, -⟩
  · rfl
  · obtain ⟨j, hj, he⟩ := decodeCmd_small hw
    rw [h, Except.ok.injEq] at hj
    exact hj ▸ he

theorem decodeCmd_of_encode {w : Word} {i : Instr} (h : encode i = .cmd w) : decodeCmd w = .ok i := by
  have hi : i.wellFormed = true := wellFormed_of_ne_rd fun a d he => by
    subst he
    cases h
  have hd := decode_encode hi
  rw [h] at hd
  exact hd

theorem decodeCmd_legal_iff (w : Word) : (∃ i, decodeCmd w = .ok i) ↔ w.toNat < 8 ∨ w.toNat = 15 := by
  constructor
  · rintro ⟨i, hi⟩
    rcases decodeCmd_ok hi with ⟨rfl, -⟩ | ⟨hw, -⟩
    · exact .inr rfl
    · exact .inl hw
  · rintro (hw | hw)
    · obtain ⟨i, hi, -⟩ := decodeCmd_small hw
      exact ⟨i, hi⟩
    · obtain rfl : w = 0xF#32 := BitVec.eq_of_toNat_eq hw
      exact ⟨.softreset, rfl⟩

/-- R75: decoding is total, so a word is illegal exactly when it is not legal. -/
theorem decodeCmd_illegal_iff (w : Word) : (∃ e, decodeCmd w = .error e) ↔ ¬∃ i, decodeCmd w = .ok i := by
  cases decodeCmd w with
  | error e => simp
  | ok i => simp

/-! ### The fields of a transaction word, as numbers (R77) -/

/-- R78: bit 45 is the bit above ADDR and DATA. -/
theorem busWord_of_fields (t : BitVec 46) :
    busWord (t.getLsbD 45) (t.extractLsb' 32 13) (t.extractLsb' 0 32) = t := by
  have ht := t.isLt
  apply BitVec.eq_of_toNat_eq
  rw [busWord_toNat, BitVec.getLsbD, Nat.toNat_testBit, BitVec.extractLsb'_toNat, BitVec.extractLsb'_toNat,
    Nat.shiftRight_eq_div_pow, Nat.shiftRight_zero]
  omega

/-- R78: with bit 45 clear, the word with DATA cleared. -/
theorem busWord_read_of_fields {t : BitVec 46} (h : t.getLsbD 45 = false) :
    busWord false (t.extractLsb' 32 13) 0#32 = BitVec.ofNat 46 (t.toNat / 2 ^ 32 * 2 ^ 32) := by
  have ht := t.isLt
  have write : t.toNat / 2 ^ 45 % 2 = 0 := by
    rw [← Nat.toNat_testBit]
    exact congrArg Bool.toNat h
  apply BitVec.eq_of_toNat_eq
  simp only [busWord_toNat, BitVec.extractLsb'_toNat, Nat.shiftRight_eq_div_pow, BitVec.toNat_ofNat, Bool.toNat_false]
  omega

theorem encode_decodeBus (t : BitVec 46) :
    encode (decodeBus t) = .bus (if t.getLsbD 45 then t else BitVec.ofNat 46 (t.toNat / 2 ^ 32 * 2 ^ 32)) := by
  unfold decodeBus
  cases hw : t.getLsbD 45 with
  | true =>
    have word := busWord_of_fields t
    rw [hw] at word
    exact congrArg HostWord.bus word
  | false => exact congrArg HostWord.bus (busWord_read_of_fields hw)

end Sys2Proof

open Sys2Proof Sys2Proof.Machine

/-- Settles O3: the round trip of each constructor, and a decoded read's data field of 0. -/
theorem decodeOfEncodeIsTheInstruction : Obligations.DecodeOfEncodeIsTheInstruction :=
  ⟨fun _ => decode_encode, fun _ _ => decode_wellFormed⟩

/-- Settles O2: on command words `decodeCmd` and `encode` are inverse, and the legal words are 0 to 7 and 15. -/
theorem commandWordsAreExactlyTheTabled : Obligations.CommandWordsAreExactlyTheTabled := by
  refine ⟨fun w i => ⟨encode_of_decodeCmd, decodeCmd_of_encode⟩, fun w => ?_⟩
  rw [decodeCmd_illegal_iff, decodeCmd_legal_iff]
  omega

/-- Settles O1: the nine commands by their round trips, the other words by evaluation. -/
theorem tabledWordsDecode : Obligations.TabledWordsDecode := by
  refine ⟨decodeCmd_of_encode rfl, decodeCmd_of_encode rfl, decodeCmd_of_encode rfl, decodeCmd_of_encode rfl,
    decodeCmd_of_encode rfl, decodeCmd_of_encode rfl, decodeCmd_of_encode rfl, decodeCmd_of_encode rfl,
    decodeCmd_of_encode rfl, ?_, ?_, ?_, ?_, ?_⟩ <;> rfl

/-- Settles O4: the fields of a transaction word as numbers; `execRd` does not use its data field. -/
theorem transactionWordsDecodeByFields : Obligations.TransactionWordsDecodeByFields := by
  refine ⟨fun t => ⟨?_, encode_decodeBus t⟩, fun _ _ _ => rfl⟩
  have addr : t.extractLsb' 32 13 = BitVec.ofNat 13 (t.toNat / 2 ^ 32) := by
    rw [BitVec.extractLsb', Nat.shiftRight_eq_div_pow]
  have data : t.extractLsb' 0 32 = BitVec.ofNat 32 t.toNat := rfl
  rw [decodeBus, addr, data]
  rfl

/-- Settles O9: on the host's turn both are the write of the word to CMD. -/
theorem commandLineIsTheWriteToCmd : Obligations.CommandLineIsTheWriteToCmd := fun _ w s hi ha =>
  (hostTurn_eq ha hi).trans (exec_wr_cmd s w).symm
end

section
/-! The core, left alone, runs out of steps (30_encoding.md R79; 40_control.md R101): every core step takes work
away from a measure of the state, and none stops a sound state. -/

namespace Sys2Proof.Machine

/-! ### The work that is left -/

/-- What bounds the core steps to come: a byte of INQ outweighs the at most 255 bits that it can add to PB (R131) or
the 8 that it can add to DBUF (R143), and completion outweighs nothing but itself. -/
def State.work (s : State) : Nat := 300 * s.inq.length + s.pb.length + s.dbuf.length + s.busy.toNat

theorem countSymbol_work (b : Byte) (s : State) : (countSymbol b s).work = s.work := by
  unfold countSymbol
  split <;> rfl

/-- R131: a code has at most 255 bits. -/
theorem encodeSymbol_work (b : Byte) (s : State) : (encodeSymbol b s).work ≤ s.work + 255 := by
  have := (s.codes.lenOf b).isLt
  unfold encodeSymbol
  split
  · simp only [State.work, State.raise, List.length_nil]
    omega
  · simp only [State.work, List.length_append, CodeTable.bitsOf, bits_length]
    omega

/-- R143: a byte has 8 bits. -/
theorem loadByte_work (b : Byte) (s : State) : (loadByte b s).work ≤ s.work + 8 := by
  simp only [State.work, loadByte, loadBits, List.length_take, bits_length]
  omega

/-- R13: a byte taken from INQ takes more work away than its use adds. -/
theorem consume_work_lt {f : Byte → State → State} (hf : ∀ b s, (f b s).work ≤ s.work + 255) {s : State}
    (hq : s.inq.isEmpty = false) : (s.consume f).work < s.work := by
  obtain ⟨b, q, hq⟩ := List.exists_cons_of_ne_nil (List.isEmpty_eq_false_iff.1 hq)
  rw [consume_cons f hq]
  have popped : ({ s with inq := q, jobRem := s.jobRem - 1 } : State).work + 300 = s.work := by
    simp only [State.work, hq, List.length_cons]
    omega
  split
  · have := hf b { s with inq := q, jobRem := s.jobRem - 1 }
    omega
  · omega

/-- R94: completion, which fills neither INQ nor a bit buffer. -/
structure Completes (s t : State) : Prop where
  busy : t.busy = false
  inq : t.inq.length ≤ s.inq.length
  pb : t.pb.length ≤ s.pb.length
  dbuf : t.dbuf.length ≤ s.dbuf.length

theorem Completes.work_lt {s t : State} (h : Completes s t) (hb : s.busy = true) : t.work < s.work := by
  obtain ⟨busy, inq, pb, dbuf⟩ := h
  simp only [State.work, busy, hb, Bool.toNat_true, Bool.toNat_false]
  omega

theorem buildExec_completes (s : State) : Completes s (buildExec s) := by
  simp only [buildExec]
  split <;> exact ⟨rfl, Nat.le_refl _, Nat.le_refl _, Nat.le_refl _⟩

theorem gencodesExec_completes {s t : State} (h : gencodesExec s = .next t) : Completes s t := by
  unfold gencodesExec at h
  split at h
  · cases h
    exact ⟨rfl, Nat.le_refl _, Nat.le_refl _, Nat.le_refl _⟩
  · split at h <;> cases h
    exact ⟨rfl, Nat.le_refl _, Nat.le_refl _, Nat.le_refl _⟩

theorem encDone_completes (s : State) : Completes s (encDone s) := by
  simp only [encDone]
  split <;> exact ⟨rfl, Nat.le_refl _, Nat.zero_le _, Nat.le_refl _⟩

theorem decDone_completes (s : State) : Completes s (decDone s) := by
  simp only [decDone]
  split <;> exact ⟨rfl, Nat.le_refl _, Nat.le_refl _, Nat.zero_le _⟩

/-- R132: eight bits leave PB. -/
theorem encEmit_work_lt {s : State} (h : 8 ≤ s.pb.length) : (encEmit s).work < s.work := by
  simp only [State.work, encEmit, State.pushOut, List.length_drop]
  omega

/-- R141: a bit leaves DBUF, on a missing child all of them. -/
theorem decWalk_work_lt {s t : State} (hd : s.dbuf.isEmpty = false) (h : decWalk s = .next t) : t.work < s.work := by
  obtain ⟨bit, rest, hd⟩ := List.exists_cons_of_ne_nil (List.isEmpty_eq_false_iff.1 hd)
  simp only [decWalk, hd] at h
  split at h <;> cases h
  all_goals
    simp only [State.work, State.raise, State.pushOut, hd, List.length_cons, List.length_nil]
    omega

/-- R100: every enabled core step takes work away. -/
theorem CoreStep.perform_work_lt {c : CoreStep} {s t : State} (he : c.enabled s = true) (h : c.perform s = .next t) :
    t.work < s.work := by
  obtain ⟨hb, -⟩ := (running_iff s c.op).1 (running_of_enabled he)
  have completed (ht : t.busy = false) (hi : t.inq.length ≤ s.inq.length) (hp : t.pb = s.pb) (hd : t.dbuf = s.dbuf) :
      t.work < s.work := Completes.work_lt ⟨ht, hi, hp ▸ Nat.le_refl _, hd ▸ Nat.le_refl _⟩ hb
  cases c with
  | nopExec | clrfreqExec | countDone => cases h; exact completed rfl (Nat.le_refl _) rfl rfl
  | flushExec => cases h; exact completed rfl (Nat.zero_le _) rfl rfl
  | buildExec => cases h; exact (buildExec_completes s).work_lt hb
  | gencodesExec => exact (gencodesExec_completes h).work_lt hb
  | encDone => cases h; exact (encDone_completes s).work_lt hb
  | decDone => cases h; exact (decDone_completes s).work_lt hb
  | countByte =>
    cases h
    simp only [enabled, countByteEnabled, Bool.and_eq_true, Bool.not_eq_true'] at he
    obtain ⟨-, hq⟩ := he
    exact consume_work_lt (fun b s => (countSymbol_work b s).trans_le (Nat.le_add_right _ _)) hq
  | encConsume =>
    cases h
    simp only [enabled, encConsumeEnabled, Bool.and_eq_true, Bool.not_eq_true'] at he
    obtain ⟨⟨-, hq⟩, -⟩ := he
    exact consume_work_lt encodeSymbol_work hq
  | decLoad =>
    cases h
    simp only [enabled, decLoadEnabled, Bool.and_eq_true, Bool.not_eq_true'] at he
    obtain ⟨⟨-, hq⟩, -⟩ := he
    exact consume_work_lt (fun b s => (loadByte_work b s).trans (by omega)) hq
  | encEmit =>
    cases h
    simp only [enabled, encEmitEnabled, Bool.and_eq_true, decide_eq_true_eq] at he
    obtain ⟨⟨-, h8⟩, -⟩ := he
    exact encEmit_work_lt h8
  | decWalk =>
    simp only [enabled, decWalkEnabled, Bool.and_eq_true, Bool.not_eq_true'] at he
    obtain ⟨⟨-, hd⟩, -⟩ := he
    exact decWalk_work_lt hd h

/-! ### No core step stops a sound state (R187) -/

/-- R120, R121: TREE_VALID promises a tree that BUILD made of a table with a symbol. -/
theorem gencodesExec_next {s : State} (h : Inv s) : ∃ t, gencodesExec s = .next t := by
  unfold gencodesExec
  split
  · exact ⟨_, rfl⟩
  · rename_i hv
    obtain ⟨ha, hn⟩ := h.tree.tree_valid (by simpa using hv)
    obtain ⟨t, ht⟩ := genCodes_buildTree s.freq hn
    rw [ha, ht]
    exact ⟨_, rfl⟩

/-- R141: the decoder stands at an entry of the arena. -/
theorem decWalk_next {s : State} (h : Inv s) (he : decWalkEnabled s = true) : ∃ t, decWalk s = .next t := by
  obtain ⟨hb, ho⟩ := (running_iff s opDecode).1 (CoreStep.running_of_enabled (c := .decWalk) he)
  obtain ⟨n, hn, -⟩ := h.decoder.position hb ho
  have inside (bit : Bool) : s.arena.walkBit s.dnode bit ≠ .outside :=
    walkBit_ne s.arena s.dnode bit ((nodeAt_iff _ _).1 ⟨n, hn⟩)
  unfold decWalk
  split
  · exact ⟨_, rfl⟩
  · dsimp only
    split
    · rename_i hw
      exact absurd hw (inside _)
    all_goals exact ⟨_, rfl⟩

theorem CoreStep.perform_next {c : CoreStep} {s : State} (h : Inv s) (he : c.enabled s = true) :
    ∃ t, c.perform s = .next t := by
  cases c with
  | gencodesExec => exact gencodesExec_next h
  | decWalk => exact decWalk_next h he
  | _ => exact ⟨_, rfl⟩

/-! ### The core's turns (R79) -/

/-- No enabling condition asks whose turn it is. -/
theorem CoreStep.enabled_agent (c : CoreStep) (s : State) (a : Agent) :
    c.enabled { s with agent := a } = c.enabled s := by
  cases c <;> rfl

theorem coreTurns_succ {c : CoreStep} {s t : State} (he : c.enabled s = true)
    (h : c.perform { s with agent := .core } = .next t) (n : Nat) : coreTurns (n + 1) s = coreTurns n t := by
  have hx : exec c.instr { s with agent := .core } = .next t :=
    (CoreStep.exec_of_enabled rfl (c.enabled_agent s .core ▸ he)).trans h
  rw [coreTurns, CoreStep.coreInstr_of_enabled he]
  simp only [hx]

/-- From a sound state the core has at most as many turns as there is work. -/
theorem coreTurns_reach_quiet {s : State} (h : Inv s) :
    ∃ (n : Nat) (t : State), n ≤ s.work ∧ coreTurns n s = .next t ∧ t.coreQuiet := by
  induction hw : s.work using Nat.strong_induction_on generalizing s with
  | _ w ih =>
    by_cases hq : s.coreQuiet
    · exact ⟨0, s, Nat.zero_le _, rfl, hq⟩
    · simp only [State.coreQuiet, not_forall, Bool.not_eq_false] at hq
      obtain ⟨c, hc⟩ := hq
      have he : c.enabled { s with agent := .core } = true := c.enabled_agent s .core ▸ hc
      have hs : Inv { s with agent := .core } := h.frame ⟨h.fifo.inq_le, h.fifo.outq_le⟩ rfl
      obtain ⟨t, ht⟩ := CoreStep.perform_next hs he
      have less : t.work < s.work := CoreStep.perform_work_lt (s := { s with agent := .core }) he ht
      obtain ⟨n, u, hn, hu, quiet⟩ := ih t.work (hw ▸ less) (inv_perform hs he ht) rfl
      exact ⟨n + 1, u, by omega, (coreTurns_succ hc ht n).trans hu, quiet⟩

end Sys2Proof.Machine

open Sys2Proof Sys2Proof.Machine

/-- Settles O52: the turns are bounded by the work of the state, which counts BUSY as one step. -/
theorem coreRunsOutOfSteps : Obligations.CoreRunsOutOfSteps := by
  intro s h
  obtain ⟨n, t, hn, ht, quiet⟩ := coreTurns_reach_quiet h
  have hb : s.busy.toNat ≤ 1 := Bool.toNat_le s.busy
  exact ⟨n, t, by rw [State.work] at hn; omega, ht, quiet⟩
end

section
/-! The core's schedule (40_control.md R91, R100, R101): no two core steps are enabled together, and a sound state
in which none is enabled waits for the host. -/

namespace Sys2Proof.Machine

/-! ### At most one core step is enabled (R100) -/

/-- The steps of two commands exclude each other by OP, those of one command by the rules of the command. -/
theorem CoreStep.enabled_unique {c d : CoreStep} {s : State} (hc : c.enabled s = true) (hd : d.enabled s = true) :
    c = d := by
  have hop : c.op = d.op :=
    ((running_iff s c.op).1 (running_of_enabled hc)).2.symm.trans ((running_iff s d.op).1 (running_of_enabled hd)).2
  have clash {b : Bool} (off : b = false) (on : b = true) : c = d := absurd (off.symm.trans on) Bool.false_ne_true
  cases c with
  | nopExec | clrfreqExec | buildExec | gencodesExec | flushExec => cases d <;> simp [op] at hop ⊢
  | countByte =>
    cases d with
    | countByte => rfl
    | countDone => exact clash (countByte_disabled hd) hc
    | _ => simp [op] at hop
  | countDone =>
    cases d with
    | countByte => exact clash (countByte_disabled hc) hd
    | countDone => rfl
    | _ => simp [op] at hop
  | encConsume =>
    cases d with
    | encConsume => rfl
    | encEmit => exact clash (encConsume_disabled_of_emit hd) hc
    | encDone => exact clash (encConsume_disabled_of_done hd) hc
    | _ => simp [op] at hop
  | encEmit =>
    cases d with
    | encConsume => exact clash (encConsume_disabled_of_emit hc) hd
    | encEmit => rfl
    | encDone => exact clash (encEmit_disabled_of_done hd) hc
    | _ => simp [op] at hop
  | encDone =>
    cases d with
    | encConsume => exact clash (encConsume_disabled_of_done hc) hd
    | encEmit => exact clash (encEmit_disabled_of_done hc) hd
    | encDone => rfl
    | _ => simp [op] at hop
  | decLoad =>
    cases d with
    | decLoad => rfl
    | decWalk => exact clash (decLoad_disabled_of_walk hd) hc
    | decDone => exact clash (decLoad_disabled_of_done hd) hc
    | _ => simp [op] at hop
  | decWalk =>
    cases d with
    | decLoad => exact clash (decLoad_disabled_of_walk hc) hd
    | decWalk => rfl
    | decDone => exact clash (decWalk_disabled_of_done hd) hc
    | _ => simp [op] at hop
  | decDone =>
    cases d with
    | decLoad => exact clash (decLoad_disabled_of_done hc) hd
    | decWalk => exact clash (decWalk_disabled_of_done hc) hd
    | decDone => rfl
    | _ => simp [op] at hop

theorem coreQuiet_of_idle {s : State} (h : s.busy = false) : s.coreQuiet := fun c =>
  Bool.eq_false_iff.2 fun hc => by
    obtain ⟨hb, -⟩ := (running_iff s c.op).1 (CoreStep.running_of_enabled hc)
    exact absurd (h.symm.trans hb) Bool.false_ne_true

/-- On the core's turn the running command is the command of every enabled core step. -/
theorem exec_coreInstr {c : CoreStep} {i : Instr} {s : State} (ha : s.agent = .core) (hi : s.coreInstr = some i)
    (hc : c.enabled s = true) : exec i s = c.perform s := by
  obtain rfl : c.instr = i := Option.some.inj ((CoreStep.coreInstr_of_enabled hc).symm.trans hi)
  exact CoreStep.exec_of_enabled ha hc

theorem exec_coreInstr_holds {i : Instr} {s : State} (ha : s.agent = .core) (hi : s.coreInstr = some i)
    (quiet : s.coreQuiet) : exec i s = .next s :=
  exec_holds ha (fun a d => (coreInstr_ne_bus hi a d).1) (fun a d => (coreInstr_ne_bus hi a d).2) fun c _ => quiet c

/-! ### What a command without an enabled core step waits for (R101, R205, R206) -/

section
variable {s : State} (quiet : s.coreQuiet)
include quiet

/-- R108: COUNT waits only for a byte. -/
theorem count_waits (hr : s.running opCount = true) : s.inq = [] ∧ s.jobRem ≠ 0 := by
  have done : countDoneEnabled s = false := quiet .countDone
  have byte : countByteEnabled s = false := quiet .countByte
  have rem : s.jobRem ≠ 0 := by
    rw [countDoneEnabled, hr] at done
    simpa using done
  have nil : s.jobRem ≠ 0 → s.inq = [] := by
    rw [countByteEnabled, hr] at byte
    simpa using byte
  exact ⟨nil rem, rem⟩

/-- R131 to R133: with room in OUTQ no eight bits are pending, so that ENCODE waits only for a byte. -/
theorem encode_waits (hr : s.running opEncode = true) (room : s.outRoom = true) : s.inq = [] ∧ s.jobRem ≠ 0 := by
  have emit : encEmitEnabled s = false := quiet .encEmit
  have done : encDoneEnabled s = false := quiet .encDone
  have consume : encConsumeEnabled s = false := quiet .encConsume
  have few : (s.err != .noError || decide (s.pb.length < 8)) = true := by
    rw [encEmitEnabled, hr, room] at emit
    simpa [imp_iff_not_or] using emit
  have rem : s.jobRem ≠ 0 := by
    rw [encDoneEnabled, hr, few, room] at done
    simpa using done
  have nil : s.jobRem ≠ 0 → s.inq = [] := by
    rw [encConsumeEnabled, hr, few] at consume
    simpa using consume
  exact ⟨nil rem, rem⟩

/-- R141, R143, R144: with room in OUTQ no bit is loaded, so that DECODE waits only for a byte. -/
theorem decode_waits (hr : s.running opDecode = true) (room : s.outRoom = true) : s.inq = [] ∧ s.jobRem ≠ 0 := by
  have walk : decWalkEnabled s = false := quiet .decWalk
  have done : decDoneEnabled s = false := quiet .decDone
  have load : decLoadEnabled s = false := quiet .decLoad
  have empty : (s.err != .noError || s.dbuf.isEmpty) = true := by
    rw [decWalkEnabled, hr, room] at walk
    simpa [imp_iff_not_or] using walk
  have rem : s.jobRem ≠ 0 := by
    rw [decDoneEnabled, hr, empty] at done
    simpa using done
  have nil : s.jobRem ≠ 0 → s.inq = [] := by
    rw [decLoadEnabled, hr, empty] at load
    simpa using load
  exact ⟨nil rem, rem⟩

/-- R212: a running command that is quiet is a stream command. -/
theorem stream_of_quiet (h : Inv s) (hb : s.busy = true) : s.op = opCount ∨ s.op = opEncode ∨ s.op = opDecode := by
  have off (c : CoreStep) (hc : c.enabled s = s.running c.op) : s.op ≠ c.op := fun ho =>
    absurd (hc.trans ((running_iff s c.op).2 ⟨hb, ho⟩)) (Bool.eq_false_iff.1 (quiet c))
  rcases op_cases s.op h.job.op_le with ho | ho | ho | ho | ho | ho | ho | ho
  · exact absurd ho (off .nopExec rfl)
  · exact absurd ho (off .clrfreqExec rfl)
  · exact .inl ho
  · exact absurd ho (off .buildExec rfl)
  · exact absurd ho (off .gencodesExec rfl)
  · exact .inr (.inl ho)
  · exact .inr (.inr ho)
  · exact absurd ho (off .flushExec rfl)

end

/-- R36: an OUTQ within its depth and without room is full. -/
theorem outq_full_of_no_room {s : State} (h : FifoBounds s) (room : s.outRoom = false) :
    s.outq.length = s.outDepth.val :=
  Nat.le_antisymm h.outq_le (Nat.not_lt.1 (of_decide_eq_false room))

end Sys2Proof.Machine

open Sys2Proof Sys2Proof.Machine

/-- Settles O50: two enabled steps have the same OP and exclude each other within a command, and the running command
is the one whose step is enabled. -/
theorem atMostOneCoreStepIsEnabled : Obligations.AtMostOneCoreStepIsEnabled := fun _ =>
  ⟨coreQuiet_of_idle, fun _ _ => CoreStep.enabled_unique,
    fun ha _ hi => ⟨fun _ => exec_coreInstr ha hi, exec_coreInstr_holds ha hi⟩⟩

/-- Settles O51: the command is a stream command, and with room in OUTQ each of them waits only for a byte. -/
theorem coreHoldsOnlyForTheHost : Obligations.CoreHoldsOnlyForTheHost := by
  intro s h hb quiet
  have stream := stream_of_quiet quiet h hb
  refine ⟨?_, stream⟩
  cases room : s.outRoom with
  | false => exact .inr (outq_full_of_no_room h.fifo room)
  | true =>
    have running {op : BitVec 4} (ho : s.op = op) : s.running op = true := (running_iff s op).2 ⟨hb, ho⟩
    rcases stream with ho | ho | ho
    · exact .inl (count_waits quiet (running ho))
    · exact .inl (encode_waits quiet (running ho) room)
    · exact .inl (decode_waits quiet (running ho) room)
end

section
/-! The core's turn, the reset, and the commands without a stream (40_control.md R90 to R97; 41_frequency.md R106;
70_reset_and_hazards.md R200). -/

namespace Sys2Proof.Machine

/-! ### The core's turn (R91) -/

/-- R79: an exhausted script leaves the turn to the core (log 2). -/
theorem nextTurn_core {s : State} (h : s.script = [] ∨ ∃ rest, s.script = .core :: rest) : s.nextTurn = .core := by
  rcases h with h | ⟨rest, h⟩
  · simp [State.nextTurn, h]
  · exact nextTurn_cons h

theorem coreInstr_of_encode {s : State} {i : Instr} (hb : s.busy = true) (hi : encode i = .cmd (s.op.setWidth 32)) :
    s.coreInstr = some i := by
  simp only [State.coreInstr, hb, if_true, decodeCmd_of_encode hi]

theorem coreInstr_of_idle {s : State} (hb : s.busy = false) : s.coreInstr = none := by
  simp [State.coreInstr, hb]

theorem step_core_some {s : State} {i : Instr} (ht : s.nextTurn = .core) (hi : s.coreInstr = some i) :
    step s = exec i (s.forAgent .core) := by
  simp only [step, ht, hi]

theorem step_core_none {s : State} (ht : s.nextTurn = .core) (hi : s.coreInstr = none) :
    step s = .next (s.forAgent .core) := by
  simp only [step, ht, hi]

/-! ### STATUS with both FIFOs empty (R22, R23) -/

/-- R9: no depth is 0, so that an empty FIFO is not full whatever the depths are. -/
theorem derivedFlags_of_empty {s : State} (hi : s.inq = []) (ho : s.outq = []) :
    s.inFull = false ∧ s.inEmpty = true ∧ s.outFull = false ∧ s.outEmpty = true := by
  refine ⟨Bool.eq_false_iff.2 fun h => ?_, (inEmpty_iff s).2 hi, Bool.eq_false_iff.2 fun h => ?_, (outEmpty_iff s).2 ho⟩
  · exact not_empty_of_full ((inFull_iff s).1 h) hi
  · exact not_empty_of_full ((outFull_iff s).1 h) ho

theorem statusWord_softreset (s : State) : s.softreset.statusWord = 0x00000280 := by
  obtain ⟨inFull, inEmpty, outFull, outEmpty⟩ := derivedFlags_of_empty (s := s.softreset) rfl rfl
  simp [State.statusWord, inFull, inEmpty, outFull, outEmpty, Err.code]

/-- R92: the example of the rule, a refused 0x8 from reset. -/
theorem statusWord_refuse_reset : (State.reset.refuse 0x00000008).statusWord = 0x00086288 := by
  obtain ⟨inFull, inEmpty, outFull, outEmpty⟩ := derivedFlags_of_empty (s := State.reset.refuse 0x00000008) rfl rfl
  rw [State.statusWord, inFull, inEmpty, outFull, outEmpty]
  rfl

/-! ### Acceptance (R91, R130, R140) -/

theorem cmdOpcode_setWidth (op : BitVec 4) : cmdOpcode (op.setWidth 32) = op := by
  apply BitVec.eq_of_toNat_eq
  rw [cmdOpcode_toNat, BitVec.toNat_setWidth]
  omega

/-- R91: on the host's turn a command other than SOFTRESET is accepted while BUSY = 0. -/
theorem exec_accept {i : Instr} {s : State} {op : BitVec 4} (ha : s.agent = .host) (hb : s.busy = false)
    (hi : encode i = .cmd (op.setWidth 32)) (hs : i ≠ .softreset) : exec i s = .next (s.accept op) := by
  rw [hostTurn_eq ha hi, cmdWrite_legal hb (decodeCmd_of_encode hi) hs, cmdOpcode_setWidth]

/-- R14: a check that may raise an error is a value of ERR. -/
theorem raise_if (c : Prop) [Decidable c] (s : State) (e : Err) :
    (if c then s.raise e else s) = { s with err := if c then e else s.err } := by
  split <;> rfl

theorem accept_encode_eq (s : State) : s.accept opEncode =
    { s with
      lastcmd := opEncode, op := opEncode, done := false, busy := true,
      err := if s.inlen ≠ 0 ∧ s.codesValid = false then .notReady else .noError,
      jobRem := s.inlen, pb := [], encBits := 0, outN := 0 } :=
  raise_if (s.inlen ≠ 0 ∧ s.codesValid = false) _ .notReady

/-- R140: INLEN is the ceiling of BITCNT/8 as a word exactly when it is as a number. -/
theorem ne_ceil8_iff (x y : BitVec 64) : x ≠ ceil8 y ↔ x.toNat ≠ (y.toNat + 7) / 8 := by
  rw [← ceil8_toNat, ne_eq, ← BitVec.toNat_inj]

/-- R190: the length is checked before the tree. -/
theorem accept_decode_eq (s : State) : s.accept opDecode =
    { s with
      lastcmd := opDecode, op := opDecode, done := false, busy := true,
      err :=
        if s.inlen.toNat ≠ (s.bitcnt.toNat + 7) / 8 then .malformedContainer
        else if s.bitcnt ≠ 0 ∧ s.treeValid = false then .notReady
        else .noError,
      jobRem := s.inlen, dbitsRem := s.bitcnt, dbuf := [], outN := 0, dnode := s.arena.root } := by
  by_cases badLength : s.inlen ≠ ceil8 s.bitcnt
  · rw [if_pos ((ne_ceil8_iff _ _).1 badLength)]
    exact if_pos badLength
  · rw [if_neg (mt (ne_ceil8_iff _ _).2 badLength)]
    exact (if_neg badLength).trans (raise_if (s.bitcnt ≠ 0 ∧ s.treeValid = false) _ .notReady)

/-! ### Words that start nothing (R92, R93) -/

/-- R74, R92: the illegal words by their fields. -/
theorem decodeCmd_error_of_fields {w : Word} (h : cmdReserved w ≠ 0 ∨ (0x8 ≤ cmdOpcode w ∧ cmdOpcode w ≤ 0xE)) :
    ∃ e, decodeCmd w = .error e := by
  have hr := cmdReserved_toNat w
  have ho := cmdOpcode_toNat w
  rw [decodeCmd_illegal_iff, decodeCmd_legal_iff]
  bv_omega

end Sys2Proof.Machine

open Sys2Proof Sys2Proof.Machine

/-- Settles O7: the core's turn with a running command and with none. -/
theorem stepRunsTheRunningCommand : Obligations.StepRunsTheRunningCommand := fun _ h =>
  ⟨fun _ hb hi => step_core_some (nextTurn_core h) (coreInstr_of_encode hb hi),
    fun hb => step_core_none (nextTurn_core h) (coreInstr_of_idle hb)⟩

/-- Settles O8: the state is `softreset`, which all three ways reach. -/
theorem resetRestoresEveryElement : Obligations.ResetRestoresEveryElement := by
  intro s
  refine ⟨s.softreset, rfl, fun rest h => ?_, fun ha => ?_, fun ha => byTurn_core _ _ ha, ?_, statusWord_softreset s,
    nsym_zero, rfl⟩
  · simp only [step, nextTurn_cons h, forAgent_cons h]
    rfl
  · rw [hostTurn_eq ha rfl, cmdWrite_softreset]
  · exact (exec_wr_cmd s _).trans (congrArg Host.Outcome.next (cmdWrite_softreset s))

/-- Settles O10: each is accepted with its opcode, and `accept` of a given opcode evaluates to its acceptance action. -/
theorem acceptanceStartsTheCommand : Obligations.AcceptanceStartsTheCommand := by
  intro s ha hb
  have accept (op : BitVec 4) {i : Instr} (hi : encode i = .cmd (op.setWidth 32)) (hs : i ≠ .softreset := by simp) :
      exec i s = .next (s.accept op) := exec_accept ha hb hi hs
  exact ⟨accept opNop rfl, accept opClrfreq rfl, accept opCount rfl, accept opBuild rfl, accept opGencodes rfl,
    accept opFlush rfl⟩

/-- Settles O11: the acceptance action of ENCODE, its check as the value of ERR. -/
theorem encodeAcceptanceChecksTheTable : Obligations.EncodeAcceptanceChecksTheTable := fun s ha hb =>
  (exec_accept (op := opEncode) ha hb rfl (by simp)).trans (congrArg Host.Outcome.next (accept_encode_eq s))

/-- Settles O12: the acceptance action of DECODE, its checks as the value of ERR and its ceiling as a number. -/
theorem decodeAcceptanceChecksLengthThenTree : Obligations.DecodeAcceptanceChecksLengthThenTree := fun s ha hb =>
  (exec_accept (op := opDecode) ha hb rfl (by simp)).trans (congrArg Host.Outcome.next (accept_decode_eq s))

/-- Settles O13: the write is `drop`. -/
theorem busyCommandWriteIsDropped : Obligations.BusyCommandWriteIsDropped := fun s w hb hw =>
  (exec_wr_cmd s w).trans (congrArg Host.Outcome.next (cmdWrite_busy hw hb))

/-- Settles O14: the write is `refuse`; of the FIFOs after reset only that they are empty is used. -/
theorem illegalCommandWordIsRefused : Obligations.IllegalCommandWordIsRefused := by
  refine ⟨fun s w hb hw => ?_, State.reset.refuse 0x00000008, ?_, statusWord_refuse_reset⟩
  · obtain ⟨e, he⟩ := decodeCmd_error_of_fields hw
    exact (exec_wr_cmd s w).trans (congrArg Host.Outcome.next (cmdWrite_illegal hb he))
  · rw [exec_wr_cmd, cmdWrite_illegal (e := .reservedOpcode) rfl rfl]

/-- Settles O15: NOP_EXEC and FLUSH_EXEC are enabled. -/
theorem nopAndFlushComplete : Obligations.NopAndFlushComplete := fun s ha hb =>
  ⟨fun ho => CoreStep.exec_of_enabled (c := .nopExec) ha ((running_iff s opNop).2 ⟨hb, ho⟩),
    fun ho => CoreStep.exec_of_enabled (c := .flushExec) ha ((running_iff s opFlush).2 ⟨hb, ho⟩)⟩

/-- Settles O16: CLRFREQ_EXEC is enabled. -/
theorem clrfreqZeroesTheTable : Obligations.ClrfreqZeroesTheTable := fun s ha hb ho =>
  ⟨clrfreqExec s, CoreStep.exec_of_enabled (c := .clrfreqExec) ha ((running_iff s opClrfreq).2 ⟨hb, ho⟩), rfl,
    fun b => by simp [State.freqOf, clrfreqExec], nsym_zero⟩
end

section
/-! COUNT, step by step and as a whole job (41_frequency.md R107 to R109; 60_exceptions.md R188). -/

namespace Sys2Proof.Machine

/-! ### One byte (R108) -/

/-- R109: an entry below 0xFFFFFFFF is incremented without wrapping. -/
theorem toNat_add_one_of_ne_max {x : BitVec 32} (h : x ≠ 0xFFFFFFFF) : (x + 1).toNat = x.toNat + 1 := by
  bv_omega

theorem ne_max_of_room {x : BitVec 32} {n : Nat} (h : x.toNat + (n + 1) < 2 ^ 32) : x ≠ 0xFFFFFFFF := by
  bv_omega

theorem countSymbol_max {b : Byte} {s : State} (h : s.freqOf b = 0xFFFFFFFF) :
    countSymbol b s = s.raise .countOverflow := if_pos h

theorem countSymbol_counts {b : Byte} {s : State} (h : s.freqOf b ≠ 0xFFFFFFFF) :
    countSymbol b s = { s with freq := s.freq.set b.toNat (s.freqOf b + 1) b.isLt } := if_neg h

theorem countByte_counts {s : State} {b : Byte} {q : List Byte} (hq : s.inq = b :: q) (he : s.err = .noError)
    (hf : s.freqOf b ≠ 0xFFFFFFFF) :
    countByte s =
      { s with
        inq := q, jobRem := s.jobRem - 1,
        freq := s.freq.set b.toNat (s.freqOf b + 1) b.isLt } := by
  rw [countByte, consume_cons _ hq, if_pos he]
  exact countSymbol_counts hf

theorem countByte_overflows {s : State} {b : Byte} {q : List Byte} (hq : s.inq = b :: q) (he : s.err = .noError)
    (hf : s.freqOf b = 0xFFFFFFFF) :
    countByte s = { s with inq := q, jobRem := s.jobRem - 1, err := .countOverflow } := by
  rw [countByte, consume_cons _ hq, if_pos he]
  exact countSymbol_max hf

/-- R188: after an error the job is drained. -/
theorem countByte_drains {s : State} {b : Byte} {q : List Byte} (hq : s.inq = b :: q) (he : s.err ≠ .noError) :
    countByte s = { s with inq := q, jobRem := s.jobRem - 1 } := by
  rw [countByte, consume_cons _ hq, if_neg he]

/-- R107, R108: the law of the whole job, for one byte. -/
theorem countByte_freqOf {s : State} {b : Byte} {q : List Byte} (hq : s.inq = b :: q) (he : s.err = .noError)
    (hf : s.freqOf b ≠ 0xFFFFFFFF) (c : Byte) :
    ((countByte s).freqOf c).toNat = (s.freqOf c).toNat + if b = c then 1 else 0 := by
  rw [countByte_counts hq he hf]
  by_cases h : b = c
  · subst h
    rw [if_pos rfl, ← toNat_add_one_of_ne_max hf]
    simp [State.freqOf]
  · simp [State.freqOf, BitVec.toNat_inj, h]

/-! ### Which step is enabled (R108) -/

theorem countByteEnabled_iff (s : State) :
    countByteEnabled s = true ↔ s.running opCount = true ∧ s.jobRem ≠ 0 ∧ s.inq ≠ [] := by
  simp [countByteEnabled, and_assoc]

theorem countDoneEnabled_iff (s : State) :
    countDoneEnabled s = true ↔ s.running opCount = true ∧ s.jobRem = 0 := by
  simp [countDoneEnabled]

theorem count_holds {s : State} (ha : s.agent = .core) (hq : s.inq = []) (hj : s.jobRem ≠ 0) :
    exec .count s = .next s :=
  exec_holds ha (by simp) (by simp) fun c hc => by
    cases c with
    | countByte => exact Bool.eq_false_iff.2 fun h => ((countByteEnabled_iff s).1 h).2.2 hq
    | countDone => exact Bool.eq_false_iff.2 fun h => hj ((countDoneEnabled_iff s).1 h).2
    | _ => cases hc

/-! ### The job (R107) -/

/-- R79, R91: a command from its acceptance is the core's turns from the accepted state. -/
theorem runCommand_accept {i : Instr} {s : State} {op : BitVec 4} (hb : s.busy = false)
    (hi : encode i = .cmd (op.setWidth 32)) (hs : i ≠ .softreset) (n : Nat) :
    runCommand i n s = coreTurns n (({ s with agent := .host } : State).accept op) := by
  have accepted := exec_accept (s := { s with agent := .host }) rfl hb hi hs
  simp only [runCommand, accepted]

/-- The core's turn with a byte to count. -/
theorem coreTurns_countByte {s : State} {b : Byte} {q : List Byte} (hr : s.running opCount = true)
    (he : s.err = .noError) (hq : s.inq = b :: q) (hj : s.jobRem ≠ 0) (hf : s.freqOf b ≠ 0xFFFFFFFF) (n : Nat) :
    ∃ t : State, coreTurns (n + 1) s = coreTurns n t ∧
      t = { s with inq := q, jobRem := s.jobRem - 1, freq := t.freq, agent := .core } ∧
      ∀ c, (t.freqOf c).toNat = (s.freqOf c).toNat + if b = c then 1 else 0 := by
  have enabled : countByteEnabled s = true := (countByteEnabled_iff s).2 ⟨hr, hj, by simp [hq]⟩
  refine ⟨countByte { s with agent := .core }, coreTurns_succ (c := .countByte) enabled rfl n, ?_,
    countByte_freqOf (s := { s with agent := .core }) hq he hf⟩
  rw [countByte_counts (s := { s with agent := .core }) hq he hf]

/-- With the job's input at the head of INQ and no count beyond 32 bits, one turn for each byte counts it and one
more completes. -/
theorem coreTurns_count {s : State} {input rest : List Byte} (hr : s.running opCount = true) (he : s.err = .noError)
    (hq : s.inq = input ++ rest) (hj : s.jobRem.toNat = input.length)
    (room : ∀ b, (s.freqOf b).toNat + input.count b < 2 ^ 32) :
    ∃ t : State, coreTurns (input.length + 1) s = .next t ∧
      t = { s with busy := false, done := true, jobRem := 0, inq := rest, freq := t.freq, agent := .core } ∧
      ∀ b, (t.freqOf b).toNat = (s.freqOf b).toNat + input.count b := by
  induction input generalizing s with
  | nil =>
    have hj : s.jobRem = 0 := BitVec.eq_of_toNat_eq hj
    have hq : s.inq = rest := hq
    refine ⟨countDone { s with agent := .core },
      coreTurns_succ (c := .countDone) ((countDoneEnabled_iff s).2 ⟨hr, hj⟩) rfl 0, ?_, fun b => rfl⟩
    rw [← hj, ← hq]
    rfl
  | cons b input ih =>
    rw [List.length_cons] at hj
    have pending : s.jobRem ≠ 0 := by bv_omega
    have left : (s.jobRem - 1).toNat = input.length := by bv_omega
    have unsaturated : s.freqOf b ≠ 0xFFFFFFFF := ne_max_of_room (List.count_cons_self (a := b) ▸ room b)
    obtain ⟨u, turn, hu, one⟩ := coreTurns_countByte hr he hq pending unsaturated (input.length + 1)
    have counted (c : Byte) : (u.freqOf c).toNat + input.count c = (s.freqOf c).toNat + (b :: input).count c := by
      simp only [one, List.count_cons, beq_iff_eq]
      omega
    obtain ⟨t, ht, frame, freq⟩ := ih (s := u) (by rw [hu]; exact hr) (by rw [hu]; exact he) (by rw [hu]; rfl)
      (by rw [hu]; exact left) fun c => counted c ▸ room c
    rw [hu] at frame
    exact ⟨t, turn.trans ht, frame, fun c => (freq c).trans (counted c)⟩

end Sys2Proof.Machine

open Sys2Proof Sys2Proof.Machine

/-- Settles O18: COUNT is accepted, and `coreTurns_count` runs the job. -/
theorem countJobAddsOccurrences : Obligations.CountJobAddsOccurrences := by
  intro s input rest hb hq hlen room
  obtain ⟨t, ht, frame, freq⟩ :=
    coreTurns_count (s := ({ s with agent := .host } : State).accept opCount) rfl rfl hq hlen room
  refine ⟨input.length + 1, t, (runCommand_accept hb rfl (by simp) _).trans ht, freq, ?_⟩
  rw [frame]
  exact ⟨rfl, rfl, rfl, rfl, rfl, rfl, rfl, rfl, rfl, rfl, rfl, rfl⟩

/-- Settles O17: COUNT_BYTE in its three cases, COUNT_DONE, and the hold, in which neither is enabled. -/
theorem countCountsEachByte : Obligations.CountCountsEachByte := by
  intro s ha hb ho
  have hr : s.running opCount = true := (running_iff s opCount).2 ⟨hb, ho⟩
  refine ⟨fun b q hj hq => ?_, fun hj => ?_, fun hj hq => count_holds ha hq hj⟩
  · have byte : exec .count s = .next (countByte s) :=
      CoreStep.exec_of_enabled (c := .countByte) ha ((countByteEnabled_iff s).2 ⟨hr, hj, by simp [hq]⟩)
    rw [byte]
    exact ⟨fun he hf => ⟨congrArg Host.Outcome.next (countByte_counts hq he hf), toNat_add_one_of_ne_max hf⟩,
      fun he hf => congrArg Host.Outcome.next (countByte_overflows hq he hf),
      fun he => congrArg Host.Outcome.next (countByte_drains hq he)⟩
  · exact CoreStep.exec_of_enabled (c := .countDone) ha ((countDoneEnabled_iff s).2 ⟨hr, hj⟩)
end

section
/-! The builder (42_tree_builder.md R110 to R117): what extract_min and a merge make of the arena, where the leaves
stand, BUILD as an iterated merge, and the tree of one symbol. -/

namespace Sys2Proof.Machine

/-! ### The queue (R110) -/

theorem queue_eq_nil_iff (a : Arena) : a.queue = [] ↔ ∀ (j : Nat) (_ : j < 511), a.live[j] = false := by
  simp only [List.eq_nil_iff_forall_not_mem, mem_queue, ← Bool.not_eq_true]
  exact ⟨fun h j hj hl => h ⟨j, a.node[j].weight⟩ ⟨hj, hl, rfl⟩, fun h x ⟨hx, hl, _⟩ => h x.idx hx hl⟩

/-- R110: the keys of two different indices are ordered one way only. -/
theorem Entry.before_iff_not {x y : Entry} (h : x.idx ≠ y.idx) : x.before y = true ↔ ¬y.before x = true := by
  refine ⟨fun hxy hyx => ?_, Entry.before_of_not h.symm⟩
  have := Entry.before_trans hxy hyx
  simp [Entry.before_iff, BitVec.lt_irrefl] at this

theorem setIfInBounds_eq_set {α : Type} {n i : Nat} (v : Vector α n) (x : α) (h : i < n) :
    v.setIfInBounds i x = v.set i x h := by
  ext j hj
  simp only [Vector.getElem_setIfInBounds, Vector.getElem_set]

theorem extractMin_least {a a' : Arena} {x : Entry} (h : a.extractMin = some (x, a')) :
    ∃ hx : x.idx < 511,
      a.live[x.idx] = true ∧ x.weight = a.node[x.idx].weight ∧ a' = { a with live := a.live.set x.idx false } ∧
      ∀ (j : Nat) (hj : j < 511), a.live[j] = true → j ≠ x.idx → x.before ⟨j, a.node[j].weight⟩ = true := by
  obtain ⟨hmem, hleast, ha'⟩ := extractMin_spec h
  obtain ⟨hx, hlive, hw⟩ := (mem_queue a x).1 hmem
  refine ⟨hx, hlive, hw, by rw [ha', setIfInBounds_eq_set _ _ hx], fun j hj hl hne => ?_⟩
  exact hleast _ ((mem_queue a _).2 ⟨hj, hl, rfl⟩) fun he => hne (congrArg Entry.idx he)

/-! ### One merge (R111) -/

/-- R30: every index of the arena fits the nine bits of a child field. -/
theorem toNat_ofNat_idx {i : Nat} (h : i < 511) : (BitVec.ofNat 9 i).toNat = i := by
  rw [BitVec.toNat_ofNat]
  omega

/-- R111: the two nodes a merge removes are two entries of the arena. -/
theorem extractMin_twice_ne {a a₁ a₂ : Arena} {x y : Entry} (hx : a.extractMin = some (x, a₁))
    (hy : a₁.extractMin = some (y, a₂)) : x.idx < 511 ∧ y.idx < 511 ∧ x.idx ≠ y.idx := by
  obtain ⟨hxlt, -, -, rfl, -⟩ := extractMin_least hx
  obtain ⟨hylt, hylive, -⟩ := extractMin_least hy
  refine ⟨hxlt, hylt, fun he => ?_⟩
  simp [he] at hylive

theorem merge_eq_set {a a₁ a₂ : Arena} {x y : Entry} (room : a.nnodes.toNat < 511)
    (hx : a.extractMin = some (x, a₁)) (hy : a₁.extractMin = some (y, a₂)) :
    a.merge =
      { node := a.node.set a.nnodes.toNat
          (Node.internal (x.weight + y.weight) (BitVec.ofNat 9 x.idx) (BitVec.ofNat 9 y.idx))
        root := a.root
        nnodes := a.nnodes + 1
        live := a₂.live.set a.nnodes.toNat true } := by
  have e₁ := (extractMin_spec hx).2.2
  have e₂ := (extractMin_spec hy).2.2
  have hnn : a₂.nnodes = a.nnodes := by rw [e₂, e₁]
  rw [merge_eq hx hy, append_eq _ (hnn ▸ room)]
  simp only [setIfInBounds_eq_set _ _ room, e₂, e₁]

/-! ### The leaves (R112) -/

theorem getD_eq_getElem (freq : Vector (BitVec 32) 256) (b : Byte) : freq[b.toNat]?.getD 0 = freq[b.toNat]'b.isLt := by
  rw [Vector.getElem?_eq_getElem b.isLt, Option.getD_some]

theorem present_iff (freq : Vector (BitVec 32) 256) (b : Byte) : present freq b = true ↔ freq[b.toNat]?.getD 0 ≠ 0 := by
  rw [getD_eq_getElem, present, bne_iff_ne]

theorem presentCount_lt {freq : Vector (BitVec 32) 256} {k n : Nat} (hk : k < n) (hf : freq[k]?.getD 0 ≠ 0) :
    presentCount freq k < presentCount freq n := by
  induction n with
  | zero => omega
  | succ n ih =>
    rw [presentCount_succ]
    rcases Nat.lt_succ_iff_lt_or_eq.1 hk with hk | rfl
    · exact Nat.lt_add_right _ (ih hk)
    · rw [if_neg hf]
      exact Nat.lt_succ_self _

theorem exists_presentCount_eq {freq : Vector (BitVec 32) 256} {i n : Nat} (hi : i < presentCount freq n) :
    ∃ k < n, freq[k]?.getD 0 ≠ 0 ∧ presentCount freq k = i := by
  induction n with
  | zero => simp [presentCount] at hi
  | succ n ih =>
    by_cases hlt : i < presentCount freq n
    · obtain ⟨k, hk, h⟩ := ih hlt
      exact ⟨k, by omega, h⟩
    · rw [presentCount_succ] at hi
      split at hi
      · omega
      · exact ⟨n, Nat.lt_succ_self n, ‹_›, by omega⟩

theorem rank_lt_nsym {freq : Vector (BitVec 32) 256} {b : Byte} (h : present freq b = true) :
    rank freq b < nsym freq := by
  rw [nsym_eq_presentCount]
  exact presentCount_lt b.isLt ((present_iff freq b).1 h)

/-- R112: every index below NSYM is the rank of a present symbol. -/
theorem exists_rank_eq {freq : Vector (BitVec 32) 256} {i : Nat} (hi : i < nsym freq) :
    ∃ b : Byte, present freq b = true ∧ rank freq b = i := by
  rw [nsym_eq_presentCount] at hi
  obtain ⟨k, hk, hf, hr⟩ := exists_presentCount_eq hi
  have hb : (BitVec.ofNat 8 k).toNat = k := by rw [BitVec.toNat_ofNat]; omega
  exact ⟨BitVec.ofNat 8 k, (present_iff _ _).2 (by rwa [hb]), by rw [rank, hb]; exact hr⟩

theorem nsym_freq_eq_zero_iff (s : State) : nsym s.freq = 0 ↔ ∀ b : Byte, s.freqOf b = 0 := by
  refine ⟨fun h b => ?_, fun h => ?_⟩
  · by_contra hb
    have := rank_lt_nsym (freq := s.freq) (b := b) (bne_iff_ne.2 hb)
    omega
  · by_contra hne
    obtain ⟨b, hb, -⟩ := exists_rank_eq (Nat.pos_of_ne_zero hne)
    exact bne_iff_ne.1 hb (h b)

/-- R112: every present symbol has its leaf at its rank. -/
def Arena.HasLeaves (freq : Vector (BitVec 32) 256) (a : Arena) : Prop :=
  ∀ b : Byte, present freq b = true → a.node[rank freq b]? = some (Node.leaf b (freq[b.toNat]'b.isLt))

theorem append_node? {a : Arena} (n : Node) (h : a.nnodes.toNat < 511) (i : Nat) :
    (a.append n).node[i]? = if a.nnodes.toNat = i then some n else a.node[i]? := by
  rw [append_eq n h, Vector.getElem?_setIfInBounds]
  split <;> simp_all

theorem insertLeaves_node {freq : Vector (BitVec 32) 256} {k n : Nat} (hk : k < n) (hn : n ≤ 256)
    (hf : freq[k]?.getD 0 ≠ 0) :
    (insertLeaves freq n).node[presentCount freq k]? = some (Node.leaf (BitVec.ofNat 8 k) (freq[k]?.getD 0)) := by
  induction n with
  | zero => omega
  | succ n ih =>
    have nn := (leaves_insertLeaves freq n (by omega)).nn
    have room : (insertLeaves freq n).nnodes.toNat < 511 := by have := presentCount_le freq n; omega
    rw [insertLeaves]
    rcases Nat.lt_succ_iff_lt_or_eq.1 hk with hk | rfl
    · have hlt := presentCount_lt hk hf
      split
      · rw [append_node? _ room, if_neg (by omega), ih hk (by omega)]
      · exact ih hk (by omega)
    · rw [if_pos hf, append_node? _ room, if_pos nn]

theorem insertLeaves_hasLeaves (freq : Vector (BitVec 32) 256) : (insertLeaves freq 256).HasLeaves freq := by
  intro b hb
  have := insertLeaves_node b.isLt (Nat.le_refl 256) ((present_iff freq b).1 hb)
  rwa [BitVec.ofNat_toNat, BitVec.setWidth_eq, getD_eq_getElem] at this

theorem leaves_nsym (freq : Vector (BitVec 32) 256) : Leaves (nsym freq) (insertLeaves freq 256) :=
  nsym_eq_presentCount freq ▸ leaves_insertLeaves freq 256 (Nat.le_refl 256)

/-! ### The merges (R114, R115) -/

theorem insertLeaves_forest {freq : Vector (BitVec 32) 256} (h : 1 ≤ nsym freq) :
    Forest (nsym freq) (insertLeaves freq 256) :=
  (leaves_nsym freq).forest h (liveWeight_insertLeaves_lt freq)

/-- R111: a merge writes above the leaves. -/
theorem Forest.merge_hasLeaves {freq : Vector (BitVec 32) 256} {a : Arena} (h : Forest (nsym freq) a)
    (hq : 2 ≤ a.queue.length) (hl : a.HasLeaves freq) : a.merge.HasLeaves freq := by
  intro b hb
  obtain ⟨x, y, j⟩ := h.shape.joined hq h.bounded
  have hlt := rank_lt_nsym hb
  have lo := h.shape.lo
  have le := h.shape.le
  rw [← hl b hb, Vector.getElem?_eq_getElem (by omega), Vector.getElem?_eq_getElem (by omega),
    j.old _ (by omega) (by omega)]

/-- R115: the loop of R114 is one merge for each live node but one. -/
theorem Shape.mergeWhile_eq_iterate {N : Nat} {a : Arena} (h : Shape N a) {n : Nat} (hn : a.queue.length ≤ n + 1) :
    Machine.mergeWhile n a = Arena.merge^[a.queue.length - 1] a := by
  induction n generalizing a with
  | zero =>
    rw [Nat.sub_eq_zero_of_le hn]
    rfl
  | succ n ih =>
    rw [Machine.mergeWhile]
    split
    · obtain ⟨hs, -, hq⟩ := h.merge (by omega)
      rw [ih hs (by omega), ← Function.iterate_succ_apply, ← hq]
      congr 1
      omega
    · rw [Nat.sub_eq_zero_of_le (by omega)]
      rfl

theorem Shape.iterate_merge_queue {N : Nat} {a : Arena} (h : Shape N a) {k : Nat} (hk : k + 1 ≤ a.queue.length) :
    (Arena.merge^[k] a).queue.length = a.queue.length - k := by
  induction k generalizing a with
  | zero => rfl
  | succ k ih =>
    obtain ⟨hs, -, hq⟩ := h.merge (by omega)
    rw [Function.iterate_succ_apply, ih hs (by omega)]
    omega

/-- What every merge keeps holds of a built tree of two or more symbols, but for its root. -/
theorem buildTree_induct {freq : Vector (BitVec 32) 256} (h : 2 ≤ nsym freq) {P : Arena → Prop}
    (hstep : ∀ a, Forest (nsym freq) a → P a → 2 ≤ a.queue.length → P a.merge)
    (hroot : ∀ a r, P a → P { a with root := r }) (hleaves : P (insertLeaves freq 256)) : P (buildTree freq) := by
  obtain ⟨r, hr⟩ := buildTree_merged h
  rw [hr]
  exact hroot _ _ (mergeWhile_induct (P := fun a => Forest (nsym freq) a ∧ P a)
    (fun a ⟨hf, hp⟩ hq => ⟨hf.merge hq, hstep a hf hp hq⟩) 511 ⟨insertLeaves_forest (by omega), hleaves⟩).2

theorem buildTree_eq_iterate {freq : Vector (BitVec 32) 256} (h : 2 ≤ nsym freq) :
    buildTree freq =
      { Arena.merge^[nsym freq - 1] (insertLeaves freq 256) with root := BitVec.ofNat 9 (2 * nsym freq - 2) } := by
  have leaves := leaves_nsym freq
  have le := leaves.le
  obtain ⟨-, -, root⟩ := buildTree_shape freq h
  obtain ⟨r, hr⟩ := buildTree_merged h
  have hr' : r = BitVec.ofNat 9 (2 * nsym freq - 2) :=
    BitVec.eq_of_toNat_eq (by rw [← root, hr, BitVec.ofNat_toNat, BitVec.setWidth_eq])
  rw [hr, hr', (leaves.shape (by omega)).mergeWhile_eq_iterate (by have := leaves.q; omega), leaves.q]

/-! ### What is left in the queue (R114, R115) -/

theorem Forest.live_iff_last {N : Nat} {a : Arena} (h : Forest N a) (hq : a.queue.length = 1) (i : Nat) (hi : i < 511) :
    a.live[i] = true ↔ i + 1 = a.nnodes.toNat := by
  refine ⟨fun hl => ?_, h.last_live i hi⟩
  have pos := h.shape.pos
  have le := h.shape.le
  have cons := h.shape.cons
  have last := h.last_live (a.nnodes.toNat - 1) (by omega) (by omega)
  obtain ⟨e, he⟩ := List.length_eq_one_iff.1 hq
  have only {k : Nat} (hk : k < 511) (hl : a.live[k] = true) : k = e.idx := by
    have := (mem_queue a ⟨k, a.node[k].weight⟩).2 ⟨hk, hl, rfl⟩
    rw [he, List.mem_singleton] at this
    exact congrArg Entry.idx this
  have := only hi hl
  have := only (by omega) last
  omega

theorem liveWeight_of_live_iff {a : Arena} {r : Nat} (hr : r < 511)
    (h : ∀ (i : Nat) (_ : i < 511), a.live[i] = true ↔ i = r) : a.liveWeight = a.node[r].weight.toNat := by
  rw [Arena.liveWeight, Finset.sum_eq_single ⟨r, hr⟩]
  · simp [(h r hr).2 rfl]
  · intro i _ hne
    exact if_neg fun hl => hne (Fin.ext ((h i i.isLt).1 hl))
  · simp

theorem sum_range_getD (freq : Vector (BitVec 32) 256) :
    ∑ k ∈ Finset.range 256, (freq[k]?.getD 0).toNat = (freq.toList.map BitVec.toNat).sum := by
  have : freq.toList.map BitVec.toNat = (List.range 256).map fun k => (freq[k]?.getD 0).toNat :=
    List.ext_getElem (by simp) fun i h _ => by
      have hi : i < 256 := by simpa using h
      simp [hi]
  rw [this]
  rfl

theorem buildTree_liveWeight {freq : Vector (BitVec 32) 256} (h : 2 ≤ nsym freq) :
    (buildTree freq).liveWeight = (freq.toList.map BitVec.toNat).sum := by
  rw [← sum_range_getD, ← liveWeight_insertLeaves freq (Nat.le_refl 256)]
  refine buildTree_induct h (P := fun a => a.liveWeight = (insertLeaves freq 256).liveWeight) (fun a hf hp hq => ?_)
    (fun _ _ hp => hp) rfl
  obtain ⟨x, y, j⟩ := hf.shape.joined hq hf.bounded
  exact j.liveWeight.trans hp

/-! ### One symbol (R116) -/

theorem nsym_eq_one {freq : Vector (BitVec 32) 256} {b : Byte} (hb : present freq b = true)
    (h : ∀ c : Byte, c ≠ b → present freq c = false) : nsym freq = 1 := by
  have only {i : Nat} (hi : i < nsym freq) : i = rank freq b := by
    obtain ⟨c, hc, rfl⟩ := exists_rank_eq hi
    by_cases he : c = b
    · rw [he]
    · simp [h c he] at hc
  have pos := rank_lt_nsym hb
  by_contra hne
  have := only (i := 0) (by omega)
  have := only (i := 1) (by omega)
  omega

/-- R116: the synthetic root over the leaf. -/
theorem wrapSingle_nodes {freq : Vector (BitVec 32) 256} {b : Byte} {a : Arena} (hb : present freq b = true)
    (hN : nsym freq = 1) (hl : a.HasLeaves freq) :
    a.wrapSingle.node[0] = Node.leaf b (freq[b.toNat]'b.isLt) ∧
    a.wrapSingle.node[1] = Node.internal ((freq[b.toNat]'b.isLt).setWidth 40) 0 nullIdx := by
  have leaf := hl b hb
  have : rank freq b = 0 := by have := rank_lt_nsym hb; omega
  rw [this, Vector.getElem?_eq_getElem (by omega), Option.some.injEq] at leaf
  simp [Arena.wrapSingle, leaf, Node.leaf]

theorem buildTree_hasLeaves {freq : Vector (BitVec 32) 256} (h : nsym freq ≠ 0) : (buildTree freq).HasLeaves freq := by
  by_cases h1 : nsym freq = 1
  · intro b hb
    obtain ⟨node, -⟩ := wrapSingle_nodes hb h1 (insertLeaves_hasLeaves freq)
    have : rank freq b = 0 := by have := rank_lt_nsym hb; omega
    rw [(buildTree_one freq h1).1, this, Vector.getElem?_eq_getElem (by omega), node]
  · exact buildTree_induct (by omega) (fun a hf hl hq => hf.merge_hasLeaves hq hl) (fun _ _ hl => hl)
      (insertLeaves_hasLeaves freq)

/-! ### The traversal, node by node (R121) -/

section
variable {a : Arena} {i : BitVec 9} {n : Node} (hn : a.nodeAt i = some n)
include hn

theorem walk_leaf (hl : n.isLeaf = true) (d : Nat) (path : Bits) (t : CodeTable) :
    walk a (d + 1) i path t = .ok (t.record n.symbol path) := by
  simp only [walk, hn, hl, if_true]

theorem walk_left_only (hl : n.isLeaf = false) (left : n.left ≠ nullIdx) (right : n.right = nullIdx) (d : Nat)
    (path : Bits) (t : CodeTable) : walk a (d + 1) i path t = walk a d n.left (path ++ [false]) t := by
  simp only [walk, hn, hl, Bool.false_eq_true, if_false, if_neg left, if_pos right]
  cases walk a d n.left (path ++ [false]) t <;> rfl

end

theorem bitsOf_record (t : CodeTable) (b : Byte) {path : Bits} (h : path.length < 256) :
    (t.record b path).bitsOf b = path := by
  have hnum : num path < 2 ^ 256 := (num_lt path).trans (Nat.pow_lt_pow_right (by omega) h)
  simp only [CodeTable.bitsOf, CodeTable.lenOf, CodeTable.codeOf, CodeTable.record, Vector.getElem_set_self,
    BitVec.toNat_ofNat, Nat.mod_eq_of_lt hnum, Nat.mod_eq_of_lt h, bits_num]

/-! ### The core step of BUILD (R113, R114, R117) -/

theorem buildExec_of_none {s : State} (h : nsym s.freq = 0) :
    buildExec s = { s with arena := Arena.zero, err := .invalidInput, busy := false, done := true } := by
  rw [buildExec, if_pos h, buildTree_none _ h]
  rfl

theorem buildExec_of_some {s : State} (h : nsym s.freq ≠ 0) :
    buildExec s = { s with arena := buildTree s.freq, treeValid := true, busy := false, done := true } := by
  rw [buildExec, if_neg h]
  rfl

end Sys2Proof.Machine

open Sys2Proof Sys2Proof.Machine

/-- Settles O20: the queue is the list of the live nodes, and `extractMin` takes its least entry. -/
theorem extractMinTakesTheLeastKey : Obligations.ExtractMinTakesTheLeastKey := by
  intro a
  refine ⟨extractMin_eq_none.trans (queue_eq_nil_iff a), fun x a' h => ?_, fun i j hi hj hne => ?_⟩
  · obtain ⟨hx, hlive, hw, ha', hleast⟩ := extractMin_least h
    exact ⟨hx, hlive, hw, ha', fun j hj hl hne => (Entry.before_iff _ _).1 (hleast j hj hl hne)⟩
  · simpa only [Entry.before_iff] using Entry.before_iff_not (x := ⟨i, a.node[i].weight⟩) (y := ⟨j, a.node[j].weight⟩) hne

/-- Settles O21: both removed nodes are entries of the arena, and the second is taken after the first has left. -/
theorem mergeJoinsTheTwoLeast : Obligations.MergeJoinsTheTwoLeast := by
  intro a a₁ a₂ x y room hx hy
  obtain ⟨hxlt, hylt, hne⟩ := extractMin_twice_ne hx hy
  exact ⟨merge_eq_set room hx hy, hne, toNat_ofNat_idx hxlt, toNat_ofNat_idx hylt⟩

/-- Settles O22: a merge writes above the leaves, and so does the synthetic root. -/
theorem leavesStandInSymbolOrder : Obligations.LeavesStandInSymbolOrder := by
  intro freq
  have leaves := leaves_nsym freq
  refine ⟨leaves.live, leaves.nn, fun b hb => ?_⟩
  have hlt := rank_lt_nsym hb
  have hidx := toNat_ofNat_idx (i := rank freq b) (by have := leaves.le; omega)
  refine ⟨hlt, _, rfl, ?_, ?_⟩ <;> rw [Arena.nodeAt, hidx]
  · exact insertLeaves_hasLeaves freq b hb
  · exact buildTree_hasLeaves (by omega) b hb

/-- Settles O24: each merge takes one node from the queue and keeps the weight that is in it. -/
theorem buildMergesDownToOneRoot : Obligations.BuildMergesDownToOneRoot := by
  intro freq h
  have leaves := leaves_nsym freq
  have le := leaves.le
  have forest := buildTree_forest h
  obtain ⟨shape, nnodes, root⟩ := buildTree_shape freq h
  have hq := shape.cons
  have live (i : Nat) (hi : i < 511) : (buildTree freq).live[i] = true ↔ i = 2 * nsym freq - 2 := by
    rw [forest.live_iff_last (by omega) i hi]
    omega
  refine ⟨fun k hk => ?_, buildTree_eq_iterate h, nnodes, root, live, ?_⟩
  · rw [(leaves.shape (by omega)).iterate_merge_queue (by have := leaves.q; omega), leaves.q]
  · have hr : (buildTree freq).root.toNat < 511 := by omega
    refine ⟨_, nodeAt_some _ _ hr, ?_⟩
    rw [← buildTree_liveWeight h, liveWeight_of_live_iff hr (root ▸ live)]

/-- Settles O23: the one leaf has rank 0, and `wrapSingle` puts the root over it. -/
theorem singleSymbolTreeHasSyntheticRoot : Obligations.SingleSymbolTreeHasSyntheticRoot := by
  intro freq b hb habs
  have h1 := nsym_eq_one hb habs
  obtain ⟨leaf, top⟩ := wrapSingle_nodes hb h1 (insertLeaves_hasLeaves freq)
  rw [(buildTree_one freq h1).1]
  have root : (insertLeaves freq 256).wrapSingle.root = 1 := rfl
  have nnodes : (insertLeaves freq 256).wrapSingle.nnodes = 2 := rfl
  generalize (insertLeaves freq 256).wrapSingle = a at leaf top root nnodes
  have hleaf := (nodeAt_some a 0 (by decide)).trans (congrArg some leaf)
  have htop := (nodeAt_some a 1 (by decide)).trans (congrArg some top)
  have missing : a.walkBit 1 true = .missing := by
    rw [Arena.walkBit, htop]
    rfl
  have codes : genCodes a = .ok (CodeTable.zero.record b [false]) := by
    rw [genCodes, root, walk_left_only htop rfl (by decide : (0 : BitVec 9) ≠ nullIdx) rfl]
    exact walk_leaf hleaf rfl 254 _ _
  exact ⟨leaf, top, nnodes, root, ⟨_, codes, bitsOf_record _ b (by decide)⟩, missing,
    by rw [decodeBits, root, missing], rfl⟩

/-- Settles O19: BUILD_EXEC is enabled, and NSYM tells which of its two cases is met. -/
theorem buildStepBuildsOrReportsEmpty : Obligations.BuildStepBuildsOrReportsEmpty := by
  intro s ha hb ho
  have build : exec .build s = .next (buildExec s) :=
    CoreStep.exec_of_enabled (c := .buildExec) ha ((running_iff s opBuild).2 ⟨hb, ho⟩)
  refine ⟨fun absent => ?_, fun ⟨b, hb⟩ => ?_⟩
  · rw [build, buildExec_of_none ((nsym_freq_eq_zero_iff s).2 absent)]
  · rw [build, buildExec_of_some fun h => hb ((nsym_freq_eq_zero_iff s).1 h b)]

end

section
/-! Optimality of the built tree (42_tree_builder.md R119), by Huffman's argument run forwards along the merges.
Each merge turns code lengths for the live entries that satisfy Kraft's inequality into such lengths for the live
entries after it, and what the lengths cost less, the subtree under the new entry costs more. -/

namespace Sys2Proof.Machine

/-! ### Code lengths and Kraft's inequality -/

section
variable {ι : Type}

/-- Kraft's inequality for code lengths of the members of `S`. -/
def KraftBounded (S : Finset ι) (len : ι → ℕ) : Prop := ∑ i ∈ S, (1 / 2 : ℝ) ^ len i ≤ 1

theorem uniquelyDecodable_of_prefixFree {S : Set Bits} (hnil : [] ∉ S) (h : ∀ u ∈ S, ∀ v ∈ S, u <+: v → u = v) :
    InformationTheory.UniquelyDecodable S := by
  intro L
  induction L with
  | nil =>
    intro M _ hM hflat
    cases M with
    | nil => rfl
    | cons v M =>
      have hv := hM v List.mem_cons_self
      rw [(List.append_eq_nil_iff.1 hflat.symm).1] at hv
      exact absurd hv hnil
  | cons u L ih =>
    intro M hL hM hflat
    have hu := hL u List.mem_cons_self
    cases M with
    | nil =>
      rw [(List.append_eq_nil_iff.1 hflat).1] at hu
      exact absurd hu hnil
    | cons v M =>
      have hv := hM v List.mem_cons_self
      have hflat : u ++ L.flatten = v ++ M.flatten := hflat
      have huv : u = v := by
        rcases List.prefix_or_prefix_of_prefix (List.prefix_append u _) (hflat ▸ List.prefix_append v _) with hp | hp
        · exact h u hu v hv hp
        · exact (h v hv u hu hp).symm
      subst huv
      rw [ih M (fun w hw => hL w (List.mem_cons_of_mem _ hw)) (fun w hw => hM w (List.mem_cons_of_mem _ hw))
        (List.append_cancel_left hflat)]

/-- A code of two or more words, none of which begins another, satisfies Kraft's inequality. -/
theorem kraftBounded_of_prefixFree {S : Finset ι} {c : ι → Bits} (hS : 1 < S.card)
    (h : ∀ i ∈ S, ∀ j ∈ S, i ≠ j → ¬c i <+: c j) : KraftBounded S fun i => (c i).length := by
  have inj : Set.InjOn c S := fun i hi j hj he => by
    by_contra hne
    exact h i hi j hj hne (he ▸ List.prefix_rfl)
  have decodable : InformationTheory.UniquelyDecodable ((S.image c : Finset Bits) : Set Bits) := by
    apply uniquelyDecodable_of_prefixFree
    · intro hnil
      obtain ⟨i, hi, he⟩ := Finset.mem_image.1 (Finset.mem_coe.1 hnil)
      obtain ⟨j, hj, hne⟩ := Finset.exists_mem_ne hS i
      exact h i hi j hj hne.symm (he ▸ List.nil_prefix)
    · simp only [Finset.coe_image, Set.forall_mem_image, Finset.mem_coe]
      intro i hi j hj hp
      by_contra hne
      exact h i hi j hj (fun he => hne (he ▸ rfl)) hp
  have kraft := InformationTheory.kraft_mcmillan_inequality decodable
  rw [Finset.sum_image inj, Fintype.card_bool] at kraft
  exact_mod_cast kraft

/-- Terms of length at most `m` and one more of length `m` that leave a gap leave room for another. -/
theorem kraft_room {R : Finset ι} {len : ι → ℕ} {m : ℕ} (hR : ∀ i ∈ R, len i ≤ m)
    (h : ∑ i ∈ R, (1 / 2 : ℝ) ^ len i + (1 / 2) ^ m < 1) : ∑ i ∈ R, (1 / 2 : ℝ) ^ len i + 2 * (1 / 2) ^ m ≤ 1 := by
  have hpow : (0 : ℝ) < 2 ^ m := by positivity
  have unit : (1 / 2 : ℝ) ^ m * 2 ^ m = 1 := by rw [← mul_pow]; norm_num
  have scaled : (∑ i ∈ R, (1 / 2 : ℝ) ^ len i) * 2 ^ m = (∑ i ∈ R, 2 ^ (m - len i) : ℕ) := by
    rw [Finset.sum_mul, Nat.cast_sum]
    refine Finset.sum_congr rfl fun i hi => ?_
    rw [Nat.cast_pow, Nat.cast_ofNat, pow_sub₀ _ two_ne_zero (hR i hi), one_div, inv_pow, mul_comm]
  generalize (∑ i ∈ R, 2 ^ (m - len i) : ℕ) = k at scaled
  have lt : k + 1 < 2 ^ m := by
    have := mul_lt_mul_of_pos_right h hpow
    rw [add_mul, scaled, unit, one_mul] at this
    exact_mod_cast this
  have le : ((k + 2 : ℕ) : ℝ) ≤ (2 ^ m : ℕ) := Nat.cast_le.2 lt
  refine le_of_mul_le_mul_right ?_ hpow
  rw [add_mul, mul_assoc, scaled, unit]
  push_cast at le
  linarith

variable [DecidableEq ι]

/-- Giving the greatest length to a member of least weight costs nothing. -/
theorem exists_len_greatest {S : Finset ι} {x : ι} (hx : x ∈ S) (w len : ι → ℕ) (hw : ∀ i ∈ S, w x ≤ w i) :
    ∃ len' : ι → ℕ, (∀ i ∈ S, len' i ≤ len' x) ∧ (∀ i ∈ S, ∃ j ∈ S, len' i = len j) ∧
      ∑ i ∈ S, (1 / 2 : ℝ) ^ len' i = ∑ i ∈ S, (1 / 2 : ℝ) ^ len i ∧ ∑ i ∈ S, w i * len' i ≤ ∑ i ∈ S, w i * len i := by
  obtain ⟨p, hp, hmax⟩ := S.exists_max_image len ⟨x, hx⟩
  have mem {i : ι} (hi : i ∈ S) : Equiv.swap x p i ∈ S := by
    rw [Equiv.swap_apply_def]
    split_ifs <;> assumption
  refine ⟨fun i => len (Equiv.swap x p i), fun i hi => ?_, fun i hi => ⟨_, mem hi, rfl⟩, ?_, ?_⟩
  · simpa using hmax _ (mem hi)
  · refine Equiv.Perm.sum_comp (Equiv.swap x p) S (fun i => (1 / 2 : ℝ) ^ len i) fun i hi => ?_
    by_contra hn
    exact hi (Equiv.swap_apply_of_ne_of_ne (fun he => hn (he ▸ hx)) fun he => hn (he ▸ hp))
  · by_cases hpx : p = x
    · simp [hpx]
    · have hp' : p ∈ S.erase x := Finset.mem_erase.2 ⟨hpx, hp⟩
      have rest : ∑ i ∈ (S.erase x).erase p, w i * len (Equiv.swap x p i) = ∑ i ∈ (S.erase x).erase p, w i * len i :=
        Finset.sum_congr rfl fun i hi => by
          simp only [Finset.mem_erase] at hi
          rw [Equiv.swap_apply_of_ne_of_ne hi.2.1 hi.1]
      have two := mul_add_mul_le_mul_add_mul (hw p hp) (hmax x hx)
      rw [← Finset.add_sum_erase S _ hx, ← Finset.add_sum_erase S _ hx, ← Finset.add_sum_erase _ _ hp',
        ← Finset.add_sum_erase _ _ hp', rest]
      simp only [Equiv.swap_apply_left, Equiv.swap_apply_right]
      omega

/-- Huffman's step: the two members of least weight can be replaced by one of their joint weight, at a saving of
that weight. -/
theorem exists_joined_len {S : Finset ι} {x y : ι} (hx : x ∈ S) (hy : y ∈ S.erase x) (w len : ι → ℕ)
    (hwx : ∀ i ∈ S, w x ≤ w i) (hwy : ∀ i ∈ S.erase x, w y ≤ w i) (hk : KraftBounded S len) :
    ∃ (len' : ι → ℕ) (m : ℕ),
      ∑ i ∈ (S.erase x).erase y, (1 / 2 : ℝ) ^ len' i + (1 / 2) ^ m ≤ 1 ∧
      ∑ i ∈ (S.erase x).erase y, w i * len' i + (w x + w y) * (m + 1) ≤ ∑ i ∈ S, w i * len i := by
  obtain ⟨len₁, max₁, -, kraft₁, cost₁⟩ := exists_len_greatest hx w len hwx
  obtain ⟨len₂, max₂, from₂, kraft₂, cost₂⟩ := exists_len_greatest hy w len₁ hwy
  have hk : ∑ i ∈ S, (1 / 2 : ℝ) ^ len i ≤ 1 := hk
  rw [← kraft₁, ← Finset.add_sum_erase S _ hx, ← kraft₂, ← Finset.add_sum_erase _ _ hy] at hk
  rw [← Finset.add_sum_erase S _ hx] at cost₁
  rw [← Finset.add_sum_erase _ _ hy] at cost₂
  have le_x : len₂ y ≤ len₁ x := by
    obtain ⟨j, hj, he⟩ := from₂ y hy
    exact he ▸ max₁ j (Finset.mem_of_mem_erase hj)
  have pos : (0 : ℝ) < (1 / 2) ^ len₁ x := by positivity
  have room := kraft_room (R := (S.erase x).erase y) (fun i hi => max₂ i (Finset.mem_of_mem_erase hi)) (by linarith)
  cases hm : len₂ y with
  | zero =>
    have : (0 : ℝ) ≤ ∑ i ∈ (S.erase x).erase y, (1 / 2) ^ len₂ i := by positivity
    rw [hm] at room
    norm_num at room
    linarith
  | succ m =>
    rw [hm] at room le_x cost₂
    refine ⟨len₂, m, by rw [pow_succ] at room; linarith, ?_⟩
    have := Nat.mul_le_mul_left (w x) le_x
    rw [add_mul]
    omega

end

/-! ### The live entries as a set -/

/-- R110: the live indices. -/
def Arena.liveSet (a : Arena) : Finset ℕ := (Finset.range 511).filter fun i => a.live[i]? = some true

/-- R30: the weight at an index of the arena. -/
def Arena.weightAt (a : Arena) (i : ℕ) : ℕ := (a.node[i]?.getD Node.zero).weight.toNat

theorem mem_liveSet {a : Arena} {i : ℕ} : i ∈ a.liveSet ↔ ∃ h : i < 511, a.live[i] = true := by
  simp only [Arena.liveSet, Finset.mem_filter, Finset.mem_range, Vector.getElem?_eq_some_iff]
  grind

theorem weightAt_eq {a : Arena} {i : ℕ} (h : i < 511) : a.weightAt i = a.node[i].weight.toNat := by
  simp [Arena.weightAt, h]

section
variable {N : ℕ} {a b : Arena} {x y : ℕ}

theorem Joined.liveSet_eq (j : Joined a b x y) : b.liveSet = insert a.nnodes.toNat ((a.liveSet.erase x).erase y) := by
  have room := j.room
  ext i
  simp only [mem_liveSet, Finset.mem_insert, Finset.mem_erase]
  constructor
  · rintro ⟨hi, hl⟩
    rcases (j.live i hi).1 hl with he | ⟨hl, hx, hy⟩
    · exact .inl he
    · exact .inr ⟨hy, hx, hi, hl⟩
  · rintro (rfl | ⟨hy, hx, hi, hl⟩)
    · exact ⟨room, (j.live _ room).2 (.inl rfl)⟩
    · exact ⟨hi, (j.live i hi).2 (.inr ⟨hl, hx, hy⟩)⟩

theorem Joined.weightAt_old (j : Joined a b x y) {i : ℕ} (hi : i ≠ a.nnodes.toNat) : b.weightAt i = a.weightAt i := by
  by_cases h : i < 511
  · rw [weightAt_eq h, weightAt_eq h, j.old i h hi]
  · simp [Arena.weightAt, h]

theorem Joined.weightAt_new (j : Joined a b x y) : b.weightAt a.nnodes.toNat = a.weightAt x + a.weightAt y := by
  have room := j.room
  have x_lt := j.x_lt
  have y_lt := j.y_lt
  rw [weightAt_eq room, j.new, weightAt_eq (by omega), weightAt_eq (by omega)]
  exact j.weight

/-- R110: extract_min removes a live entry of least weight. -/
theorem extractMin_weightAt_le {a' : Arena} {e : Entry} (h : a.extractMin = some (e, a')) :
    ∀ i ∈ a.liveSet, a.weightAt e.idx ≤ a.weightAt i := by
  obtain ⟨he, -, hw, -, hleast⟩ := extractMin_least h
  intro i hi
  obtain ⟨hi, hl⟩ := mem_liveSet.1 hi
  rw [weightAt_eq he, weightAt_eq hi, ← hw]
  by_cases hie : i = e.idx
  · subst hie
    rw [hw]
  · have := (Entry.before_iff _ _).1 (hleast i hi hl hie)
    simp only [BitVec.lt_def, ← BitVec.toNat_inj] at this
    omega

theorem extractMin_liveSet {a' : Arena} {e : Entry} (h : a.extractMin = some (e, a')) :
    a'.liveSet = a.liveSet.erase e.idx ∧ a'.weightAt = a.weightAt := by
  obtain ⟨he, -, -, rfl, -⟩ := extractMin_least h
  refine ⟨?_, rfl⟩
  ext i
  simp only [mem_liveSet, Finset.mem_erase, Vector.getElem_set]
  grind

/-- R110, R111: a merge joins the two live entries of least weight. -/
theorem Forest.joined_least (h : Forest N a) (hq : 2 ≤ a.queue.length) :
    ∃ x y, Joined a a.merge x y ∧ (∀ i ∈ a.liveSet, a.weightAt x ≤ a.weightAt i) ∧
      ∀ i ∈ a.liveSet.erase x, a.weightAt y ≤ a.weightAt i := by
  obtain ⟨x, y, j⟩ := h.shape.joined hq h.bounded
  obtain ⟨e, a₁, he⟩ := extractMin_some (a := a) (by omega)
  have len₁ := queue_length_extractMin he
  obtain ⟨f, a₂, hf⟩ := extractMin_some (a := a₁) (by omega)
  obtain ⟨elt, flt, -⟩ := extractMin_twice_ne he hf
  have room := j.room
  have x_lt := j.x_lt
  have y_lt := j.y_lt
  have new := (congrArg (fun m : Arena => m.node[a.nnodes.toNat]) (merge_eq_set room he hf)).symm.trans j.new
  simp only [Vector.getElem_set_self, Node.internal, Node.mk.injEq, ofNat_idx_eq_iff elt, ofNat_idx_eq_iff flt,
    toNat_ofNat_idx (x_lt.trans room), toNat_ofNat_idx (y_lt.trans room)] at new
  obtain ⟨-, rfl, rfl, -⟩ := new
  obtain ⟨hlive, hweight⟩ := extractMin_liveSet he
  have least₂ := extractMin_weightAt_le hf
  rw [hlive, hweight] at least₂
  exact ⟨_, _, j, extractMin_weightAt_le he, least₂⟩

/-! ### What the tree costs -/

/-- Against a code of cost `C`: `below i` is the cost of the subtree under `i`, its leaves counted from `i`, and `len`
are code lengths of the live entries with which they and the subtrees under them cost at most `C`. -/
structure CostsAtMost (N C : ℕ) (a : Arena) (below len : ℕ → ℕ) : Prop where
  leaf : ∀ i < N, below i = 0
  inner : ∀ i (h : i < 511), N ≤ i → i < a.nnodes.toNat →
    below i = a.weightAt i + below a.node[i].left.toNat + below a.node[i].right.toNat
  kraft : KraftBounded a.liveSet len
  cost : ∑ i ∈ a.liveSet, (a.weightAt i * len i + below i) ≤ C

/-- `below` after a merge: the new entry's subtree costs its own weight more than the two it is made of. -/
def Arena.joinBelow (a : Arena) (below : ℕ → ℕ) (x y : ℕ) : ℕ → ℕ :=
  Function.update below a.nnodes.toNat (a.weightAt x + a.weightAt y + below x + below y)

theorem joinBelow_self (a : Arena) (below : ℕ → ℕ) (x y : ℕ) :
    a.joinBelow below x y a.nnodes.toNat = a.weightAt x + a.weightAt y + below x + below y :=
  Function.update_self _ _ _

theorem joinBelow_of_ne (below : ℕ → ℕ) (x y : ℕ) {i : ℕ} (hi : i ≠ a.nnodes.toNat) :
    a.joinBelow below x y i = below i :=
  Function.update_of_ne hi _ _

/-- A sum over the live entries after a merge: the new entry, and those that stay. -/
theorem Joined.sum_liveSet {M : Type} [AddCommMonoid M] (j : Joined a b x y) (h : Shape N a) {f g : ℕ → M}
    (hfg : ∀ i, i ≠ a.nnodes.toNat → f i = g i) :
    ∑ i ∈ b.liveSet, f i = f a.nnodes.toNat + ∑ i ∈ (a.liveSet.erase x).erase y, g i := by
  have old {i : ℕ} (hi : i ∈ (a.liveSet.erase x).erase y) : i ≠ a.nnodes.toNat := by
    obtain ⟨hi, hl⟩ := mem_liveSet.1 (Finset.mem_of_mem_erase (Finset.mem_of_mem_erase hi))
    exact Nat.ne_of_lt (h.live_lt i hi hl)
  rw [j.liveSet_eq, Finset.sum_insert fun hmem => old hmem rfl]
  exact congrArg _ (Finset.sum_congr rfl fun i hi => hfg i (old hi))

theorem CostsAtMost.joined_inner {C : ℕ} {below len : ℕ → ℕ} (hc : CostsAtMost N C a below len) (h : Shape N a)
    (j : Joined a b x y) (i : ℕ) (hi : i < 511) (hN : N ≤ i) (hn : i < b.nnodes.toNat) :
    a.joinBelow below x y i = b.weightAt i + a.joinBelow below x y b.node[i].left.toNat +
      a.joinBelow below x y b.node[i].right.toNat := by
  have nnodes := j.nnodes
  by_cases he : i = a.nnodes.toNat
  · subst he
    have room := j.room
    have x_lt := j.x_lt
    have y_lt := j.y_lt
    rw [j.new, j.weightAt_new, joinBelow_self]
    simp only [Node.internal, toNat_ofNat_idx (x_lt.trans room), toNat_ofNat_idx (y_lt.trans room)]
    rw [joinBelow_of_ne below x y (Nat.ne_of_lt x_lt), joinBelow_of_ne below x y (Nat.ne_of_lt y_lt)]
  · obtain ⟨-, hl, hr⟩ := h.inner i hi hN (by omega)
    rw [j.old i hi he, j.weightAt_old he, joinBelow_of_ne below x y he, joinBelow_of_ne below x y (by omega),
      joinBelow_of_ne below x y (by omega), hc.inner i hi hN (by omega)]

/-- R119: the step of Huffman's argument. What the merge saves of the lengths it adds to the subtrees. -/
theorem Forest.costsAtMost_merge {C : ℕ} (h : Forest N a) (hq : 2 ≤ a.queue.length)
    (hc : ∃ below len, CostsAtMost N C a below len) : ∃ below len, CostsAtMost N C a.merge below len := by
  obtain ⟨below, len, hc⟩ := hc
  obtain ⟨x, y, j, hx, hy⟩ := h.joined_least hq
  have room := j.room
  have x_lt := j.x_lt
  have y_lt := j.y_lt
  have lo := h.shape.lo
  have hxm : x ∈ a.liveSet := mem_liveSet.2 ⟨by omega, j.live_x⟩
  have hym : y ∈ a.liveSet.erase x := Finset.mem_erase.2 ⟨j.ne.symm, mem_liveSet.2 ⟨by omega, j.live_y⟩⟩
  obtain ⟨len', m, kraft, cost⟩ := exists_joined_len hxm hym a.weightAt len hx hy hc.kraft
  have len_of_ne (i : ℕ) (hi : i ≠ a.nnodes.toNat) : Function.update len' a.nnodes.toNat m i = len' i :=
    Function.update_of_ne hi _ _
  refine ⟨a.joinBelow below x y, Function.update len' a.nnodes.toNat m, fun i hi => ?_, hc.joined_inner h.shape j, ?_, ?_⟩
  · rw [joinBelow_of_ne below x y (by omega), hc.leaf i hi]
  · rw [KraftBounded, j.sum_liveSet h.shape fun i hi => congrArg _ (len_of_ne i hi), Function.update_self, add_comm]
    exact kraft
  · have total := hc.cost
    have split := Finset.add_sum_erase _ below hxm
    rw [← Finset.add_sum_erase _ below hym] at split
    rw [Finset.sum_add_distrib] at total
    rw [j.sum_liveSet h.shape (g := fun i => a.weightAt i * len' i + below i) fun i hi => by
        rw [j.weightAt_old hi, len_of_ne i hi, joinBelow_of_ne below x y hi],
      j.weightAt_new, Function.update_self, joinBelow_self, Finset.sum_add_distrib]
    rw [mul_add, mul_one] at cost
    omega

end

/-! ### The leaves against a code (R112) -/

/-- The symbol at an index of the arena. -/
def Arena.symbolAt (a : Arena) (i : ℕ) : Byte := (a.node[i]?.getD Node.zero).symbol

theorem Arena.HasLeaves.leafAt {freq : Vector (BitVec 32) 256} {a : Arena} (h : a.HasLeaves freq) {b : Byte}
    (hb : present freq b = true) :
    a.symbolAt (rank freq b) = b ∧ a.weightAt (rank freq b) = (freq[b.toNat]?.getD 0).toNat := by
  have hw := (freq[b.toNat]'b.isLt).isLt
  rw [Arena.symbolAt, Arena.weightAt, h b hb, getD_eq_getElem]
  refine ⟨rfl, ?_⟩
  simp only [Option.getD_some, Node.leaf, BitVec.toNat_setWidth]
  omega

theorem cost_eq_sum (freq : Vector (BitVec 32) 256) (len : Byte → ℕ) :
    cost freq len = ∑ k ∈ Finset.range 256, (freq[k]?.getD 0).toNat * len (BitVec.ofNat 8 k) := rfl

theorem insertLeaves_costsAtMost {freq : Vector (BitVec 32) 256} {c : Byte → Bits} (hN : 2 ≤ nsym freq)
    (hc : ∀ x y : Byte, present freq x = true → present freq y = true → x ≠ y → ¬c x <+: c y) :
    ∃ below len, CostsAtMost (nsym freq) (cost freq fun b => (c b).length) (insertLeaves freq 256) below len := by
  have leaves := leaves_nsym freq
  have hleaf := insertLeaves_hasLeaves freq
  generalize insertLeaves freq 256 = a at leaves hleaf
  have le := leaves.le
  have nn := leaves.nn
  have hlive : a.liveSet = Finset.range (nsym freq) := by
    ext i
    rw [mem_liveSet, Finset.mem_range]
    exact ⟨fun ⟨hi, hl⟩ => (leaves.live i hi).1 hl, fun hi => ⟨by omega, (leaves.live i (by omega)).2 hi⟩⟩
  have sym {i : ℕ} (hi : i ∈ a.liveSet) : present freq (a.symbolAt i) = true ∧ rank freq (a.symbolAt i) = i := by
    rw [hlive, Finset.mem_range] at hi
    obtain ⟨b, hb, rfl⟩ := exists_rank_eq hi
    rw [(hleaf.leafAt hb).1]
    exact ⟨hb, rfl⟩
  have inj {i k : ℕ} (hi : i ∈ a.liveSet) (hk : k ∈ a.liveSet) (he : a.symbolAt i = a.symbolAt k) : i = k := by
    rw [← (sym hi).2, he, (sym hk).2]
  refine ⟨fun _ => 0, fun i => (c (a.symbolAt i)).length, fun _ _ => rfl, fun i _ h₁ h₂ => by omega, ?_, ?_⟩
  · refine kraftBounded_of_prefixFree (c := fun i => c (a.symbolAt i)) ?_ fun i hi k hk hne =>
      hc _ _ (sym hi).1 (sym hk).1 fun he => hne (inj hi hk he)
    rw [hlive, Finset.card_range]
    omega
  · have injOn : Set.InjOn (fun i => (a.symbolAt i).toNat) a.liveSet := fun i hi k hk he =>
      inj hi hk (BitVec.eq_of_toNat_eq he)
    have sub : a.liveSet.image (fun i => (a.symbolAt i).toNat) ⊆ Finset.range 256 := fun k hk => by
      obtain ⟨i, -, rfl⟩ := Finset.mem_image.1 hk
      exact Finset.mem_range.2 (a.symbolAt i).isLt
    rw [cost_eq_sum]
    refine le_trans (le_of_eq ?_) (Finset.sum_le_sum_of_subset sub)
    rw [Finset.sum_image injOn]
    refine Finset.sum_congr rfl fun i hi => ?_
    obtain ⟨hp, hr⟩ := sym hi
    have hw := (hleaf.leafAt hp).2
    rw [hr] at hw
    rw [hw, BitVec.ofNat_toNat, BitVec.setWidth_eq, add_zero]

theorem buildTree_costsAtMost {freq : Vector (BitVec 32) 256} {c : Byte → Bits} (hN : 2 ≤ nsym freq)
    (hc : ∀ x y : Byte, present freq x = true → present freq y = true → x ≠ y → ¬c x <+: c y) :
    ∃ below len, CostsAtMost (nsym freq) (cost freq fun b => (c b).length) (buildTree freq) below len :=
  buildTree_induct hN (P := fun a => ∃ below len, CostsAtMost (nsym freq) (cost freq fun b => (c b).length) a below len)
    (fun _ hf hp hq => hf.costsAtMost_merge hq hp)
    (fun _ _ ⟨below, len, h⟩ => ⟨below, len, h.leaf, h.inner, h.kraft, h.cost⟩) (insertLeaves_costsAtMost hN hc)

/-! ### The code table against the tree (R121) -/

/-- R121: recording one code costs at most that code more. -/
theorem cost_record_le (freq : Vector (BitVec 32) 256) (t : CodeTable) (b : Byte) (path : Bits) :
    cost freq (fun s => ((t.record b path).lenOf s).toNat) ≤
      cost freq (fun s => (t.lenOf s).toNat) + (freq[b.toNat]?.getD 0).toNat * path.length := by
  have entry (k : ℕ) (hk : k ∈ Finset.range 256) :
      (freq[k]?.getD 0).toNat * ((t.record b path).lenOf (BitVec.ofNat 8 k)).toNat ≤
        (freq[k]?.getD 0).toNat * (t.lenOf (BitVec.ofNat 8 k)).toNat +
          if k = b.toNat then (freq[b.toNat]?.getD 0).toNat * path.length else 0 := by
    have hk' : (BitVec.ofNat 8 k).toNat = k := by
      rw [BitVec.toNat_ofNat]
      exact Nat.mod_eq_of_lt (Finset.mem_range.1 hk)
    simp only [CodeTable.lenOf, CodeTable.record, hk', Vector.getElem_set, eq_comm (a := k)]
    by_cases he : b.toNat = k
    · rw [if_pos he, if_pos he, BitVec.toNat_ofNat, he]
      exact Nat.le_add_left_of_le (Nat.mul_le_mul_left _ (Nat.mod_le _ _))
    · rw [if_neg he, if_neg he, add_zero]
  rw [cost_eq_sum, cost_eq_sum]
  refine (Finset.sum_le_sum entry).trans_eq ?_
  rw [Finset.sum_add_distrib, Finset.sum_ite_eq', if_pos (Finset.mem_range.2 b.isLt)]

theorem cost_zero (freq : Vector (BitVec 32) 256) : cost freq (fun s => (CodeTable.zero.lenOf s).toNat) = 0 := by
  simp [cost_eq_sum, CodeTable.lenOf, CodeTable.zero]

theorem walk_inner {a : Arena} {i : BitVec 9} {n : Node} (hn : a.nodeAt i = some n) (hl : n.isLeaf = false)
    (left : n.left ≠ nullIdx) (right : n.right ≠ nullIdx) {d : Nat} {path : Bits} {t t' : CodeTable}
    (h : walk a (d + 1) i path t = .ok t') :
    ∃ u, walk a d n.left (path ++ [false]) t = .ok u ∧ walk a d n.right (path ++ [true]) u = .ok t' := by
  simp only [walk, hn, hl, Bool.false_eq_true, if_false, if_neg left, if_neg right] at h
  cases hu : walk a d n.left (path ++ [false]) t with
  | error f => simp [hu] at h
  | ok u => exact ⟨u, rfl, by simpa only [hu] using h⟩

/-- R121: what the traversal records under an entry costs at most the subtree under it, at the depth of the entry. -/
theorem Forest.walk_cost_le {freq : Vector (BitVec 32) 256} {a : Arena} {C : ℕ} {below len : ℕ → ℕ}
    (h : Forest (nsym freq) a) (hleaf : a.HasLeaves freq) (hc : CostsAtMost (nsym freq) C a below len) (d : ℕ) :
    ∀ (i : BitVec 9) (path : Bits) (t t' : CodeTable), i.toNat < 511 → i.toNat < a.nnodes.toNat →
      walk a d i path t = .ok t' →
      cost freq (fun s => (t'.lenOf s).toNat) ≤
        cost freq (fun s => (t.lenOf s).toNat) + a.weightAt i.toNat * path.length + below i.toNat := by
  induction d with
  | zero =>
    intro i path t t' _ _ hw
    cases hw
  | succ d ih =>
    intro i path t t' h511 hn hw
    have node := nodeAt_some a i h511
    rcases Nat.lt_or_ge i.toNat (nsym freq) with hN | hN
    · obtain ⟨b, hb, hr⟩ := exists_rank_eq hN
      obtain ⟨hsym, hweight⟩ := hleaf.leafAt hb
      rw [walk_leaf node (h.shape.leaf _ h511 hN)] at hw
      cases hw
      have hs : a.node[i.toNat].symbol = b := by
        rw [← hsym, hr]
        simp [Arena.symbolAt, h511]
      rw [hs, ← hr, hweight]
      exact Nat.le_add_right_of_le (cost_record_le freq t b path)
    · obtain ⟨inner, hl, hr⟩ := h.shape.inner _ h511 hN hn
      obtain ⟨hl511, hr511, -, weight⟩ := h.joins _ h511 hN hn
      have ne_null {c : BitVec 9} (hc : c.toNat < 511) : c ≠ nullIdx := fun he => by simp [he] at hc
      obtain ⟨u, hu, hw⟩ := walk_inner node inner (ne_null hl511) (ne_null hr511) hw
      have left := ih _ _ _ _ hl511 (by omega) hu
      have right := ih _ _ _ _ hr511 (by omega) hw
      rw [← weightAt_eq, ← weightAt_eq, ← weightAt_eq] at weight
      rw [List.length_append, List.length_singleton] at left right
      rw [hc.inner _ h511 hN hn, weight]
      linarith

end Sys2Proof.Machine

open Sys2Proof Sys2Proof.Machine

/-- Settles O26: the table costs at most the tree (`walk_cost_le`), and the tree at most any other code
(`buildTree_costsAtMost`). -/
theorem huffmanCodeIsOptimal : Obligations.HuffmanCodeIsOptimal := by
  intro freq t c hN ht hc
  obtain ⟨below, len, costs⟩ := buildTree_costsAtMost hN hc
  obtain ⟨shape, nnodes, root⟩ := buildTree_shape freq hN
  have forest := buildTree_forest hN
  have hleaf := buildTree_hasLeaves (freq := freq) (by omega)
  generalize buildTree freq = a at ht costs shape nnodes root forest hleaf
  have le := shape.le
  have live : a.root.toNat ∈ a.liveSet := mem_liveSet.2 ⟨by omega, forest.last_live _ (by omega) (by omega)⟩
  have table := forest.walk_cost_le hleaf costs _ _ _ _ _ (by omega) (by omega) ht
  rw [cost_zero, List.length_nil, mul_zero, add_zero, zero_add] at table
  calc cost freq (fun b => (t.lenOf b).toNat)
      ≤ below a.root.toNat := table
    _ ≤ a.weightAt a.root.toNat * len a.root.toNat + below a.root.toNat := Nat.le_add_left _ _
    _ ≤ ∑ i ∈ a.liveSet, (a.weightAt i * len i + below i) :=
        Finset.single_le_sum (f := fun i => a.weightAt i * len i + below i) (fun _ _ => Nat.zero_le _) live
    _ ≤ cost freq (fun b => (c b).length) := costs.cost

end

section
/-! The code table of a built tree (43_code_table.md R120 to R123). Every entry of the tree has one path from the root,
because it has one parent; so a symbol has one code, the traversal writes each entry of the table at most once, and the
code space of an internal entry is that of its two children. -/

namespace Sys2Proof.Machine

/-! ### Edges and paths (R33, R122) -/

/-- R31: the child on a bit, 0 = left, 1 = right. -/
def Node.childOn (n : Node) (bit : Bool) : BitVec 9 := if bit then n.right else n.left

/-- R33: the entry to which an edge leads from an internal entry. -/
def Arena.edge (a : Arena) (i : BitVec 9) (bit : Bool) : Option (BitVec 9) :=
  (a.nodeAt i).bind fun n => if n.isLeaf || n.childOn bit == nullIdx then none else some (n.childOn bit)

/-- R122: the entry to which a path of edge bits leads. -/
def Arena.descend (a : Arena) (i : BitVec 9) (path : Bits) : Option (BitVec 9) := path.foldlM a.edge i

/-- R122: a path of edge bits from an entry to the leaf of a symbol. From the root it is `Arena.IsCodeOf`. -/
def Arena.LeafPath (a : Arena) (i : BitVec 9) (b : Byte) (path : Bits) : Prop :=
  ∃ n, a.follow i path = some n ∧ n.isLeaf = true ∧ n.symbol = b

theorem edge_eq_some_iff {a : Arena} {i c : BitVec 9} {bit : Bool} :
    a.edge i bit = some c ↔ ∃ n, a.nodeAt i = some n ∧ n.isLeaf = false ∧ c ≠ nullIdx ∧ n.childOn bit = c := by
  simp only [Arena.edge, Option.bind_eq_some_iff]
  grind

theorem descend_concat (a : Arena) (i : BitVec 9) (path : Bits) (bit : Bool) :
    a.descend i (path ++ [bit]) = (a.descend i path).bind (a.edge · bit) := by
  simp [Arena.descend, List.foldlM_append]

/-- R122: a path goes on through internal entries and over children only. -/
theorem follow_cons {a : Arena} {i : BitVec 9} {n : Node} (hn : a.nodeAt i = some n) (bit : Bool) (path : Bits) :
    a.follow i (bit :: path) =
      if n.isLeaf || n.childOn bit == nullIdx then none else a.follow (n.childOn bit) path := by
  rw [Arena.follow, hn]
  rfl

theorem follow_eq_descend (a : Arena) (i : BitVec 9) (path : Bits) : a.follow i path = (a.descend i path).bind a.nodeAt := by
  induction path generalizing i with
  | nil => rfl
  | cons bit path ih =>
    have step : a.descend i (bit :: path) = (a.edge i bit).bind (a.descend · path) := rfl
    rw [step, Option.bind_assoc, Arena.edge]
    cases hn : a.nodeAt i with
    | none => simp [Arena.follow, hn]
    | some n =>
      rw [follow_cons hn, Option.bind_some]
      split
      · rfl
      · exact ih _

section
variable {a : Arena} {i : BitVec 9} {n : Node} {b : Byte}

theorem not_leafPath_null (a : Arena) (b : Byte) (path : Bits) : ¬a.LeafPath nullIdx b path := by
  have none : a.nodeAt nullIdx = none := by simp [Arena.nodeAt]
  rintro ⟨n, hf, -⟩
  cases path <;> simp [Arena.follow, none] at hf

variable (hn : a.nodeAt i = some n)
include hn

theorem leafPath_leaf_iff (hl : n.isLeaf = true) {path : Bits} : a.LeafPath i b path ↔ path = [] ∧ n.symbol = b := by
  cases path <;> simp [Arena.LeafPath, Arena.follow, hn, hl]

theorem exists_leafPath_leaf_iff (hl : n.isLeaf = true) : (∃ path, a.LeafPath i b path) ↔ n.symbol = b := by
  simp [leafPath_leaf_iff hn hl]

theorem not_leafPath_nil (hl : n.isLeaf = false) : ¬a.LeafPath i b [] := by
  simp [Arena.LeafPath, Arena.follow, hn, hl]

theorem leafPath_cons_iff (hl : n.isLeaf = false) {bit : Bool} {path : Bits} :
    a.LeafPath i b (bit :: path) ↔ a.LeafPath (n.childOn bit) b path := by
  rw [Arena.LeafPath, follow_cons hn, hl, Bool.false_or]
  split
  · rename_i hnull
    simp [beq_iff_eq.1 hnull, not_leafPath_null]
  · rfl

theorem exists_leafPath_inner_iff (hl : n.isLeaf = false) :
    (∃ path, a.LeafPath i b path) ↔ (∃ path, a.LeafPath n.left b path) ∨ ∃ path, a.LeafPath n.right b path := by
  constructor
  · rintro ⟨_ | ⟨bit, path⟩, h⟩
    · exact absurd h (not_leafPath_nil hn hl)
    · have h := (leafPath_cons_iff hn hl).1 h
      cases bit
      · exact .inl ⟨path, h⟩
      · exact .inr ⟨path, h⟩
  · rintro (⟨path, h⟩ | ⟨path, h⟩)
    · exact ⟨false :: path, (leafPath_cons_iff hn hl).2 h⟩
    · exact ⟨true :: path, (leafPath_cons_iff hn hl).2 h⟩

end

/-- R123: a path that goes on below a leaf leads nowhere. -/
theorem leafPath_eq_of_isPrefix {a : Arena} {i : BitVec 9} {b c : Byte} {p q : Bits} (hp : a.LeafPath i b p)
    (hq : a.LeafPath i c q) (h : p <+: q) : p = q := by
  obtain ⟨r, rfl⟩ := h
  induction p generalizing i with
  | nil =>
    obtain ⟨n, hn, hl, -⟩ := hp
    exact ((leafPath_leaf_iff hn hl).1 hq).1.symm
  | cons bit p ih =>
    have ⟨n, hf, _⟩ := hp
    cases hn : a.nodeAt i with
    | none => simp [Arena.follow, hn] at hf
    | some m =>
      have hl : m.isLeaf = false := Bool.eq_false_iff.2 fun hl => by simp [Arena.follow, hn, hl] at hf
      have := ih ((leafPath_cons_iff hn hl).1 hp) ((leafPath_cons_iff hn hl).1 hq)
      rw [List.cons_append, ← this]

/-! ### The tree of a frequency table (R112, R118) -/

/-- R112, R118: the arena holds a tree over the present symbols of `freq`, each with its leaf at its rank. -/
structure CodeTree (freq : Vector (BitVec 32) 256) (a : Arena) : Prop where
  shape : TreeShape (nsym freq) a
  leaves : a.HasLeaves freq
  root_inner : ∃ n, a.nodeAt a.root = some n ∧ n.isLeaf = false

theorem buildTree_codeTree {freq : Vector (BitVec 32) 256} (h : nsym freq ≠ 0) : CodeTree freq (buildTree freq) :=
  ⟨buildTree_treeShape h, buildTree_hasLeaves h, buildTree_root_inner freq⟩

section
variable {freq : Vector (BitVec 32) 256} {a : Arena} {i j : BitVec 9} {n : Node} {b : Byte} (h : CodeTree freq a)
include h

theorem CodeTree.root_lt : a.root.toNat < 511 := by
  obtain ⟨n, hn, -⟩ := h.root_inner
  exact (nodeAt_iff _ _).1 ⟨n, hn⟩

theorem CodeTree.nodeAt_eq (hi : i.toNat ≤ a.root.toNat) :
    a.nodeAt i = some (a.node[i.toNat]'(Nat.lt_of_le_of_lt hi h.root_lt)) :=
  nodeAt_some a i (Nat.lt_of_le_of_lt hi h.root_lt)

/-- R118: the internal entries stand at NSYM and above. -/
theorem CodeTree.isLeaf_iff (hi : i.toNat ≤ a.root.toNat) (hn : a.nodeAt i = some n) :
    n.isLeaf = true ↔ i.toNat < nsym freq := by
  have root := h.shape.root
  have root_lt := h.root_lt
  rw [h.nodeAt_eq hi, Option.some.injEq] at hn
  subst hn
  refine ⟨fun hl => ?_, fun hlt => h.shape.leaf _ (by omega) hlt⟩
  by_contra hge
  simp [(h.shape.inner i.toNat (by omega) (by omega) (by omega)).1] at hl

theorem CodeTree.nsym_le_of_inner (hi : i.toNat ≤ a.root.toNat) (hn : a.nodeAt i = some n) (hl : n.isLeaf = false) :
    nsym freq ≤ i.toNat := by
  by_contra hlt
  simp [(h.isLeaf_iff hi hn).2 (by omega)] at hl

/-- R118: where the children of an internal entry stand. -/
theorem CodeTree.children (hi : i.toNat ≤ a.root.toNat) (hn : a.nodeAt i = some n) (hl : n.isLeaf = false) :
    n.left ≠ n.right ∧ n.left.toNat < i.toNat ∧ ((n.right = nullIdx ∧ nsym freq = 1) ∨ n.right.toNat < i.toNat) := by
  have root := h.shape.root
  have root_lt := h.root_lt
  have hN := h.nsym_le_of_inner hi hn hl
  rw [h.nodeAt_eq hi, Option.some.injEq] at hn
  subst hn
  obtain ⟨-, left, ⟨right, one, -⟩ | ⟨right, ne, -⟩⟩ := h.shape.inner i.toNat (by omega) (by omega) (by omega)
  · refine ⟨fun he => ?_, left, .inl ⟨right, one⟩⟩
    rw [he, right] at left
    simp at left
    omega
  · exact ⟨ne, left, .inr right⟩

/-- R118: an edge goes from a parent down to its child. -/
theorem CodeTree.edge_parent {bit : Bool} (hi : i.toNat ≤ a.root.toNat) (he : a.edge i bit = some j) :
    a.ParentOf (nsym freq) j i.toNat ∧ j.toNat < i.toNat := by
  obtain ⟨n, hn, hl, hnull, rfl⟩ := edge_eq_some_iff.1 he
  have root := h.shape.root
  have root_lt := h.root_lt
  have hN := h.nsym_le_of_inner hi hn hl
  obtain ⟨-, left, right⟩ := h.children hi hn hl
  rw [h.nodeAt_eq hi, Option.some.injEq] at hn
  subst hn
  cases bit with
  | false => exact ⟨⟨by omega, by omega, by omega, .inl rfl⟩, left⟩
  | true => exact ⟨⟨by omega, by omega, by omega, .inr rfl⟩, right.resolve_left fun hr => hnull hr.1⟩

/-- R118: an entry is the child of one entry, on one side. -/
theorem CodeTree.edge_inj {k c : BitVec 9} {x y : Bool} (hi : i.toNat ≤ a.root.toNat) (hk : k.toNat ≤ a.root.toNat)
    (hx : a.edge i x = some c) (hy : a.edge k y = some c) : i = k ∧ x = y := by
  obtain ⟨parent_i, lt⟩ := h.edge_parent hi hx
  obtain ⟨parent_k, -⟩ := h.edge_parent hk hy
  obtain ⟨p, -, unique⟩ := h.shape.parent c (by omega)
  obtain rfl : i = k := BitVec.eq_of_toNat_eq ((unique _ parent_i).trans (unique _ parent_k).symm)
  obtain ⟨n, hn, hl, -, cx⟩ := edge_eq_some_iff.1 hx
  obtain ⟨m, hm, -, -, cy⟩ := edge_eq_some_iff.1 hy
  obtain rfl : n = m := Option.some.inj (hn.symm.trans hm)
  obtain ⟨ne, -⟩ := h.children hi hn hl
  refine ⟨rfl, ?_⟩
  cases x <;> cases y <;> simp_all [Node.childOn]

theorem CodeTree.descend_le {path : Bits} (hi : i.toNat ≤ a.root.toNat) (hd : a.descend i path = some j) :
    j.toNat + path.length ≤ i.toNat := by
  induction path using List.reverseRecOn generalizing j with
  | nil =>
    cases hd
    exact Nat.le_refl _
  | append_singleton path bit ih =>
    rw [descend_concat, Option.bind_eq_some_iff] at hd
    obtain ⟨k, hk, he⟩ := hd
    have := ih hk
    have := (h.edge_parent (by omega) he).2
    rw [List.length_append, List.length_singleton]
    omega

/-- R122: from one entry to another there is at most one path: its last edge comes from the one parent. -/
theorem CodeTree.descend_inj {p q : Bits} (hi : i.toNat ≤ a.root.toNat) (hp : a.descend i p = some j)
    (hq : a.descend i q = some j) : p = q := by
  have shorter {r : Bits} (hr : a.descend i r = some i) : r = [] := by
    have := h.descend_le hi hr
    exact List.length_eq_zero_iff.1 (by omega)
  induction p using List.reverseRecOn generalizing q j with
  | nil =>
    cases hp
    exact (shorter hq).symm
  | append_singleton p x ih =>
    rcases List.eq_nil_or_concat' q with rfl | ⟨q, y, rfl⟩
    · cases hq
      exact shorter hp
    · rw [descend_concat, Option.bind_eq_some_iff] at hp hq
      obtain ⟨k, hk, hx⟩ := hp
      obtain ⟨l, hl, hy⟩ := hq
      have k_le := h.descend_le hi hk
      have l_le := h.descend_le hi hl
      obtain ⟨rfl, rfl⟩ := h.edge_inj (by omega) (by omega) hx hy
      rw [ih hk hl]

theorem CodeTree.exists_edge {c : BitVec 9} {k : Nat} (hp : a.ParentOf (nsym freq) c k) (hc : c ≠ nullIdx) :
    ∃ (i : BitVec 9) (bit : Bool), i.toNat ≤ a.root.toNat ∧ a.edge i bit = some c := by
  obtain ⟨hk, hN, hn, hchild⟩ := hp
  have root := h.shape.root
  have hidx := toNat_ofNat_idx hk
  have node := nodeAt_some a (BitVec.ofNat 9 k) (by omega)
  simp only [hidx] at node
  obtain ⟨bit, hbit⟩ : ∃ bit, a.node[k].childOn bit = c := hchild.elim (⟨false, ·⟩) (⟨true, ·⟩)
  exact ⟨_, bit, by omega, edge_eq_some_iff.2 ⟨_, node, (h.shape.inner k hk hN hn).1, hc, hbit⟩⟩

/-- R118: every entry is reached from the root: its parent is. -/
theorem CodeTree.exists_descend (hj : j.toNat ≤ a.root.toNat) : ∃ path, a.descend a.root path = some j := by
  induction hd : a.root.toNat - j.toNat using Nat.strong_induction_on generalizing j with
  | _ d ih =>
    rcases Nat.lt_or_ge j.toNat a.root.toNat with lt | ge
    · have root_lt := h.root_lt
      obtain ⟨k, parent, -⟩ := h.shape.parent j lt
      obtain ⟨i, bit, hi, he⟩ := h.exists_edge parent fun hnull => by
        rw [hnull] at lt
        simp at lt
        omega
      have := (h.edge_parent hi he).2
      obtain ⟨path, hp⟩ := ih _ (by omega) hi rfl
      exact ⟨path ++ [bit], by rw [descend_concat, hp]; exact he⟩
    · exact ⟨[], congrArg some (BitVec.eq_of_toNat_eq (by omega))⟩

/-! ### The code of a symbol (R122) -/

/-- R112: the leaves are those of the present symbols, at their ranks. -/
theorem CodeTree.leaf_symbol (hi : i.toNat ≤ a.root.toNat) (hn : a.nodeAt i = some n) (hl : n.isLeaf = true) :
    present freq n.symbol = true ∧ rank freq n.symbol = i.toNat := by
  obtain ⟨b, hb, hr⟩ := exists_rank_eq ((h.isLeaf_iff hi hn).1 hl)
  have := h.leaves b hb
  rw [hr, ← Arena.nodeAt, hn, Option.some.injEq] at this
  rw [this]
  exact ⟨hb, hr⟩

theorem CodeTree.leafPath_descend {path : Bits} (hi : i.toNat ≤ a.root.toNat) (hp : a.LeafPath i b path) :
    present freq b = true ∧ ∃ j, a.descend i path = some j ∧ j.toNat = rank freq b := by
  obtain ⟨n, hf, hl, rfl⟩ := hp
  rw [follow_eq_descend, Option.bind_eq_some_iff] at hf
  obtain ⟨j, hj, hn⟩ := hf
  have := h.descend_le hi hj
  obtain ⟨hb, hr⟩ := h.leaf_symbol (by omega) hn hl
  exact ⟨hb, j, hj, hr.symm⟩

theorem CodeTree.leafPath_unique {p q : Bits} (hi : i.toNat ≤ a.root.toNat) (hp : a.LeafPath i b p)
    (hq : a.LeafPath i b q) : p = q := by
  obtain ⟨-, j, hj, rj⟩ := h.leafPath_descend hi hp
  obtain ⟨-, k, hk, rk⟩ := h.leafPath_descend hi hq
  obtain rfl : j = k := BitVec.eq_of_toNat_eq (rj.trans rk.symm)
  exact h.descend_inj hi hj hk

/-- R122, R123: the symbols with a code are the present ones. -/
theorem CodeTree.exists_code_iff (b : Byte) : (∃ path, a.LeafPath a.root b path) ↔ present freq b = true := by
  refine ⟨fun ⟨_, hp⟩ => (h.leafPath_descend (Nat.le_refl _) hp).1, fun hb => ?_⟩
  have root := h.shape.root
  have root_lt := h.root_lt
  have leaf := h.leaves b hb
  have lt : rank freq b < a.nnodes.toNat := by
    by_contra hge
    have hlt : rank freq b < 511 := (Vector.getElem?_eq_some_iff.1 leaf).1
    rw [Vector.getElem?_eq_getElem hlt, h.shape.zero _ hlt (by omega)] at leaf
    simp [Node.zero, Node.leaf] at leaf
  have hidx := toNat_ofNat_idx (i := rank freq b) (by omega)
  obtain ⟨path, hp⟩ := h.exists_descend (j := BitVec.ofNat 9 (rank freq b)) (by omega)
  rw [← hidx] at leaf
  exact ⟨path, _, by rw [follow_eq_descend, hp]; exact leaf, rfl, rfl⟩

end

/-! ### What the traversal writes (R121) -/

/-- R34: the two halves of a symbol's entry. -/
def CodeTable.entry (t : CodeTable) (b : Byte) : BitVec 8 × BitVec 256 := (t.lenOf b, t.codeOf b)

/-- R121: the entry that records a path. -/
def pathEntry (path : Bits) : BitVec 8 × BitVec 256 := (BitVec.ofNat 8 path.length, BitVec.ofNat 256 (num path))

theorem entry_record (t : CodeTable) (c b : Byte) (path : Bits) :
    (t.record c path).entry b = if c = b then pathEntry path else t.entry b := by
  simp only [CodeTable.entry, CodeTable.lenOf, CodeTable.codeOf, CodeTable.record, Vector.getElem_set, BitVec.toNat_inj]
  split <;> rfl

/-- R121: from `u` to `v` a traversal, reached by `path`, has recorded the leaves under entry `i` and nothing else. -/
structure Arena.Records (a : Arena) (i : BitVec 9) (path : Bits) (u v : CodeTable) : Prop where
  under : ∀ b rest, a.LeafPath i b rest → v.entry b = pathEntry (path ++ rest)
  other : ∀ b, (¬∃ rest, a.LeafPath i b rest) → v.entry b = u.entry b

theorem records_null (a : Arena) (path : Bits) (t : CodeTable) : a.Records nullIdx path t t :=
  ⟨fun b rest hp => absurd hp (not_leafPath_null a b rest), fun _ _ => rfl⟩

section
variable {a : Arena} {i : BitVec 9} {n : Node} (hn : a.nodeAt i = some n)
include hn

theorem records_leaf (hl : n.isLeaf = true) (path : Bits) (t : CodeTable) :
    a.Records i path t (t.record n.symbol path) := by
  refine ⟨fun b rest hp => ?_, fun b hb => ?_⟩
  · obtain ⟨rfl, rfl⟩ := (leafPath_leaf_iff hn hl).1 hp
    rw [entry_record, if_pos rfl, List.append_nil]
  · rw [entry_record, if_neg fun he => hb ((exists_leafPath_leaf_iff hn hl).2 he)]

/-- R121: left before right. The second traversal leaves the entries of the first. -/
theorem records_inner (hl : n.isLeaf = false)
    (disjoint : ∀ b, (∃ rest, a.LeafPath n.left b rest) → ¬∃ rest, a.LeafPath n.right b rest)
    {path : Bits} {t u v : CodeTable} (left : a.Records n.left (path ++ [false]) t u)
    (right : a.Records n.right (path ++ [true]) u v) : a.Records i path t v := by
  refine ⟨fun b rest hp => ?_, fun b hb => ?_⟩
  · cases rest with
    | nil => exact absurd hp (not_leafPath_nil hn hl)
    | cons bit rest =>
      have hp := (leafPath_cons_iff hn hl).1 hp
      rw [List.append_cons]
      cases bit with
      | false => rw [right.other b (disjoint b ⟨rest, hp⟩), left.under b rest hp]
      | true => exact right.under b rest hp
  · rw [exists_leafPath_inner_iff hn hl, not_or] at hb
    rw [right.other b hb.2, left.other b hb.1]

/-- R121: the two calls of the traversal at an internal entry, each made only where there is a child. -/
theorem walk_children (hl : n.isLeaf = false) {d : Nat} {path : Bits} {t v : CodeTable}
    (hw : walk a (d + 1) i path t = .ok v) :
    ∃ u, (n.left = nullIdx ∧ u = t ∨ n.left ≠ nullIdx ∧ walk a d n.left (path ++ [false]) t = .ok u) ∧
      (n.right = nullIdx ∧ v = u ∨ n.right ≠ nullIdx ∧ walk a d n.right (path ++ [true]) u = .ok v) := by
  simp only [walk, hn, hl, Bool.false_eq_true, if_false] at hw
  split at hw
  · cases hw
  · rename_i u hu
    refine ⟨u, ?_, ?_⟩
    · split at hu
      · exact .inl ⟨‹_›, by cases hu; rfl⟩
      · exact .inr ⟨‹_›, hu⟩
    · split at hw
      · exact .inl ⟨‹_›, by cases hw; rfl⟩
      · exact .inr ⟨‹_›, hw⟩

end

section
variable {freq : Vector (BitVec 32) 256} {a : Arena} {i : BitVec 9} {n : Node} (h : CodeTree freq a)
include h

theorem CodeTree.disjoint (hi : i.toNat ≤ a.root.toNat) (hn : a.nodeAt i = some n) (hl : n.isLeaf = false) (b : Byte) :
    (∃ path, a.LeafPath n.left b path) → ¬∃ path, a.LeafPath n.right b path := by
  rintro ⟨p, hp⟩ ⟨q, hq⟩
  have := h.leafPath_unique hi ((leafPath_cons_iff (bit := false) hn hl).2 hp) ((leafPath_cons_iff (bit := true) hn hl).2 hq)
  simp at this

theorem CodeTree.walk_records (d : Nat) : ∀ (i : BitVec 9) (path : Bits) (t v : CodeTable), i.toNat ≤ a.root.toNat →
    walk a d i path t = .ok v → a.Records i path t v := by
  induction d with
  | zero =>
    intro i path t v _ hw
    cases hw
  | succ d ih =>
    intro i path t v hi hw
    obtain ⟨n, hn⟩ : ∃ n, a.nodeAt i = some n := ⟨_, h.nodeAt_eq hi⟩
    cases hl : n.isLeaf with
    | true =>
      rw [walk_leaf hn hl] at hw
      cases hw
      exact records_leaf hn hl path t
    | false =>
      obtain ⟨-, hleft, hright⟩ := h.children hi hn hl
      obtain ⟨u, left, right⟩ := walk_children hn hl hw
      have child {c : BitVec 9} {p : Bits} {t v : CodeTable} (hc : c ≠ nullIdx → c.toNat < i.toNat)
          (hw : c = nullIdx ∧ v = t ∨ c ≠ nullIdx ∧ walk a d c p t = .ok v) : a.Records c p t v := by
        rcases hw with ⟨rfl, rfl⟩ | ⟨hnull, hw⟩
        · exact records_null a p _
        · exact ih c p t v (Nat.le_of_lt (Nat.lt_of_lt_of_le (hc hnull) hi)) hw
      exact records_inner hn hl (h.disjoint hi hn hl) (child (fun _ => hleft) left)
        (child (fun hnull => hright.resolve_left fun hr => hnull hr.1) right)

/-- R121: what GENCODES makes of a tree. -/
theorem CodeTree.genCodes_records {t : CodeTable} (ht : genCodes a = .ok t) :
    a.Records a.root [] CodeTable.zero t :=
  h.walk_records 256 a.root [] CodeTable.zero t (Nat.le_refl _) ht

end

/-! ### The code table of a built tree (R122) -/

theorem toNat_pathEntry {path : Bits} (hlen : path.length < 256) :
    (pathEntry path).1.toNat = path.length ∧ (pathEntry path).2.toNat = num path := by
  have hnum : num path < 2 ^ 256 := (num_lt path).trans (Nat.pow_lt_pow_right (by omega) hlen)
  exact ⟨Nat.mod_eq_of_lt hlen, Nat.mod_eq_of_lt hnum⟩

theorem entry_zero (b : Byte) : CodeTable.zero.entry b = (0, 0) := by
  simp [CodeTable.entry, CodeTable.lenOf, CodeTable.codeOf, CodeTable.zero]

section
variable {freq : Vector (BitVec 32) 256} {t : CodeTable} {b : Byte} (ht : genCodes (buildTree freq) = .ok t)
include ht

/-- R122: CODE_LEN and CODE hold the path to the leaf of the symbol. -/
theorem entry_of_isCodeOf (h : nsym freq ≠ 0) {path : Bits} (hp : (buildTree freq).IsCodeOf b path) :
    (t.lenOf b).toNat = path.length ∧ (t.codeOf b).toNat = num path ∧ t.bitsOf b = path := by
  have depth := (buildTree_depth h hp).2
  have le := nsym_le freq
  have entry := ((buildTree_codeTree h).genCodes_records ht).under b path hp
  obtain ⟨len, code⟩ := toNat_pathEntry (path := path) (by omega)
  rw [List.nil_append] at entry
  have len : (t.lenOf b).toNat = path.length := by rw [← len, ← entry]; rfl
  have code : (t.codeOf b).toNat = num path := by rw [← code, ← entry]; rfl
  exact ⟨len, code, by rw [CodeTable.bitsOf, len, code, bits_num]⟩

/-- R122: a symbol that is not present has the zero entry. -/
theorem entry_of_absent (h : nsym freq ≠ 0) (hb : present freq b = false) : t.lenOf b = 0 ∧ t.codeOf b = 0 := by
  have tree := buildTree_codeTree h
  have entry := (tree.genCodes_records ht).other b (by rw [tree.exists_code_iff, hb]; exact Bool.false_ne_true)
  rw [entry_zero, CodeTable.entry, Prod.mk.injEq] at entry
  exact entry

end

/-! ### The core step (R120) -/

theorem gencodesExec_of_valid {s : State} {t : CodeTable} (hv : s.treeValid = true) (ht : genCodes s.arena = .ok t) :
    gencodesExec s = .next { s with codes := t, codesValid := true, busy := false, done := true } := by
  rw [gencodesExec, if_neg (by simp [hv]), ht]
  rfl

theorem gencodesExec_of_invalid {s : State} (hv : s.treeValid = false) :
    gencodesExec s = .next { s with err := .notReady, busy := false, done := true } := by
  rw [gencodesExec, if_pos hv]
  rfl

/-! ### The code space (R123) -/

open Classical in
/-- R123: the sum of 2^(-len), scaled by 2^m, over the symbols whose leaves stand under an entry. -/
noncomputable def Arena.codeSpace (a : Arena) (len : Byte → ℕ) (m : ℕ) (i : BitVec 9) : ℕ :=
  ∑ k ∈ Finset.range 256, if ∃ path, a.LeafPath i (BitVec.ofNat 8 k) path then 2 ^ (m - len (BitVec.ofNat 8 k)) else 0

theorem codeSpace_null (a : Arena) (len : Byte → ℕ) (m : ℕ) : a.codeSpace len m nullIdx = 0 :=
  Finset.sum_eq_zero fun _ _ => if_neg fun ⟨path, hp⟩ => not_leafPath_null a _ path hp

theorem codeSpace_leaf {a : Arena} {i : BitVec 9} {n : Node} (hn : a.nodeAt i = some n) (hl : n.isLeaf = true)
    (len : Byte → ℕ) (m : ℕ) : a.codeSpace len m i = 2 ^ (m - len n.symbol) := by
  have sym : BitVec.ofNat 8 n.symbol.toNat = n.symbol := by rw [BitVec.ofNat_toNat, BitVec.setWidth_eq]
  simp only [Arena.codeSpace, exists_leafPath_leaf_iff hn hl]
  rw [Finset.sum_eq_single n.symbol.toNat, sym, if_pos rfl]
  · intro k hk hne
    refine if_neg fun he => hne ?_
    rw [he, BitVec.toNat_ofNat, Nat.mod_eq_of_lt (Finset.mem_range.1 hk)]
  · exact fun hout => absurd (Finset.mem_range.2 n.symbol.isLt) hout

section
variable {freq : Vector (BitVec 32) 256} {a : Arena} {i : BitVec 9} {n : Node} (h : CodeTree freq a)
include h

theorem CodeTree.codeSpace_inner (hi : i.toNat ≤ a.root.toNat) (hn : a.nodeAt i = some n) (hl : n.isLeaf = false)
    (len : Byte → ℕ) (m : ℕ) : a.codeSpace len m i = a.codeSpace len m n.left + a.codeSpace len m n.right := by
  classical
  simp only [Arena.codeSpace, ← Finset.sum_add_distrib]
  refine Finset.sum_congr rfl fun k _ => ?_
  have under := exists_leafPath_inner_iff (b := BitVec.ofNat 8 k) hn hl
  by_cases left : ∃ path, a.LeafPath n.left (BitVec.ofNat 8 k) path
  · rw [if_pos (under.2 (.inl left)), if_pos left, if_neg (h.disjoint hi hn hl _ left), Nat.add_zero]
  · rw [if_neg left, Nat.zero_add]
    exact if_congr (under.trans (or_iff_right left)) rfl rfl

/-- R123: where every internal entry has two children, a subtree at depth `base` fills 2^(-base) of the code space. An
entry has no more levels under it than internal entries up to it, so `m` is never below a length. -/
theorem CodeTree.codeSpace_eq {len : Byte → ℕ} {m : ℕ} (i : BitVec 9) : ∀ base : ℕ, i.toNat ≤ a.root.toNat →
    (nsym freq = 1 → i.toNat < 1) → base + (i.toNat + 1 - nsym freq) ≤ m →
    (∀ b path, a.LeafPath i b path → len b = base + path.length) → a.codeSpace len m i = 2 ^ (m - base) := by
  induction hd : i.toNat using Nat.strong_induction_on generalizing i with
  | _ d ih =>
    subst hd
    intro base hi full hm hlen
    obtain ⟨n, hn⟩ : ∃ n, a.nodeAt i = some n := ⟨_, h.nodeAt_eq hi⟩
    cases hl : n.isLeaf with
    | true =>
      rw [codeSpace_leaf hn hl, hlen _ [] ((leafPath_leaf_iff hn hl).2 ⟨rfl, rfl⟩), List.length_nil, Nat.add_zero]
    | false =>
      have hN := h.nsym_le_of_inner hi hn hl
      obtain ⟨-, left, right⟩ := h.children hi hn hl
      have right := right.resolve_left fun hr => by omega
      have deeper (bit : Bool) b path (hp : a.LeafPath (n.childOn bit) b path) : len b = base + 1 + path.length := by
        rw [hlen b (bit :: path) ((leafPath_cons_iff hn hl).2 hp), List.length_cons]
        omega
      rw [h.codeSpace_inner hi hn hl, ih _ left _ rfl (base + 1) (by omega) (by omega) (by omega) (deeper false),
        ih _ right _ rfl (base + 1) (by omega) (by omega) (by omega) (deeper true), ← Nat.two_mul, ← Nat.pow_succ']
      congr 1
      omega

end

/-- R123: the whole tree fills the code space, and the tree of one symbol half of it. -/
theorem buildTree_codeSpace {freq : Vector (BitVec 32) 256} {len : Byte → ℕ} (h : nsym freq ≠ 0)
    (hlen : ∀ b path, (buildTree freq).IsCodeOf b path → len b = path.length) :
    (buildTree freq).codeSpace len 255 (buildTree freq).root = if nsym freq = 1 then 2 ^ 254 else 2 ^ 255 := by
  have tree := buildTree_codeTree h
  have le := nsym_le freq
  split
  · rename_i one
    have root : (buildTree freq).root.toNat = 1 := by rw [(buildTree_one freq one).1]; rfl
    generalize buildTree freq = a at hlen tree root
    obtain ⟨n, hn, hl⟩ := tree.root_inner
    obtain ⟨ne, left, right⟩ := tree.children (Nat.le_refl _) hn hl
    have null : n.right = nullIdx := by
      rcases right with ⟨hr, -⟩ | right
      · exact hr
      · exact absurd (BitVec.eq_of_toNat_eq (by omega)) ne
    have under b path (hp : a.LeafPath n.left b path) : len b = 1 + path.length := by
      rw [hlen b (false :: path) ((leafPath_cons_iff hn hl).2 hp), List.length_cons, Nat.add_comm]
    rw [tree.codeSpace_inner (Nat.le_refl _) hn hl, null, codeSpace_null, Nat.add_zero,
      tree.codeSpace_eq n.left 1 (by omega) (by omega) (by omega) under]
  · have root := (buildTree_shape freq (by omega)).2.2
    exact tree.codeSpace_eq _ 0 (Nat.le_refl _) (by omega) (by omega) fun b path hp =>
      (hlen b path hp).trans (Nat.zero_add _).symm

/-- R123: the sum over the entries of the table is the code space of the root. -/
theorem sum_table_eq_codeSpace {freq : Vector (BitVec 32) 256} (h : nsym freq ≠ 0) (len : Byte → ℕ) (m : ℕ) :
    ((List.range 256).map fun k => if freq[k]?.getD 0 = 0 then 0 else 2 ^ (m - len (BitVec.ofNat 8 k))).sum =
      (buildTree freq).codeSpace len m (buildTree freq).root := by
  rw [← List.sum_toFinset _ List.nodup_range, List.toFinset_range, Arena.codeSpace]
  refine Finset.sum_congr rfl fun k hk => ?_
  have code := (buildTree_codeTree h).exists_code_iff (BitVec.ofNat 8 k)
  have hk : (BitVec.ofNat 8 k).toNat = k := by
    rw [BitVec.toNat_ofNat]
    exact Nat.mod_eq_of_lt (Finset.mem_range.1 hk)
  rw [present_iff, hk] at code
  simp only [code, ite_not]

end Sys2Proof.Machine

open Sys2Proof Sys2Proof.Machine

/-- Settles O27: TREE_VALID promises a tree of the present symbols, and the traversal records each of its leaves. -/
theorem gencodesRecordsEveryPath : Obligations.GencodesRecordsEveryPath := by
  intro s hs ha hb ho
  have exec_eq : exec .gencodes s = gencodesExec s :=
    CoreStep.exec_of_enabled (c := .gencodesExec) ha ((running_iff s opGencodes).2 ⟨hb, ho⟩)
  refine ⟨fun valid => ?_, fun invalid => exec_eq.trans (gencodesExec_of_invalid invalid)⟩
  obtain ⟨built, symbols⟩ := hs.tree.tree_valid valid
  obtain ⟨t, ht⟩ := genCodes_buildTree s.freq symbols
  have tree := buildTree_codeTree symbols
  refine ⟨t, exec_eq.trans (gencodesExec_of_valid valid (built ▸ ht)), ?_⟩
  rw [built]
  exact ⟨fun b path => entry_of_isCodeOf ht symbols, fun b => (tree.exists_code_iff b).2, fun b => entry_of_absent ht symbols⟩

/-- Settles O28: every length in the table is that of the one path to the leaf of its symbol. -/
theorem codeTableLaws : Obligations.CodeTableLaws := by
  intro freq h
  obtain ⟨t, ht⟩ := genCodes_buildTree freq h
  have tree := buildTree_codeTree h
  have code {b : Byte} (hb : present freq b = true) : ∃ path, (buildTree freq).IsCodeOf b path ∧
      (t.lenOf b).toNat = path.length ∧ t.bitsOf b = path := by
    obtain ⟨path, hp⟩ := (tree.exists_code_iff b).2 hb
    obtain ⟨len, -, bits⟩ := entry_of_isCodeOf ht h hp
    exact ⟨path, hp, len, bits⟩
  have bounds {b : Byte} (hb : present freq b = true) :
      1 ≤ (t.lenOf b).toNat ∧ (t.lenOf b).toNat ≤ max 1 (nsym freq - 1) := by
    obtain ⟨path, hp, len, -⟩ := code hb
    rw [len]
    exact buildTree_depth h hp
  refine ⟨t, ht, fun b => ⟨fun hlen => ?_, fun hb hlen => ?_⟩, fun x y hx hy hne hpre => ?_, ?_, fun b hb => ?_⟩
  · by_contra hb
    exact hlen (entry_of_absent ht h (Bool.eq_false_iff.2 hb)).1
  · have := (bounds hb).1
    simp [hlen] at this
  · obtain ⟨p, hp, -, bits_x⟩ := code hx
    obtain ⟨q, hq, -, bits_y⟩ := code hy
    rw [bits_x, bits_y] at hpre
    obtain rfl := leafPath_eq_of_isPrefix hp hq hpre
    obtain ⟨n, hn, -, rfl⟩ := hp
    obtain ⟨m, hm, -, rfl⟩ := hq
    exact hne (congrArg Node.symbol (Option.some.inj (hn.symm.trans hm)))
  · rw [sum_table_eq_codeSpace h fun b => (t.lenOf b).toNat]
    exact buildTree_codeSpace h fun b path hp => (entry_of_isCodeOf ht h hp).1
  · have := bounds hb
    omega

end

section
/-! The payload format (44_encoder.md R132 to R134): the byte of eight bits, the padded byte, and where each bit of a
bit list stands in its packed bytes. -/

namespace Sys2Proof.Machine

/-! ### One byte (R132, R133) -/

theorem packByte_toNat (c : Bits) : (packByte c).toNat = num (c.take 8) := by
  have short : (c.take 8).length ≤ 8 := List.length_take_le 8 c
  have lt : num (c.take 8) < 2 ^ 8 := (num_lt _).trans_le (Nat.pow_le_pow_right Nat.two_pos short)
  rw [packByte, BitVec.toNat_ofNat, Nat.mod_eq_of_lt lt]

theorem bits_packByte {c : Bits} (h : 8 ≤ c.length) : bits 8 (packByte c).toNat = c.take 8 := by
  have len : (c.take 8).length = 8 := List.length_take_of_le h
  simpa only [packByte_toNat, len] using bits_num (c.take 8)

/-- R132: the first of the eight bits becomes bit 7. -/
theorem packByte_getLsbD_seven {c : Bits} (h : 8 ≤ c.length) : some ((packByte c).getLsbD 7) = c.head? := by
  have first : (bits 8 (packByte c).toNat).head? = some ((packByte c).getLsbD 7) := rfl
  rw [← first, bits_packByte h, List.head?_take, if_neg (by decide)]

theorem padded_length {c : Bits} (h : c.length ≤ 8) : (c ++ List.replicate (8 - c.length) false).length = 8 := by
  simp [h]

theorem padByte_toNat {c : Bits} (h : c.length ≤ 8) :
    (padByte c).toNat = num (c ++ List.replicate (8 - c.length) false) := by
  rw [padByte, packByte_toNat, List.take_of_length_le (padded_length h).le]

theorem bits_padByte {c : Bits} (h : c.length ≤ 8) :
    bits 8 (padByte c).toNat = c ++ List.replicate (8 - c.length) false := by
  rw [padByte, bits_packByte (padded_length h).ge, List.take_of_length_le (padded_length h).le]

/-- Eight bits need no padding. -/
theorem padByte_take {c : Bits} (h : 8 ≤ c.length) : padByte (c.take 8) = packByte c := by
  simp [padByte, packByte, h, List.take_take]

/-! ### Many bytes (R134) -/

@[simp] theorem packBytes_length (n : Nat) (c : Bits) : (packBytes n c).length = n := by
  induction n generalizing c with
  | zero => rfl
  | succ n ih => simp [packBytes, ih]

theorem packBytes_add (m n : Nat) (c : Bits) : packBytes (m + n) c = packBytes m c ++ packBytes n (c.drop (8 * m)) := by
  induction m generalizing c with
  | zero => simp [packBytes]
  | succ m ih =>
    rw [Nat.succ_add, packBytes, packBytes, ih, List.drop_drop, List.cons_append, Nat.mul_succ, Nat.add_comm 8]

/-- A bit list packs into its complete bytes and what the bits left over pack into. -/
theorem packBits_eq_append (c : Bits) :
    packBits c = packBytes (c.length / 8) c ++ packBits (c.drop (8 * (c.length / 8))) := by
  have count : (c.length + 7) / 8 = c.length / 8 + (c.length - 8 * (c.length / 8) + 7) / 8 := by omega
  rw [packBits, count, packBytes_add, packBits, List.length_drop]

@[simp] theorem packBits_nil : packBits [] = [] := rfl

/-- R133: one to seven bits make one padded byte. -/
theorem packBits_short {c : Bits} (hne : c ≠ []) (h : c.length < 8) : packBits c = [padByte c] := by
  have pos : 0 < c.length := List.length_pos_iff.2 hne
  have one : (c.length + 7) / 8 = 1 := by omega
  rw [packBits, one, packBytes, packBytes, List.take_of_length_le h.le]

theorem payloadBits_packBytes (n : Nat) (c : Bits) :
    payloadBits (packBytes n c) = c.take (8 * n) ++ List.replicate (8 * n - c.length) false := by
  induction n generalizing c with
  | zero => simp [packBytes, payloadBits]
  | succ n ih =>
    have unfolded : payloadBits (packBytes (n + 1) c) =
        bits 8 (padByte (c.take 8)).toNat ++ payloadBits (packBytes n (c.drop 8)) := rfl
    rw [unfolded, bits_padByte (List.length_take_le 8 c), ih]
    rcases le_or_gt 8 c.length with full | short
    · have rest : 8 * n - (c.length - 8) = 8 * (n + 1) - c.length := by omega
      simp [full, rest, Nat.mul_succ, Nat.add_comm, List.take_add]
    · have pad : 8 - c.length + 8 * n = 8 * (n + 1) - c.length := by omega
      simp [List.take_of_length_le short.le, List.drop_of_length_le short.le, pad,
        List.take_of_length_le (show c.length ≤ 8 * (n + 1) by omega)]

theorem payloadBits_packBits (c : Bits) :
    payloadBits (packBits c) = c ++ List.replicate (8 * ((c.length + 7) / 8) - c.length) false := by
  rw [packBits, payloadBits_packBytes, List.take_of_length_le (by omega)]

/-- R134: bit k of a payload is bit 7 - (k mod 8) of its byte k/8. -/
theorem payloadBits_getElem? (bytes : List Byte) (k : Nat) :
    (payloadBits bytes)[k]? = bytes[k / 8]?.map fun byte => byte.getLsbD (7 - k % 8) := by
  induction bytes generalizing k with
  | nil => simp [payloadBits]
  | cons b bytes ih =>
    have unfolded : payloadBits (b :: bytes) = bits 8 b.toNat ++ payloadBits bytes := rfl
    rw [unfolded]
    rcases Nat.lt_or_ge k 8 with here | later
    · rw [List.getElem?_append_left (by simpa using here), bits_getElem?, if_pos here, Nat.div_eq_of_lt here,
        Nat.mod_eq_of_lt here]
      rfl
    · have next : k / 8 = (k - 8) / 8 + 1 := by omega
      rw [List.getElem?_append_right (by simpa using later), bits_length, ih, next, List.getElem?_cons_succ,
        ← Nat.mod_eq_sub_mod later]

end Sys2Proof.Machine

open Sys2Proof Sys2Proof.Machine

/-- Settles O32: the bits of the packed bytes are the list and its padding, each where `payloadBits` reads it. -/
theorem payloadBitsStandMostSignificantFirst : Obligations.PayloadBitsStandMostSignificantFirst := by
  refine fun p => ⟨packBytes_length _ p, fun k byte hk => ?_, payloadBits_packBits p⟩
  have bit := payloadBits_getElem? (packBits p) k
  rw [hk, payloadBits_packBits, Option.map_some] at bit
  rcases Nat.lt_or_ge k p.length with valid | padding
  · rw [List.getElem?_append_left valid] at bit
    rw [bit, Option.getD_some]
  · rw [List.getElem?_append_right padding] at bit
    rw [List.getElem?_eq_none padding, Option.getD_none]
    exact List.eq_of_mem_replicate (List.mem_of_getElem? bit)
end

section
/-! The core steps of ENCODE (44_encoder.md R131 to R133, R136; 60_exceptions.md R188): when each is enabled and what
it makes of the state. -/

namespace Sys2Proof.Machine

/-! ### ENC_CONSUME (R131) -/

theorem encConsumeEnabled_iff (s : State) :
    encConsumeEnabled s = true ↔
      s.running opEncode = true ∧ s.jobRem ≠ 0 ∧ s.inq ≠ [] ∧ (s.err ≠ .noError ∨ s.pb.length < 8) := by
  simp [encConsumeEnabled, and_assoc]

@[simp] theorem bitsOf_length (t : CodeTable) (b : Byte) : (t.bitsOf b).length = (t.lenOf b).toNat :=
  bits_length _ _

theorem encodeSymbol_unknown {b : Byte} {s : State} (h : s.codes.lenOf b = 0) :
    encodeSymbol b s = { s with err := .unknownSymbol, pb := [] } := if_pos h

theorem encodeSymbol_appends {b : Byte} {s : State} (h : s.codes.lenOf b ≠ 0) :
    encodeSymbol b s =
      { s with pb := s.pb ++ s.codes.bitsOf b, encBits := s.encBits + (s.codes.lenOf b).setWidth 64 } := if_neg h

section
variable {s : State} {b : Byte} {q : List Byte} (hq : s.inq = b :: q)
include hq

theorem encConsume_appends (he : s.err = .noError) (hl : s.codes.lenOf b ≠ 0) :
    encConsume s =
      { s with
        inq := q, jobRem := s.jobRem - 1,
        pb := s.pb ++ s.codes.bitsOf b, encBits := s.encBits + (s.codes.lenOf b).setWidth 64 } := by
  rw [encConsume, consume_cons _ hq, if_pos he]
  exact encodeSymbol_appends hl

theorem encConsume_unknown (he : s.err = .noError) (hl : s.codes.lenOf b = 0) :
    encConsume s = { s with inq := q, jobRem := s.jobRem - 1, err := .unknownSymbol, pb := [] } := by
  rw [encConsume, consume_cons _ hq, if_pos he]
  exact encodeSymbol_unknown hl

/-- R188: after an error the job is drained. -/
theorem encConsume_drains (he : s.err ≠ .noError) :
    encConsume s = { s with inq := q, jobRem := s.jobRem - 1 } := by
  rw [encConsume, consume_cons _ hq, if_neg he]

end

/-! ### ENC_EMIT and ENC_DONE (R132, R133) -/

theorem encEmitEnabled_iff (s : State) :
    encEmitEnabled s = true ↔
      s.running opEncode = true ∧ s.err = .noError ∧ 8 ≤ s.pb.length ∧ s.outq.length < s.outDepth.val := by
  simp [encEmitEnabled, State.outRoom, and_assoc]

theorem encDoneEnabled_iff (s : State) :
    encDoneEnabled s = true ↔
      s.running opEncode = true ∧ s.jobRem = 0 ∧ (s.err ≠ .noError ∨ s.pb.length < 8) ∧
        (s.err ≠ .noError ∨ s.pb = [] ∨ s.outq.length < s.outDepth.val) := by
  simp [encDoneEnabled, State.outRoom, and_assoc, or_assoc]

theorem encDone_pads {s : State} (he : s.err = .noError) (hp : s.pb ≠ []) :
    encDone s =
      { s with
        outq := s.outq ++ [padByte s.pb], outN := s.outN + 1, pb := [],
        bitcnt := s.encBits, outlen := s.outN + 1, busy := false, done := true } := by
  rw [encDone, if_pos ⟨he, hp⟩]
  rfl

/-- R133, R136: nothing is pushed when nothing is pending or an error is recorded. -/
theorem encDone_pushes_nothing {s : State} (h : s.err = .noError → s.pb = []) :
    encDone s = { s with pb := [], bitcnt := s.encBits, outlen := s.outN, busy := false, done := true } := by
  rw [encDone, if_neg fun pads => pads.2 (h pads.1)]
  rfl

/-! ### The hold (R132, R133) -/

/-- With bits to push and OUTQ full, ENCODE holds: before the end of the input it waits with eight bits, at the end
with any. -/
theorem encode_holds {s : State} (ha : s.agent = .core) (he : s.err = .noError) (hp : s.pb ≠ [])
    (full : s.outDepth.val ≤ s.outq.length) (h : 8 ≤ s.pb.length ∨ s.jobRem = 0) : exec .encode s = .next s :=
  exec_holds ha (by simp) (by simp) fun c hc => by
    refine Bool.eq_false_iff.2 fun enabled => ?_
    cases c with
    | encConsume =>
      obtain ⟨-, pending, -, error | short⟩ := (encConsumeEnabled_iff s).1 enabled
      · exact error he
      · exact h.elim short.not_ge pending
    | encEmit =>
      obtain ⟨-, -, -, room⟩ := (encEmitEnabled_iff s).1 enabled
      exact full.not_gt room
    | encDone =>
      obtain ⟨-, -, -, error | empty | room⟩ := (encDoneEnabled_iff s).1 enabled
      · exact error he
      · exact hp empty
      · exact full.not_gt room
    | _ => cases hc

end Sys2Proof.Machine

open Sys2Proof Sys2Proof.Machine

/-- Settles O29: ENC_CONSUME in its three cases. -/
theorem encConsumeAppendsTheCode : Obligations.EncConsumeAppendsTheCode := by
  intro s b q ha hb ho hj hq
  have consume (h : s.err ≠ .noError ∨ s.pb.length < 8) : exec .encode s = .next (encConsume s) :=
    CoreStep.exec_of_enabled (c := .encConsume) ha
      ((encConsumeEnabled_iff s).2 ⟨(running_iff s opEncode).2 ⟨hb, ho⟩, hj, by simp [hq], h⟩)
  refine ⟨fun he short hl => ⟨?_, ?_⟩, fun he short hl => ?_, fun he => ?_⟩
  · rw [consume (.inr short), encConsume_appends hq he hl]
    rfl
  · have := (s.codes.lenOf b).isLt
    rw [List.length_append, bits_length]
    omega
  · rw [consume (.inr short), encConsume_unknown hq he hl]
  · rw [consume (.inl he), encConsume_drains hq he]

/-- Settles O30: the byte is `packByte` of the pending bits. -/
theorem encEmitPushesEightBits : Obligations.EncEmitPushesEightBits := by
  intro s ha hb ho he h8
  refine ⟨fun room => ⟨packByte s.pb, packByte_toNat s.pb, packByte_getLsbD_seven h8, ?_⟩, fun full => ?_⟩
  · exact CoreStep.exec_of_enabled (c := .encEmit) ha
      ((encEmitEnabled_iff s).2 ⟨(running_iff s opEncode).2 ⟨hb, ho⟩, he, h8, room⟩)
  · exact encode_holds ha he (List.length_pos_iff.1 (by omega)) full (.inl h8)

/-- Settles O31: ENC_DONE with nothing to push, with `padByte` of the pending bits, held, and after an error. -/
theorem encDonePadsAndReports : Obligations.EncDonePadsAndReports := by
  intro s ha hb ho hj
  have done (few : s.err ≠ .noError ∨ s.pb.length < 8)
      (room : s.err ≠ .noError ∨ s.pb = [] ∨ s.outq.length < s.outDepth.val) : exec .encode s = .next (encDone s) :=
    CoreStep.exec_of_enabled (c := .encDone) ha
      ((encDoneEnabled_iff s).2 ⟨(running_iff s opEncode).2 ⟨hb, ho⟩, hj, few, room⟩)
  refine ⟨fun he hp => ?_, fun he hp short room => ⟨padByte s.pb, padByte_toNat short.le, ?_⟩,
    fun he hp _ full => encode_holds ha he hp full (.inr hj), fun he => ?_⟩
  · rw [done (.inr (by simp [hp])) (.inr (.inl hp)), encDone_pushes_nothing fun _ => hp, ← hp]
  · rw [done (.inr short) (.inr (.inr room)), encDone_pads he hp]
  · rw [done (.inl he) (.inl he), encDone_pushes_nothing fun h => absurd h he]
end

section
/-! Whole jobs of the core, from the acceptance of their command, as chains of enabled core steps (30_encoding.md R79),
and the jobs rejected at acceptance (44_encoder.md R137; 45_decoder.md R142, R146; 60_exceptions.md R188). -/

namespace Sys2Proof.Machine

/-! ### Moves of the core (R79) -/

/-- One enabled core step, on the core's turn. -/
def CoreMove (s t : State) : Prop :=
  ∃ c : CoreStep, c.enabled s = true ∧ c.perform { s with agent := .core } = .next t

theorem CoreStep.move {c : CoreStep} {s t : State} (ha : s.agent = .core) (he : c.enabled s = true)
    (h : c.perform s = .next t) : CoreMove s t := by
  refine ⟨c, he, ?_⟩
  rw [← ha]
  exact h

/-- The first move does not ask whose turn it was before it. -/
theorem coreTurns_of_moves {s t : State} (h : Relation.TransGen CoreMove s t) :
    ∃ n, ∀ a, coreTurns n { s with agent := a } = .next t := by
  induction h using Relation.TransGen.head_induction_on with
  | @single s move =>
    obtain ⟨c, he, hp⟩ := move
    exact ⟨1, fun a => coreTurns_succ ((c.enabled_agent s a).trans he) hp 0⟩
  | @head s u move _ ih =>
    obtain ⟨c, he, hp⟩ := move
    obtain ⟨n, hn⟩ := ih
    exact ⟨n + 1, fun a => (coreTurns_succ ((c.enabled_agent s a).trans he) hp n).trans (hn u.agent)⟩

/-- The state in which the core has its first turn of a command. -/
def State.accepted (s : State) (op : BitVec 4) : State :=
  { ({ s with agent := .host } : State).accept op with agent := .core }

theorem accepted_encode (s : State) : s.accepted opEncode =
    { s with
      lastcmd := opEncode, op := opEncode, done := false, busy := true,
      err := if s.inlen ≠ 0 ∧ s.codesValid = false then .notReady else .noError,
      jobRem := s.inlen, pb := [], encBits := 0, outN := 0, agent := .core } := by
  rw [State.accepted, accept_encode_eq]

theorem accepted_decode (s : State) : s.accepted opDecode =
    { s with
      lastcmd := opDecode, op := opDecode, done := false, busy := true,
      err :=
        if s.inlen.toNat ≠ (s.bitcnt.toNat + 7) / 8 then .malformedContainer
        else if s.bitcnt ≠ 0 ∧ s.treeValid = false then .notReady
        else .noError,
      jobRem := s.inlen, dbitsRem := s.bitcnt, dbuf := [], outN := 0, dnode := s.arena.root, agent := .core } := by
  rw [State.accepted, accept_decode_eq]

/-- R79, R91: a command whose core steps, from its acceptance, lead to `t`. -/
theorem runCommand_of_moves {i : Instr} {s u t : State} {op : BitVec 4} (hb : s.busy = false)
    (hi : encode i = .cmd (op.setWidth 32)) (hs : i ≠ .softreset) (hu : s.accepted op = u)
    (h : Relation.TransGen CoreMove u t) : ∃ n, runCommand i n s = .next t := by
  obtain ⟨n, hn⟩ := coreTurns_of_moves h
  refine ⟨n, (runCommand_accept hb hi hs n).trans ?_⟩
  rw [← hn (({ s with agent := .host } : State).accept op).agent, ← hu]
  rfl

/-! ### A rejected job (R136, R137, R142, R146, R188) -/

theorem decLoad_drains {s : State} {b : Byte} {q : List Byte} (hq : s.inq = b :: q) (he : s.err ≠ .noError) :
    decLoad s = { s with inq := q, jobRem := s.jobRem - 1 } := by
  rw [decLoad, consume_cons _ hq, if_neg he]

theorem decLoadEnabled_iff (s : State) :
    decLoadEnabled s = true ↔
      s.running opDecode = true ∧ s.jobRem ≠ 0 ∧ s.inq ≠ [] ∧ (s.err ≠ .noError ∨ s.dbuf = []) := by
  simp [decLoadEnabled, and_assoc]

theorem decDoneEnabled_iff (s : State) :
    decDoneEnabled s = true ↔
      s.running opDecode = true ∧ s.jobRem = 0 ∧ (s.err ≠ .noError ∨ s.dbuf = []) := by
  simp [decDoneEnabled, and_assoc]

theorem decDone_of_error {s : State} (he : s.err ≠ .noError) :
    decDone s = { s with dbuf := [], outlen := s.outN, busy := false, done := true } := by
  rw [decDone, if_neg fun checks => he checks.1]
  rfl

/-- One byte of a job with an error recorded. -/
theorem drain_move {c : CoreStep} (hc : c = .encConsume ∨ c = .decLoad) {s : State} {b : Byte} {q : List Byte}
    (ha : s.agent = .core) (hr : s.running c.op = true) (he : s.err ≠ .noError) (hq : s.inq = b :: q)
    (hj : s.jobRem ≠ 0) : CoreMove s { s with inq := q, jobRem := s.jobRem - 1 } := by
  have hne : s.inq ≠ [] := by simp [hq]
  rcases hc with rfl | rfl
  · exact CoreStep.move (c := .encConsume) ha ((encConsumeEnabled_iff s).2 ⟨hr, hj, hne, .inl he⟩)
      (congrArg Host.Outcome.next (encConsume_drains hq he))
  · exact CoreStep.move (c := .decLoad) ha ((decLoadEnabled_iff s).2 ⟨hr, hj, hne, .inl he⟩)
      (congrArg Host.Outcome.next (decLoad_drains hq he))

/-- R188: after an error the rest of the job's input is drained, and nothing else changes. -/
theorem drain_moves {c : CoreStep} (hc : c = .encConsume ∨ c = .decLoad) {s : State} {input rest : List Byte}
    (ha : s.agent = .core) (hr : s.running c.op = true) (he : s.err ≠ .noError) (hq : s.inq = input ++ rest)
    (hj : s.jobRem.toNat = input.length) :
    Relation.ReflTransGen CoreMove s { s with inq := rest, jobRem := 0 } := by
  induction input generalizing s with
  | nil =>
    have hj : s.jobRem = 0 := BitVec.eq_of_toNat_eq hj
    have hq : s.inq = rest := hq
    rw [← hj, ← hq]
  | cons b input ih =>
    rw [List.length_cons] at hj
    exact .head (drain_move hc ha hr he hq (by bv_omega)) (ih ha hr he rfl (by dsimp only; bv_omega))

section
variable {s : State} {input rest : List Byte} (ha : s.agent = .core) (he : s.err ≠ .noError)
  (hq : s.inq = input ++ rest) (hj : s.jobRem.toNat = input.length)
include ha he hq hj

theorem encode_error_moves (hr : s.running opEncode = true) :
    Relation.TransGen CoreMove s
      { s with
        inq := rest, jobRem := 0, pb := [], bitcnt := s.encBits, outlen := s.outN, busy := false, done := true } :=
  .tail' (drain_moves (c := .encConsume) (.inl rfl) ha hr he hq hj)
    (CoreStep.move (c := .encDone) ha ((encDoneEnabled_iff _).2 ⟨hr, rfl, .inl he, .inl he⟩)
      (congrArg Host.Outcome.next (encDone_pushes_nothing fun h => absurd h he)))

theorem decode_error_moves (hr : s.running opDecode = true) :
    Relation.TransGen CoreMove s
      { s with inq := rest, jobRem := 0, dbuf := [], outlen := s.outN, busy := false, done := true } :=
  .tail' (drain_moves (c := .decLoad) (.inr rfl) ha hr he hq hj)
    (CoreStep.move (c := .decDone) ha ((decDoneEnabled_iff _).2 ⟨hr, rfl, .inl he⟩)
      (congrArg Host.Outcome.next (decDone_of_error he)))

end

/-- Of two checks in order, one of which fails. -/
theorem ite_ite_of_or {α : Type} {p q : Prop} [Decidable p] [Decidable q] (h : p ∨ q) (x y z : α) :
    (if p then x else if q then y else z) = if p then x else y := by
  split
  · rfl
  · exact if_pos (h.resolve_left ‹_›)

end Sys2Proof.Machine

open Sys2Proof Sys2Proof.Machine

/-- Settles O39: acceptance records the error, and the job is drained. -/
theorem rejectedJobsDrainTheirInput : Obligations.RejectedJobsDrainTheirInput := by
  intro s input rest hb hq hlen
  refine ⟨fun invalid hne => ?_, fun rejected => ?_⟩
  · have nonzero : s.inlen ≠ 0 := fun h => hne (List.length_eq_zero_iff.1 (by rw [← hlen, h]; rfl))
    have accepted := accepted_encode s
    rw [if_pos ⟨nonzero, invalid⟩] at accepted
    obtain ⟨n, run⟩ := runCommand_of_moves (i := .encode) hb rfl (by simp) accepted
      (encode_error_moves rfl (by simp) hq hlen rfl)
    exact ⟨n, _, run, rfl, rfl, rfl, rfl, rfl, rfl, rfl⟩
  · have accepted := accepted_decode s
    rw [hlen, ite_ite_of_or rejected] at accepted
    obtain ⟨n, run⟩ := runCommand_of_moves (i := .decode) hb rfl (by simp) accepted
      (decode_error_moves rfl (by dsimp only; split <;> simp) hq hlen rfl)
    exact ⟨n, _, run, rfl, rfl, rfl, rfl, rfl, rfl⟩
end

section
/-! Whole ENCODE jobs (44_encoder.md R134 to R136, R138). The bits that a job has still to emit are its pending bits and
the codes of the input it has still to take: ENC_CONSUME keeps them and ENC_EMIT drops the first eight, so what both make
of the job in the end, `State.encoded`, is the same before and after each of them. -/

namespace Sys2Proof.Machine

/-! ### The encoder's loop (R131, R132, R138) -/

/-- What ENC_CONSUME and ENC_EMIT make of a state once they have taken `input`, with `rest` left in INQ, and have pushed
every complete byte. -/
def State.encoded (s : State) (input rest : List Byte) : State :=
  let p := s.pb ++ encodeBits s.codes input
  { s with
    inq := rest, jobRem := s.jobRem - BitVec.ofNat 64 input.length,
    pb := p.drop (8 * (p.length / 8)),
    encBits := s.encBits + BitVec.ofNat 64 (encodeBits s.codes input).length,
    outq := s.outq ++ packBytes (p.length / 8) p,
    outN := s.outN + BitVec.ofNat 64 (p.length / 8) }

theorem encoded_pb_length (s : State) (input rest : List Byte) : (s.encoded input rest).pb.length < 8 := by
  simp only [State.encoded, List.length_drop]
  omega

theorem encoded_nil {s : State} (h : s.pb.length < 8) : s.encoded [] s.inq = s := by
  have none : s.pb.length / 8 = 0 := Nat.div_eq_of_lt h
  simp [State.encoded, encodeBits, none, packBytes]

theorem encoded_encConsume {s : State} {b : Byte} {input rest : List Byte} (hq : s.inq = b :: input ++ rest)
    (he : s.err = .noError) (hl : s.codes.lenOf b ≠ 0) :
    (encConsume s).encoded input rest = s.encoded (b :: input) rest := by
  have bits : encodeBits s.codes (b :: input) = s.codes.bitsOf b ++ encodeBits s.codes input := rfl
  have rem : s.jobRem - 1 - BitVec.ofNat 64 input.length = s.jobRem - BitVec.ofNat 64 (b :: input).length := by
    rw [List.length_cons, add_comm, BitVec.ofNat_add, sub_sub]
    rfl
  have count : s.encBits + (s.codes.lenOf b).setWidth 64 + BitVec.ofNat 64 (encodeBits s.codes input).length =
      s.encBits + BitVec.ofNat 64 (encodeBits s.codes (b :: input)).length := by
    rw [bits, List.length_append, bitsOf_length, BitVec.ofNat_add, BitVec.ofNat_toNat, add_assoc]
  rw [encConsume_appends hq he hl]
  simp only [State.encoded, List.append_assoc, ← bits, rem, count]

theorem encoded_encEmit {s : State} (h : 8 ≤ s.pb.length) (input rest : List Byte) :
    (encEmit s).encoded input rest = s.encoded input rest := by
  obtain ⟨p, hp⟩ : ∃ p, s.pb ++ encodeBits s.codes input = p := ⟨_, rfl⟩
  have left : s.pb.drop 8 ++ encodeBits s.codes input = p.drop 8 := by
    rw [← hp, List.drop_append_of_le_length h]
  have count : p.length / 8 = 1 + (p.drop 8).length / 8 := by
    have := congrArg List.length hp
    rw [List.length_append] at this
    rw [List.length_drop]
    omega
  have bytes : packBytes (p.length / 8) p = packByte s.pb :: packBytes ((p.drop 8).length / 8) (p.drop 8) := by
    rw [count, Nat.add_comm, packBytes, ← hp, List.take_append_of_le_length h, padByte_take h]
  have pending : (p.drop 8).drop (8 * ((p.drop 8).length / 8)) = p.drop (8 * (p.length / 8)) := by
    rw [List.drop_drop, count, Nat.mul_add]
  have pushed : s.outN + 1 + BitVec.ofNat 64 ((p.drop 8).length / 8) = s.outN + BitVec.ofNat 64 (p.length / 8) := by
    rw [count, BitVec.ofNat_add, add_assoc]
    rfl
  simp only [State.encoded, encEmit, State.pushOut, left, hp, pending, pushed, bytes, List.append_assoc,
    List.cons_append, List.nil_append]

/-- R131, R132: a running ENCODE job without an error, `input` at the head of INQ, a code for each of its symbols, and
room in OUTQ for the complete bytes that it makes with the pending bits. -/
structure Encoding (s : State) (input rest : List Byte) : Prop where
  turn : s.agent = .core
  running : s.running opEncode = true
  no_error : s.err = .noError
  inq_eq : s.inq = input ++ rest
  rem_ge : input.length ≤ s.jobRem.toNat
  coded : ∀ b ∈ input, s.codes.lenOf b ≠ 0
  room : s.outq.length + (s.pb ++ encodeBits s.codes input).length / 8 ≤ s.outDepth.val

theorem Encoding.emit {s : State} {input rest : List Byte} (h : Encoding s input rest) (h8 : 8 ≤ s.pb.length) :
    encEmitEnabled s = true ∧ Encoding (encEmit s) input rest := by
  have room := h.room
  rw [List.length_append] at room
  refine ⟨(encEmitEnabled_iff s).2 ⟨h.running, h.no_error, h8, by omega⟩,
    ⟨h.turn, h.running, h.no_error, h.inq_eq, h.rem_ge, h.coded, ?_⟩⟩
  simp only [encEmit, State.pushOut, List.length_append, List.length_drop, List.length_singleton]
  omega

theorem Encoding.consume {s : State} {b : Byte} {input rest : List Byte} (h : Encoding s (b :: input) rest)
    (short : s.pb.length < 8) : encConsumeEnabled s = true ∧ Encoding (encConsume s) input rest := by
  have left := h.rem_ge
  rw [List.length_cons] at left
  refine ⟨(encConsumeEnabled_iff s).2 ⟨h.running, by bv_omega, by simp [h.inq_eq], .inr short⟩, ?_⟩
  rw [encConsume_appends h.inq_eq h.no_error (h.coded b List.mem_cons_self)]
  refine ⟨h.turn, h.running, h.no_error, rfl, by dsimp only; bv_omega,
    fun c hc => h.coded c (List.mem_cons_of_mem b hc), ?_⟩
  rw [List.append_assoc]
  exact h.room

/-- Until the input is taken and every complete byte is pushed, a core step is enabled that leads to the same state in
the end. -/
theorem Encoding.next {s : State} {input rest : List Byte} (h : Encoding s input rest) :
    (input = [] ∧ s.pb.length < 8) ∨ ∃ (c : CoreStep) (t : State) (left : List Byte), c.enabled s = true ∧
      c.perform s = .next t ∧ Encoding t left rest ∧ t.encoded left rest = s.encoded input rest := by
  rcases le_or_gt 8 s.pb.length with h8 | short
  · obtain ⟨enabled, after⟩ := h.emit h8
    exact .inr ⟨.encEmit, encEmit s, input, enabled, rfl, after, encoded_encEmit h8 input rest⟩
  · cases input with
    | nil => exact .inl ⟨rfl, short⟩
    | cons b input =>
      obtain ⟨enabled, after⟩ := h.consume short
      exact .inr ⟨.encConsume, encConsume s, input, enabled, rfl, after,
        encoded_encConsume h.inq_eq h.no_error (h.coded b List.mem_cons_self)⟩

theorem Encoding.moves {s : State} {input rest : List Byte} (h : Encoding s input rest) :
    Relation.ReflTransGen CoreMove s (s.encoded input rest) := by
  induction hw : s.work using Nat.strong_induction_on generalizing s input with
  | _ w ih =>
    rcases h.next with ⟨rfl, short⟩ | ⟨c, t, left, enabled, performed, after, same⟩
    · have taken : s.inq = rest := h.inq_eq
      rw [← taken, encoded_nil short]
    · rw [← same]
      exact .head (CoreStep.move h.turn enabled performed)
        (ih t.work (hw ▸ CoreStep.perform_work_lt enabled performed) after rfl)

/-! ### The end of the job (R133, R135, R136) -/

theorem toNat_sub_ofNat {x : BitVec 64} {m n : Nat} (h : x.toNat = m + n) : (x - BitVec.ofNat 64 m).toNat = n := by
  bv_omega

/-- R133, R134: the padding is that of `packBits`. -/
theorem encDone_packs {s : State} (he : s.err = .noError) (short : s.pb.length < 8) :
    encDone s =
      { s with
        outq := s.outq ++ packBits s.pb, outN := s.outN + BitVec.ofNat 64 ((s.pb.length + 7) / 8), pb := [],
        bitcnt := s.encBits, outlen := s.outN + BitVec.ofNat 64 ((s.pb.length + 7) / 8),
        busy := false, done := true } := by
  by_cases hp : s.pb = []
  · rw [encDone_pushes_nothing fun _ => hp, hp]
    simp
  · have pos := List.length_pos_iff.2 hp
    have one : (s.pb.length + 7) / 8 = 1 := by omega
    rw [encDone_pads he hp, packBits_short hp short, one]
    rfl

/-- R130: an accepted ENCODE with no error. -/
def State.encodeStarted (s : State) : State :=
  { s with
    lastcmd := opEncode, op := opEncode, done := false, busy := true, err := .noError,
    jobRem := s.inlen, pb := [], encBits := 0, outN := 0, agent := .core }

section
variable {s : State} {input rest : List Byte}

theorem accepted_encode_ok (ok : s.inlen = 0 ∨ s.codesValid = true) : s.accepted opEncode = s.encodeStarted := by
  rw [accepted_encode, if_neg fun ⟨nonzero, invalid⟩ => ok.elim nonzero (by simp [invalid])]
  rfl

theorem encodeStarted_encoding (hq : s.inq = input ++ rest) (hlen : input.length ≤ s.inlen.toNat)
    (coded : ∀ b ∈ input, s.codes.lenOf b ≠ 0)
    (room : s.outq.length + (encodeBits s.codes input).length / 8 ≤ s.outDepth.val) :
    Encoding s.encodeStarted input rest := ⟨rfl, rfl, rfl, hq, hlen, coded, room⟩

/-- R134, R135: the bytes in all are the packed bits, and OUTLEN counts them. -/
theorem encDone_encoded (he : s.err = .noError) :
    encDone (s.encoded input rest) =
      { s.encoded input rest with
        outq := s.outq ++ packBits (s.pb ++ encodeBits s.codes input),
        outN := s.outN + BitVec.ofNat 64 (((s.pb ++ encodeBits s.codes input).length + 7) / 8),
        outlen := s.outN + BitVec.ofNat 64 (((s.pb ++ encodeBits s.codes input).length + 7) / 8),
        bitcnt := s.encBits + BitVec.ofNat 64 (encodeBits s.codes input).length,
        pb := [], busy := false, done := true } := by
  obtain ⟨p, hp⟩ : ∃ p, s.pb ++ encodeBits s.codes input = p := ⟨_, rfl⟩
  have bytes : p.length / 8 + ((p.drop (8 * (p.length / 8))).length + 7) / 8 = (p.length + 7) / 8 := by
    rw [List.length_drop]
    omega
  rw [encDone_packs (s := s.encoded input rest) he (encoded_pb_length s input rest)]
  simp only [State.encoded, hp, List.append_assoc, ← packBits_eq_append, add_assoc, ← BitVec.ofNat_add, bytes]

theorem Encoding.moves_done (h : Encoding s input rest) (hj : s.jobRem.toNat = input.length)
    (room : s.outq.length + ((s.pb ++ encodeBits s.codes input).length + 7) / 8 ≤ s.outDepth.val) :
    Relation.TransGen CoreMove s (encDone (s.encoded input rest)) := by
  have rem : (s.encoded input rest).jobRem = 0 := BitVec.eq_of_toNat_eq (toNat_sub_ofNat hj)
  have pushes : (s.encoded input rest).pb = [] ∨ (s.encoded input rest).outq.length < s.outDepth.val := by
    simp only [State.encoded, List.drop_eq_nil_iff, List.length_append, packBytes_length] at room ⊢
    omega
  exact .tail' h.moves (CoreStep.move (c := .encDone) h.turn
    ((encDoneEnabled_iff _).2 ⟨h.running, rem, .inr (encoded_pb_length s input rest), .inr pushes⟩) rfl)

theorem Encoding.moves_unknown {b : Byte} {tail : List Byte} (h : Encoding s input (b :: tail ++ rest))
    (hj : s.jobRem.toNat = input.length + (1 + tail.length)) (hl : s.codes.lenOf b = 0) :
    Relation.TransGen CoreMove s
      { s.encoded input (b :: tail ++ rest) with
        inq := rest, jobRem := 0, err := .unknownSymbol, pb := [],
        bitcnt := (s.encoded input (b :: tail ++ rest)).encBits, outlen := (s.encoded input (b :: tail ++ rest)).outN,
        busy := false, done := true } := by
  have rem := toNat_sub_ofNat hj
  have enabled : encConsumeEnabled (s.encoded input (b :: tail ++ rest)) = true :=
    (encConsumeEnabled_iff _).2 ⟨h.running, by dsimp only [State.encoded]; bv_omega, by simp [State.encoded],
      .inr (encoded_pb_length s input _)⟩
  refine .trans_right h.moves (.head (CoreStep.move (c := .encConsume) h.turn enabled
    (congrArg Host.Outcome.next (encConsume_unknown rfl h.no_error hl))) ?_)
  exact encode_error_moves h.turn (by simp) rfl (by dsimp only [State.encoded]; bv_omega) h.running

end

end Sys2Proof.Machine

open Sys2Proof Sys2Proof.Machine

/-- Settles O33: the encoder's loop from acceptance, then ENC_DONE on what it leaves. -/
theorem encodeJobPushesThePackedCodes : Obligations.EncodeJobPushesThePackedCodes := by
  intro s input rest hb valid hq hlen coded room
  have ok : s.inlen = 0 ∨ s.codesValid = true := by
    cases input with
    | nil => exact .inl (BitVec.eq_of_toNat_eq hlen)
    | cons b input => exact .inr (valid (List.cons_ne_nil b input))
  have job : Encoding s.encodeStarted input rest := encodeStarted_encoding hq hlen.ge coded (by omega)
  obtain ⟨n, run⟩ :=
    runCommand_of_moves (i := .encode) hb rfl (by simp) (accepted_encode_ok ok) (job.moves_done hlen room)
  refine ⟨n, _, run, ?_⟩
  rw [encDone_encoded rfl]
  exact ⟨rfl, zero_add _, zero_add _, rfl, rfl, rfl, rfl, rfl, rfl, rfl, rfl, rfl, rfl⟩

/-- Settles O34: the loop on the symbols before it, ENC_CONSUME of the one without a code, then the drained job. -/
theorem encodeJobStopsAtUnknownSymbol : Obligations.EncodeJobStopsAtUnknownSymbol := by
  intro s input b tail rest hb valid hq hlen coded unknown room
  have job : Encoding s.encodeStarted input (b :: tail ++ rest) :=
    encodeStarted_encoding (by rw [hq, List.append_assoc]) (by omega) coded room
  obtain ⟨n, run⟩ := runCommand_of_moves (i := .encode) hb rfl (by simp) (accepted_encode_ok (.inr valid))
    (job.moves_unknown (hlen.trans (Nat.add_assoc _ _ _)) unknown)
  exact ⟨n, _, run, rfl, rfl, zero_add _, zero_add _, rfl, rfl, rfl, rfl⟩
end

section
/-! The core steps of DECODE (45_decoder.md R141, R143, R144; 60_exceptions.md R188): where one bit leads in the tree,
when each step is enabled, and what it makes of the state. -/

namespace Sys2Proof.Machine

/-! ### One bit in the tree (R141) -/

section
variable {a : Arena} {i : BitVec 9} {n : Node} {bit : Bool} (hn : a.nodeAt i = some n)
include hn

theorem walkBit_of_null (hc : n.childOn bit = nullIdx) : a.walkBit i bit = .missing := by
  rw [Arena.walkBit, hn]
  exact if_pos hc

theorem walkBit_of_child {c : Node} (hc : n.childOn bit ≠ nullIdx) (hm : a.nodeAt (n.childOn bit) = some c) :
    a.walkBit i bit = if c.isLeaf then .leaf c.symbol else .inner (n.childOn bit) := by
  rw [Node.childOn] at hc hm
  simp only [Arena.walkBit, hn, if_neg hc, hm]
  rfl

end

/-- R30: every index but NULL is an entry. -/
theorem exists_nodeAt (a : Arena) {c : BitVec 9} (hc : c ≠ nullIdx) : ∃ n, a.nodeAt c = some n :=
  (nodeAt_iff a c).2 (toNat_lt_of_ne_null hc)

/-! ### DEC_LOAD (R143) -/

theorem loadByte_eq (b : Byte) (s : State) :
    loadByte b s =
      { s with
        dbuf := (bits 8 b.toNat).take (min 8 s.dbitsRem.toNat),
        dbitsRem := s.dbitsRem - BitVec.ofNat 64 (min 8 s.dbitsRem.toNat) } := by
  have count : (if s.dbitsRem < 8 then s.dbitsRem else 8) = BitVec.ofNat 64 (min 8 s.dbitsRem.toNat) := by
    split <;> bv_omega
  have lt : min 8 s.dbitsRem.toNat < 2 ^ 64 := by omega
  rw [loadByte, count, loadBits, BitVec.toNat_ofNat, Nat.mod_eq_of_lt lt]

theorem decLoad_loads {s : State} {b : Byte} {q : List Byte} (hq : s.inq = b :: q) (he : s.err = .noError) :
    decLoad s =
      { s with
        inq := q, jobRem := s.jobRem - 1,
        dbuf := (bits 8 b.toNat).take (min 8 s.dbitsRem.toNat),
        dbitsRem := s.dbitsRem - BitVec.ofNat 64 (min 8 s.dbitsRem.toNat) } := by
  rw [decLoad, consume_cons _ hq, if_pos he, loadByte_eq]

/-! ### DEC_WALK (R141) -/

theorem decWalkEnabled_iff (s : State) :
    decWalkEnabled s = true ↔
      s.running opDecode = true ∧ s.err = .noError ∧ s.dbuf ≠ [] ∧ s.outq.length < s.outDepth.val := by
  simp [decWalkEnabled, State.outRoom, and_assoc]

section
variable {s : State} {bit : Bool} {rest : Bits} (hd : s.dbuf = bit :: rest)
include hd

theorem decWalk_of_missing (h : s.arena.walkBit s.dnode bit = .missing) :
    decWalk s = .next { s with dbuf := [], err := .corruptStream } := by
  simp only [decWalk, hd, h, State.raise]

theorem decWalk_of_leaf {symbol : Byte} (h : s.arena.walkBit s.dnode bit = .leaf symbol) :
    decWalk s = .next
      { s with dbuf := rest, outq := s.outq ++ [symbol], outN := s.outN + 1, dnode := s.arena.root } := by
  simp only [decWalk, hd, h, State.pushOut]

theorem decWalk_of_inner {child : BitVec 9} (h : s.arena.walkBit s.dnode bit = .inner child) :
    decWalk s = .next { s with dbuf := rest, dnode := child } := by
  simp only [decWalk, hd, h]

end

/-- R141: with a bit to walk and OUTQ full, DECODE holds. -/
theorem decode_holds {s : State} (ha : s.agent = .core) (he : s.err = .noError) (hd : s.dbuf ≠ [])
    (full : s.outDepth.val ≤ s.outq.length) : exec .decode s = .next s :=
  exec_holds ha (by simp) (by simp) fun c hc => by
    refine Bool.eq_false_iff.2 fun enabled => ?_
    cases c with
    | decLoad =>
      obtain ⟨-, -, -, error | empty⟩ := (decLoadEnabled_iff s).1 enabled
      · exact error he
      · exact hd empty
    | decWalk =>
      obtain ⟨-, -, -, room⟩ := (decWalkEnabled_iff s).1 enabled
      exact full.not_gt room
    | decDone =>
      obtain ⟨-, -, error | empty⟩ := (decDoneEnabled_iff s).1 enabled
      · exact error he
      · exact hd empty
    | _ => cases hc

/-! ### DEC_DONE (R144) -/

theorem decDone_checks {s : State} (he : s.err = .noError) :
    decDone s =
      { s with
        err := if s.dnode = s.arena.root then .noError else .corruptStream,
        dbuf := [], outlen := s.outN, busy := false, done := true } := by
  by_cases atRoot : s.dnode = s.arena.root
  · rw [decDone, if_neg fun checks => checks.2 atRoot, if_pos atRoot, ← he]
    rfl
  · rw [decDone, if_pos ⟨he, atRoot⟩, if_neg atRoot]
    rfl

end Sys2Proof.Machine

open Sys2Proof Sys2Proof.Machine

/-- Settles O35: DEC_LOAD takes the byte while ERR = NONE and drains it after an error. -/
theorem decLoadTakesTheValidBits : Obligations.DecLoadTakesTheValidBits := by
  intro s b q ha hb ho hj hq
  have load (h : s.err ≠ .noError ∨ s.dbuf = []) : exec .decode s = .next (decLoad s) :=
    CoreStep.exec_of_enabled (c := .decLoad) ha
      ((decLoadEnabled_iff s).2 ⟨(running_iff s opDecode).2 ⟨hb, ho⟩, hj, by simp [hq], h⟩)
  refine ⟨fun he hd => ?_, fun he => ?_⟩
  · rw [load (.inr hd), decLoad_loads hq he]
  · rw [load (.inl he), decLoad_drains hq he]

/-- Settles O36: DEC_WALK by where the bit leads, and the hold. -/
theorem decWalkFollowsOneBit : Obligations.DecWalkFollowsOneBit := by
  intro s bit rest n child ha hb ho he hd hn hchild
  have hne : s.dbuf ≠ [] := by simp [hd]
  obtain rfl : child = n.childOn bit := by
    rw [hchild]
    cases bit <;> rfl
  refine ⟨fun room => ?_, decode_holds ha he hne, exists_nodeAt s.arena⟩
  have walk : exec .decode s = decWalk s :=
    CoreStep.exec_of_enabled (c := .decWalk) ha
      ((decWalkEnabled_iff s).2 ⟨(running_iff s opDecode).2 ⟨hb, ho⟩, he, hne, room⟩)
  refine ⟨fun null => ?_, fun c hc hm leaf => ?_, fun c hc hm inner => ?_⟩
  · exact walk.trans (decWalk_of_missing hd (walkBit_of_null hn null))
  · exact walk.trans (decWalk_of_leaf hd (by rw [walkBit_of_child hn hc hm, if_pos leaf]))
  · exact walk.trans (decWalk_of_inner hd (by rw [walkBit_of_child hn hc hm, inner]; rfl))

/-- Settles O37: DEC_DONE with its check of the position, and after an error. -/
theorem decDoneChecksForMidCode : Obligations.DecDoneChecksForMidCode := by
  intro s ha hb ho hj
  have done (h : s.err ≠ .noError ∨ s.dbuf = []) : exec .decode s = .next (decDone s) :=
    CoreStep.exec_of_enabled (c := .decDone) ha
      ((decDoneEnabled_iff s).2 ⟨(running_iff s opDecode).2 ⟨hb, ho⟩, hj, h⟩)
  refine ⟨fun he hd => ?_, fun he => ?_⟩
  · rw [done (.inr hd), decDone_checks he, ← hd]
  · rw [done (.inl he), decDone_of_error he]
end

section
/-! Whole DECODE jobs (45_decoder.md R145, R147, R148). The bits that a job has still to walk are those of DBUF and the
valid bits of the bytes it has still to take: DEC_LOAD keeps them and DEC_WALK takes the first, so what the core makes of
the job in the end, `State.decoded`, is the same before and after each of them. -/

namespace Sys2Proof.Machine

/-! ### The walk of a bit list (R148) -/

section
variable {a : Arena} {i : BitVec 9} {bit : Bool} (c : Bits)

theorem decodeBits_of_missing (h : a.walkBit i bit = .missing) : decodeBits a i (bit :: c) = ([], .missingChild) := by
  rw [decodeBits, h]

theorem decodeBits_of_leaf {symbol : Byte} (h : a.walkBit i bit = .leaf symbol) :
    decodeBits a i (bit :: c) = (symbol :: (decodeBits a a.root c).1, (decodeBits a a.root c).2) := by
  rw [decodeBits, h]

theorem decodeBits_of_inner {child : BitVec 9} (h : a.walkBit i bit = .inner child) :
    decodeBits a i (bit :: c) = decodeBits a child c := by
  rw [decodeBits, h]

theorem decodeBits_of_outside (h : a.walkBit i bit = .outside) : decodeBits a i (bit :: c) = ([], .outside) := by
  rw [decodeBits, h]

end

/-- R143: the valid bits of a payload are those of its first byte and those of the other bytes. -/
theorem payloadBits_cons_take (b : Byte) (payload : List Byte) (n : Nat) :
    (payloadBits (b :: payload)).take n =
      (bits 8 b.toNat).take (min 8 n) ++ (payloadBits payload).take (n - min 8 n) := by
  have unfolded : payloadBits (b :: payload) = bits 8 b.toNat ++ payloadBits payload := rfl
  have first : (bits 8 b.toNat).take n = (bits 8 b.toNat).take (min 8 n) := by
    rw [List.take_eq_take_iff, bits_length]
    omega
  have others : n - 8 = n - min 8 n := by omega
  rw [unfolded, List.take_append, bits_length, first, others]

/-! ### The decoder's loop (R141, R143) -/

/-- R145: the bits that a job has still to walk, with `payload` still to take. -/
def State.bitsLeft (s : State) (payload : List Byte) : Bits :=
  s.dbuf ++ (payloadBits payload).take s.dbitsRem.toNat

/-- What the core makes of a job that emits `out`, ends with `e` and leaves `rest` in INQ. Where the decoder then stands
and how many bits it has not loaded, which the next job sets anew, are parameters. -/
def State.decoded (s : State) (rest out : List Byte) (e : DecodeEnd) (position : BitVec 9) (unread : BitVec 64) : State :=
  { s with
    inq := rest, jobRem := 0, dbuf := [], dbitsRem := unread, dnode := position, err := e.err,
    outq := s.outq ++ out, outN := s.outN + BitVec.ofNat 64 out.length,
    outlen := s.outN + BitVec.ofNat 64 out.length, busy := false, done := true }

/-- R141 to R145: a running DECODE job without an error, the `payload` of its bits at the head of INQ, whose walk emits
`out` and ends with `e`, and room in OUTQ for more than these symbols. -/
structure Decoding (s : State) (payload rest out : List Byte) (e : DecodeEnd) : Prop where
  turn : s.agent = .core
  running : s.running opDecode = true
  no_error : s.err = .noError
  inq_eq : s.inq = payload ++ rest
  rem_eq : s.jobRem.toNat = payload.length
  length_eq : payload.length = (s.dbitsRem.toNat + 7) / 8
  walk : decodeBits s.arena s.dnode (s.bitsLeft payload) = (out, e)
  inside : e ≠ .outside
  room : s.outq.length + out.length < s.outDepth.val

section
variable {s : State} {payload rest out : List Byte} {e : DecodeEnd}

theorem Decoding.load {b : Byte} (h : Decoding s (b :: payload) rest out e) (hd : s.dbuf = []) :
    decLoadEnabled s = true ∧ Decoding (decLoad s) payload rest out e := by
  have rem := h.rem_eq
  have len := h.length_eq
  rw [List.length_cons] at rem len
  have left : (s.dbitsRem - BitVec.ofNat 64 (min 8 s.dbitsRem.toNat)).toNat = s.dbitsRem.toNat - min 8 s.dbitsRem.toNat :=
    toNat_sub_ofNat (by omega)
  refine ⟨(decLoadEnabled_iff s).2 ⟨h.running, by bv_omega, by simp [h.inq_eq], .inr hd⟩, ?_⟩
  have walk := h.walk
  rw [State.bitsLeft, hd, List.nil_append, payloadBits_cons_take] at walk
  rw [decLoad_loads h.inq_eq h.no_error]
  refine ⟨h.turn, h.running, h.no_error, rfl, by dsimp only; bv_omega, ?_, ?_, h.inside, h.room⟩
  · rw [left]
    omega
  · rw [State.bitsLeft, left]
    exact walk

section
variable {bit : Bool} {later : Bits} (h : Decoding s payload rest out e) (hd : s.dbuf = bit :: later)
include h hd

theorem Decoding.walkEnabled : decWalkEnabled s = true := by
  have room := h.room
  exact (decWalkEnabled_iff s).2 ⟨h.running, h.no_error, by simp [hd], by omega⟩

theorem Decoding.walk_cons :
    decodeBits s.arena s.dnode (bit :: (later ++ (payloadBits payload).take s.dbitsRem.toNat)) = (out, e) := by
  rw [← List.cons_append, ← hd]
  exact h.walk

theorem Decoding.not_outside : s.arena.walkBit s.dnode bit ≠ .outside := fun hw =>
  h.inside (Prod.mk.inj ((decodeBits_of_outside _ hw).symm.trans (h.walk_cons hd))).2.symm

theorem Decoding.leaf {symbol : Byte} (hw : s.arena.walkBit s.dnode bit = .leaf symbol) :
    ∃ out', out = symbol :: out' ∧
      Decoding { s with dbuf := later, outq := s.outq ++ [symbol], outN := s.outN + 1, dnode := s.arena.root }
        payload rest out' e := by
  obtain ⟨rfl, ended⟩ := Prod.mk.inj ((decodeBits_of_leaf _ hw).symm.trans (h.walk_cons hd))
  refine ⟨_, rfl, h.turn, h.running, h.no_error, h.inq_eq, h.rem_eq, h.length_eq, Prod.ext rfl ended, h.inside, ?_⟩
  rw [List.length_append, List.length_singleton, Nat.add_assoc, Nat.add_comm 1]
  exact h.room

theorem Decoding.inner {child : BitVec 9} (hw : s.arena.walkBit s.dnode bit = .inner child) :
    Decoding { s with dbuf := later, dnode := child } payload rest out e :=
  ⟨h.turn, h.running, h.no_error, h.inq_eq, h.rem_eq, h.length_eq,
    (decodeBits_of_inner _ hw).symm.trans (h.walk_cons hd), h.inside, h.room⟩

/-- R141, R188: a missing child ends the walk, and the rest of the payload is drained. -/
theorem Decoding.missing_moves (hw : s.arena.walkBit s.dnode bit = .missing) :
    Relation.TransGen CoreMove s (s.decoded rest out e s.dnode s.dbitsRem) := by
  obtain ⟨rfl, rfl⟩ := Prod.mk.inj ((decodeBits_of_missing _ hw).symm.trans (h.walk_cons hd))
  have drained := decode_error_moves (s := { s with dbuf := [], err := .corruptStream }) h.turn (by simp) h.inq_eq
    h.rem_eq h.running
  have same : s.decoded rest [] .missingChild s.dnode s.dbitsRem =
      { s with
        inq := rest, jobRem := 0, dbuf := [], err := .corruptStream, outlen := s.outN, busy := false, done := true } := by
    simp [State.decoded, DecodeEnd.err]
  rw [same]
  exact .head (CoreStep.move (c := .decWalk) h.turn (h.walkEnabled hd) (decWalk_of_missing hd hw)) drained

end

/-- R144: with the payload taken and its bits walked, DEC_DONE ends the job. -/
theorem Decoding.done_moves (h : Decoding s [] rest out e) (hd : s.dbuf = []) :
    Relation.TransGen CoreMove s (s.decoded rest out e s.dnode s.dbitsRem) := by
  have rem : s.jobRem = 0 := BitVec.eq_of_toNat_eq h.rem_eq
  have walked : s.bitsLeft [] = [] := by simp [State.bitsLeft, hd, payloadBits]
  have ended := h.walk
  rw [walked, decodeBits, Prod.mk.injEq] at ended
  obtain ⟨rfl, rfl⟩ := ended
  have same : s.decoded rest [] (if s.dnode = s.arena.root then .ok else .midCode) s.dnode s.dbitsRem = decDone s := by
    have reported : (if s.dnode = s.arena.root then DecodeEnd.ok else .midCode).err =
        if s.dnode = s.arena.root then .noError else .corruptStream := apply_ite DecodeEnd.err _ _ _
    rw [decDone_checks h.no_error]
    simp [State.decoded, reported, rem, h.inq_eq]
  rw [same]
  exact .single (CoreStep.move (c := .decDone) h.turn ((decDoneEnabled_iff s).2 ⟨h.running, rem, .inr hd⟩) rfl)

/-- Until the last bit is walked or a child is missing, a core step is enabled that leads to the same end. -/
theorem Decoding.moves (h : Decoding s payload rest out e) :
    ∃ position unread, Relation.TransGen CoreMove s (s.decoded rest out e position unread) := by
  induction hw : s.work using Nat.strong_induction_on generalizing s payload out with
  | _ w ih =>
    have step {c : CoreStep} {t : State} {payload' out' : List Byte} (enabled : c.enabled s = true)
        (performed : c.perform s = .next t) (after : Decoding t payload' rest out' e)
        (same : ∀ position unread, t.decoded rest out' e position unread = s.decoded rest out e position unread) :
        ∃ position unread, Relation.TransGen CoreMove s (s.decoded rest out e position unread) := by
      obtain ⟨position, unread, moves⟩ := ih t.work (hw ▸ CoreStep.perform_work_lt enabled performed) after rfl
      exact ⟨position, unread, .head (CoreStep.move h.turn enabled performed) (same position unread ▸ moves)⟩
    cases hd : s.dbuf with
    | nil =>
      cases payload with
      | nil => exact ⟨_, _, h.done_moves hd⟩
      | cons b payload =>
        obtain ⟨enabled, after⟩ := h.load hd
        refine step (c := .decLoad) enabled rfl after fun position unread => ?_
        rw [decLoad_loads h.inq_eq h.no_error]
        rfl
    | cons bit later =>
      have enabled := h.walkEnabled hd
      cases hbit : s.arena.walkBit s.dnode bit with
      | outside => exact absurd hbit (h.not_outside hd)
      | missing => exact ⟨_, _, h.missing_moves hd hbit⟩
      | inner child => exact step (c := .decWalk) enabled (decWalk_of_inner hd hbit) (h.inner hd hbit) fun _ _ => rfl
      | leaf symbol =>
        obtain ⟨out', rfl, after⟩ := h.leaf hd hbit
        refine step (c := .decWalk) enabled (decWalk_of_leaf hd hbit) after fun position unread => ?_
        have count : s.outN + 1 + BitVec.ofNat 64 out'.length = s.outN + BitVec.ofNat 64 (symbol :: out').length := by
          rw [List.length_cons, Nat.add_comm, BitVec.ofNat_add, add_assoc]
          rfl
        simp only [State.decoded, count, List.append_assoc, List.cons_append, List.nil_append]

end

/-- R140: an accepted DECODE with no error. -/
def State.decodeStarted (s : State) : State :=
  { s with
    lastcmd := opDecode, op := opDecode, done := false, busy := true, err := .noError,
    jobRem := s.inlen, dbitsRem := s.bitcnt, dbuf := [], outN := 0, dnode := s.arena.root, agent := .core }

theorem accepted_decode_ok {s : State} (length : s.inlen.toNat = (s.bitcnt.toNat + 7) / 8)
    (tree : s.bitcnt ≠ 0 → s.treeValid = true) : s.accepted opDecode = s.decodeStarted := by
  rw [accepted_decode, if_neg (not_not_intro length), if_neg fun ⟨nonzero, invalid⟩ => by simp [tree nonzero] at invalid]
  rfl

end Sys2Proof.Machine

open Sys2Proof Sys2Proof.Machine

/-- Settles O38: the decoder's loop from acceptance, for the walk of the payload's valid bits. -/
theorem decodeJobWalksTheValidBits : Obligations.DecodeJobWalksTheValidBits := by
  intro s payload rest out e hb tree hq hlen hbits walk inside room
  have job : Decoding s.decodeStarted payload rest out e := ⟨rfl, rfl, rfl, hq, hlen, hbits, walk, inside, room⟩
  obtain ⟨position, unread, moves⟩ := job.moves
  obtain ⟨n, run⟩ := runCommand_of_moves (i := .decode) hb rfl (by simp) (accepted_decode_ok (hlen.trans hbits) tree) moves
  exact ⟨n, _, run, rfl, zero_add _, rfl, rfl, rfl, rfl, rfl, rfl, rfl, rfl, rfl⟩
end

section
/-! Decoding inverts encoding (45_decoder.md R149, R150). Both directions follow the walk down the tree: the path to a
leaf decodes to its symbol, and a walk that emits a symbol has come down the path to its leaf, which is its code. -/

namespace Sys2Proof.Machine

/-! ### A code table comes from a tree with symbols (R117, R121) -/

/-- The zero arena is a cycle at entry 0, on which the traversal has no end (log 11). -/
theorem walk_zeroArena_ne_ok (d : Nat) (path : Bits) (t v : CodeTable) : walk Arena.zero d 0 path t ≠ .ok v := by
  induction d generalizing path t v with
  | zero => nofun
  | succ d ih =>
    intro hw
    have zero : Arena.zero.nodeAt 0 = some Node.zero := rfl
    obtain ⟨u, ⟨null, -⟩ | ⟨-, left⟩, -⟩ := walk_children zero rfl hw
    · cases null
    · exact ih _ _ _ left

theorem nsym_ne_zero_of_genCodes {freq : Vector (BitVec 32) 256} {t : CodeTable}
    (ht : genCodes (buildTree freq) = .ok t) : nsym freq ≠ 0 := by
  intro h
  rw [buildTree_none freq h] at ht
  exact walk_zeroArena_ne_ok _ _ _ _ ht

/-! ### The path to a leaf decodes to its symbol (R149) -/

theorem decodeBits_of_child {a : Arena} {i : BitVec 9} {n m : Node} {bit : Bool} (hn : a.nodeAt i = some n)
    (hc : n.childOn bit ≠ nullIdx) (hm : a.nodeAt (n.childOn bit) = some m) (c : Bits) :
    decodeBits a i (bit :: c) =
      if m.isLeaf then (m.symbol :: (decodeBits a a.root c).1, (decodeBits a a.root c).2)
      else decodeBits a (n.childOn bit) c := by
  have step := walkBit_of_child hn hc hm
  split at step <;> rename_i leaf
  · rw [if_pos leaf, decodeBits_of_leaf c step]
  · rw [if_neg leaf, decodeBits_of_inner c step]

theorem decodeBits_leafPath {a : Arena} {b : Byte} {path : Bits} (c : Bits) {i : BitVec 9} {n : Node}
    (hn : a.nodeAt i = some n) (hl : n.isLeaf = false) (hp : a.LeafPath i b path) :
    decodeBits a i (path ++ c) = (b :: (decodeBits a a.root c).1, (decodeBits a a.root c).2) := by
  induction path generalizing i n with
  | nil => exact absurd hp (not_leafPath_nil hn hl)
  | cons bit path ih =>
    have hp := (leafPath_cons_iff hn hl).1 hp
    have hc : n.childOn bit ≠ nullIdx := fun null => not_leafPath_null a b path (null ▸ hp)
    obtain ⟨m, hm⟩ := exists_nodeAt a hc
    rw [List.cons_append, decodeBits_of_child hn hc hm]
    cases leaf : m.isLeaf with
    | true =>
      obtain ⟨rfl, rfl⟩ := (leafPath_leaf_iff hm leaf).1 hp
      rfl
    | false => exact ih hm leaf hp

/-! ### Over a tree and its codes -/

theorem encodeBits_cons (t : CodeTable) (b : Byte) (input : List Byte) :
    encodeBits t (b :: input) = t.bitsOf b ++ encodeBits t input := rfl

section
variable {freq : Vector (BitVec 32) 256} {a : Arena} {t : CodeTable} (tree : CodeTree freq a)
  (codes : ∀ b path, a.IsCodeOf b path → t.bitsOf b = path)
include tree codes

/-- R149: the codes of a sequence of present symbols decode to the sequence. -/
theorem CodeTree.decodeBits_encodeBits {input : List Byte} (hin : ∀ b ∈ input, present freq b = true) :
    decodeBits a a.root (encodeBits t input) = (input, .ok) := by
  induction input with
  | nil => exact congrArg (Prod.mk []) (if_pos rfl)
  | cons b input ih =>
    obtain ⟨hb, hin⟩ := List.forall_mem_cons.1 hin
    obtain ⟨path, hp⟩ := (tree.exists_code_iff b).2 hb
    obtain ⟨root, hroot, inner⟩ := tree.root_inner
    rw [encodeBits_cons, codes b path hp, decodeBits_leafPath _ hroot inner hp, ih hin]

/-- R150: a walk that has come down `path` from the root and ends without an error emits the symbols of which `path` and
the bits to come are the encoding. -/
theorem CodeTree.encodeBits_of_decodeBits {c path : Bits} {i : BitVec 9} {n : Node} {out : List Byte}
    (hp : a.descend a.root path = some i) (hn : a.nodeAt i = some n) (hl : n.isLeaf = false)
    (hw : decodeBits a i c = (out, .ok)) : encodeBits t out = path ++ c := by
  induction c generalizing path i n out with
  | nil =>
    rw [decodeBits, Prod.mk.injEq] at hw
    obtain ⟨rfl, ended⟩ := hw
    obtain rfl : i = a.root := by simpa using ended
    rw [tree.descend_inj (Nat.le_refl _) hp (q := []) rfl]
    rfl
  | cons bit c ih =>
    by_cases hc : n.childOn bit = nullIdx
    · rw [decodeBits_of_missing c (walkBit_of_null hn hc)] at hw
      cases hw
    · obtain ⟨m, hm⟩ := exists_nodeAt a hc
      have deeper : a.descend a.root (path ++ [bit]) = some (n.childOn bit) := by
        rw [descend_concat, hp]
        exact edge_eq_some_iff.2 ⟨n, hn, hl, hc, rfl⟩
      rw [List.append_cons]
      rw [decodeBits_of_child hn hc hm] at hw
      cases leaf : m.isLeaf with
      | true =>
        rw [leaf, if_pos rfl, Prod.mk.injEq] at hw
        obtain ⟨rfl, ended⟩ := hw
        have code : t.bitsOf m.symbol = path ++ [bit] :=
          codes _ _ ⟨m, by rw [follow_eq_descend, deeper]; exact hm, leaf, rfl⟩
        obtain ⟨root, hroot, inner⟩ := tree.root_inner
        rw [encodeBits_cons, code, ih (path := []) rfl hroot inner (Prod.ext rfl ended), List.nil_append]
      | false =>
        rw [leaf, if_neg Bool.false_ne_true] at hw
        exact ih deeper hm leaf hw

end

end Sys2Proof.Machine

open Sys2Proof Sys2Proof.Machine

/-- Settles O40: the table holds the paths of the tree, and the two walks start at its root. -/
theorem decodeInvertsEncode : Obligations.DecodeInvertsEncode := by
  intro freq t ht
  have symbols := nsym_ne_zero_of_genCodes ht
  have tree := buildTree_codeTree symbols
  have codes b path (hp : (buildTree freq).IsCodeOf b path) : t.bitsOf b = path := (entry_of_isCodeOf ht symbols hp).2.2
  obtain ⟨root, hroot, inner⟩ := tree.root_inner
  exact ⟨fun input => tree.decodeBits_encodeBits codes,
    fun c out => tree.encodeBits_of_decodeBits codes (path := []) rfl hroot inner⟩
end

section
/-! The container round trip (46_container.md R153 to R160). Behind the count, all the parser reads begins what is
left after some whole entries, so one lemma, `drop_serialize`, serves every field there. -/

namespace Sys2Proof.Machine

/-! ### Big-endian numbers (R153) -/

theorem beNat_be32 (v : BitVec 32) : beNat (be32 v) = v.toNat := by
  have := v.isLt
  simp only [be32, beNat, List.foldl_cons, List.foldl_nil, BitVec.extractLsb'_toNat, Nat.shiftRight_eq_div_pow]
  omega

theorem beNat_append (x y : List Byte) : beNat (x ++ y) = beNat x * 256 ^ y.length + beNat y := by
  induction y using List.reverseRecOn with
  | nil => simp [beNat]
  | append_singleton y b ih =>
    simp only [beNat, ← List.append_assoc, List.foldl_append, List.foldl_cons, List.foldl_nil, List.length_append,
      List.length_singleton, Nat.pow_succ] at ih ⊢
    rw [ih]
    ring

@[simp] theorem be32_length (v : BitVec 32) : (be32 v).length = 4 := rfl

@[simp] theorem be64_length (v : BitVec 64) : (be64 v).length = 8 := rfl

@[simp] theorem entryBytes_length (e : Byte × BitVec 32) : (entryBytes e).length = 5 := rfl

theorem beNat_be64 (v : BitVec 64) : beNat (be64 v) = v.toNat := by
  have := v.isLt
  rw [be64, beNat_append, beNat_be32, beNat_be32, be32_length, BitVec.extractLsb'_toNat, BitVec.extractLsb'_toNat,
    Nat.shiftRight_eq_div_pow]
  omega

/-! ### The fields of the serialised bytes (R153) -/

theorem flatMap_entryBytes_length (entries : List (Byte × BitVec 32)) :
    (entries.flatMap entryBytes).length = 5 * entries.length := by
  simp [List.length_flatMap, Nat.mul_comm]

theorem Container.serialize_length (c : Container) :
    c.serialize.length = 12 + 5 * c.entries.length + c.payload.length := by
  simp only [serialize, List.length_append, be32_length, be64_length, flatMap_entryBytes_length]
  omega

/-- What follows the count and the first `k` entries. -/
theorem Container.drop_serialize (c : Container) {k : Nat} (hk : k ≤ c.entries.length) :
    c.serialize.drop (4 + 5 * k) = (c.entries.drop k).flatMap entryBytes ++ (be64 c.bitCount ++ c.payload) := by
  have front : c.serialize = (be32 (BitVec.ofNat 32 c.entries.length) ++ (c.entries.take k).flatMap entryBytes) ++
      ((c.entries.drop k).flatMap entryBytes ++ (be64 c.bitCount ++ c.payload)) := by
    conv_lhs => rw [serialize, ← List.take_append_drop k c.entries, List.flatMap_append]
    simp
  rw [front]
  exact List.drop_left' (by
    rw [List.length_append, be32_length, flatMap_entryBytes_length, List.length_take_of_le hk])

theorem Container.headerCount_serialize (c : Container) (hn : c.entries.length < 2 ^ 32) :
    headerCount c.serialize = c.entries.length := by
  have front : c.serialize.take 4 = be32 (BitVec.ofNat 32 c.entries.length) := by
    simp [serialize, List.append_assoc, List.take_append]
  rw [headerCount, front, beNat_be32, BitVec.toNat_ofNat, Nat.mod_eq_of_lt hn]

theorem Container.headerEntry_serialize (c : Container) {k : Nat} (hk : k < c.entries.length) :
    headerEntry c.serialize k = c.entries[k] := by
  have rest : c.serialize.drop (4 + 5 * k) = c.entries[k].1 :: (be32 c.entries[k].2 ++
      ((c.entries.drop (k + 1)).flatMap entryBytes ++ (be64 c.bitCount ++ c.payload))) := by
    rw [c.drop_serialize (Nat.le_of_lt hk), List.drop_eq_getElem_cons hk, List.flatMap_cons, List.append_assoc]
    rfl
  have tail : c.serialize.drop (5 + 5 * k) = (c.serialize.drop (4 + 5 * k)).drop 1 := by
    rw [List.drop_drop]
    congr 1
    omega
  rw [headerEntry, tail, rest, List.drop_one, List.tail_cons, List.take_left' (be32_length _), beNat_be32,
    BitVec.ofNat_toNat, BitVec.setWidth_eq]
  rfl

theorem Container.headerEntries_serialize (c : Container) (hn : c.entries.length < 2 ^ 32) :
    headerEntries c.serialize = c.entries := by
  rw [headerEntries, c.headerCount_serialize hn]
  exact List.ext_getElem (by simp) fun k _ hk => by simpa using c.headerEntry_serialize hk

theorem Container.headerBits_serialize (c : Container) (hn : c.entries.length < 2 ^ 32) :
    headerBits c.serialize = c.bitCount := by
  rw [headerBits, c.headerCount_serialize hn, c.drop_serialize (Nat.le_refl _), List.drop_length, List.flatMap_nil,
    List.nil_append, List.take_left' (be64_length _), beNat_be64, BitVec.ofNat_toNat, BitVec.setWidth_eq]

theorem Container.payload_serialize (c : Container) :
    c.serialize.drop (12 + 5 * c.entries.length) = c.payload := by
  rw [show 12 + 5 * c.entries.length = 4 + 5 * c.entries.length + 8 by omega, ← List.drop_drop,
    c.drop_serialize (Nat.le_refl _), List.drop_length, List.flatMap_nil, List.nil_append,
    List.drop_left' (be64_length _)]

/-! ### Parsing well-formed contents (R156, R158) -/

/-- R158 read from the contents: (b), (d) to (g). The layout of R153 itself rules out (a) and (c). -/
structure Container.WellFormed (c : Container) : Prop where
  count : c.entries.length ≤ 256
  nonzero : ∀ e ∈ c.entries, e.2 ≠ 0
  ascend : ascending c.entries = true
  length : c.payload.length = (c.bitCount.toNat + 7) / 8
  empty : c.entries.length = 0 → c.bitCount = 0

theorem Container.WellFormed.not_malformed {c : Container} (h : c.WellFormed) : malformed c.serialize = false := by
  have hn : c.entries.length < 2 ^ 32 := by have := h.count; omega
  have total := c.serialize_length
  simp only [malformed, c.headerCount_serialize hn, c.headerEntries_serialize hn, c.headerBits_serialize hn,
    ceil8_toNat, Bool.or_eq_false_iff, decide_eq_false_iff_not]
  refine ⟨⟨⟨⟨⟨⟨?a, ?b⟩, ?c⟩, ?d⟩, ?e⟩, ?f⟩, ?g⟩
  case a => omega
  case b => exact Nat.not_lt.2 h.count
  case c => omega
  case d => exact List.any_eq_false.2 fun e he => by simpa using h.nonzero e he
  case e => rw [h.ascend, Bool.not_true]
  case f =>
    rw [← h.length]
    omega
  case g => simpa using h.empty

/-- R156: parsing undoes serialising. -/
theorem Container.WellFormed.parse_serialize {c : Container} (h : c.WellFormed) : parse c.serialize = some c := by
  have hn : c.entries.length < 2 ^ 32 := by have := h.count; omega
  rw [parse, h.not_malformed, if_neg Bool.false_ne_true, c.headerEntries_serialize hn, c.headerBits_serialize hn,
    c.headerCount_serialize hn, c.payload_serialize]

/-! ### The entries of a table (R154) -/

theorem presentBelow_succ (freq : Vector (BitVec 32) 256) (n : Nat) :
    presentBelow freq (n + 1) =
      presentBelow freq n ++ if freq[n]?.getD 0 ≠ 0 then [(BitVec.ofNat 8 n, freq[n]?.getD 0)] else [] := rfl

theorem presentBelow_length (freq : Vector (BitVec 32) 256) (n : Nat) :
    (presentBelow freq n).length = presentCount freq n := by
  induction n with
  | zero => rfl
  | succ n ih =>
    rw [presentBelow_succ, presentCount_succ, List.length_append, ih]
    by_cases absent : freq[n]?.getD 0 = 0
    · rw [if_neg (not_not.2 absent), if_pos absent, List.length_nil]
    · rw [if_pos absent, if_neg absent, List.length_singleton]

theorem presentBelow_256_length (freq : Vector (BitVec 32) 256) : (presentBelow freq 256).length = nsym freq := by
  rw [presentBelow_length, nsym_eq_presentCount]

theorem of_mem_presentBelow {freq : Vector (BitVec 32) 256} {n : Nat} (hn : n ≤ 256) {e : Byte × BitVec 32}
    (he : e ∈ presentBelow freq n) : e.1.toNat < n ∧ e.2 ≠ 0 := by
  induction n with
  | zero => nomatch he
  | succ n ih =>
    rw [presentBelow_succ, List.mem_append] at he
    rcases he with below | last
    · obtain ⟨hlt, hne⟩ := ih (Nat.le_of_succ_le hn) below
      exact ⟨Nat.lt_succ_of_lt hlt, hne⟩
    · split at last
      · obtain rfl := List.mem_singleton.1 last
        exact ⟨by simp; omega, ‹_›⟩
      · nomatch last

theorem presentBelow_pairwise (freq : Vector (BitVec 32) 256) {n : Nat} (hn : n ≤ 256) :
    (presentBelow freq n).Pairwise fun d e => d.1 < e.1 := by
  induction n with
  | zero => exact .nil
  | succ n ih =>
    rw [presentBelow_succ, List.pairwise_append]
    refine ⟨ih (Nat.le_of_succ_le hn), by split <;> simp, fun d hd e he => ?_⟩
    have hlt := (of_mem_presentBelow (Nat.le_of_succ_le hn) hd).1
    split at he
    · obtain rfl := List.mem_singleton.1 he
      rw [BitVec.lt_def, BitVec.toNat_ofNat]
      omega
    · nomatch he

theorem ascending_of_pairwise {entries : List (Byte × BitVec 32)} (h : entries.Pairwise fun d e => d.1 < e.1) :
    ascending entries = true := by
  induction entries using ascending.induct with
  | case1 => rfl
  | case2 => rfl
  | case3 d e rest ih =>
    obtain ⟨first, others⟩ := List.pairwise_cons.1 h
    simp [ascending, first e List.mem_cons_self, ih others]

theorem Container.ofTable_wellFormed {freq : Vector (BitVec 32) 256} {bitCount : BitVec 64} {payload : List Byte}
    (length : payload.length = (bitCount.toNat + 7) / 8) (empty : nsym freq = 0 → bitCount = 0) :
    (ofTable freq bitCount payload).WellFormed where
  count := presentBelow_256_length freq ▸ nsym_le freq
  nonzero _ he := (of_mem_presentBelow (Nat.le_refl _) he).2
  ascend := ascending_of_pairwise (presentBelow_pairwise freq (Nat.le_refl _))
  length := length
  empty h := empty (presentBelow_256_length freq ▸ h)

/-! ### Loading the entries (R156, R160) -/

theorem writeEntries_concat (freq : Vector (BitVec 32) 256) (entries : List (Byte × BitVec 32))
    (e : Byte × BitVec 32) :
    writeEntries freq (entries ++ [e]) = (writeEntries freq entries).set e.1.toNat e.2 e.1.isLt :=
  List.foldl_concat ..

/-- Writing the entries below `n` over a cleared table restores these, and leaves the others 0. -/
theorem writeEntries_presentBelow (freq : Vector (BitVec 32) 256) {n : Nat} (hn : n ≤ 256) {i : Nat} (hi : i < 256) :
    (writeEntries (Vector.replicate 256 0) (presentBelow freq n))[i] = if i < n then freq[i] else 0 := by
  induction n with
  | zero => simp [writeEntries, presentBelow]
  | succ n ih =>
    have ih := ih (Nat.le_of_succ_le hn)
    have hlt : n < 256 := hn
    have symbol : (BitVec.ofNat 8 n).toNat = n := BitVec.toNat_ofNat n 8 ▸ Nat.mod_eq_of_lt hlt
    rw [presentBelow_succ, Vector.getElem?_eq_getElem hlt, Option.getD_some]
    by_cases absent : freq[n] = 0
    · rw [if_neg (not_not.2 absent), List.append_nil, ih]
      by_cases same : i = n
      · subst same
        rw [if_neg (Nat.lt_irrefl i), if_pos (Nat.lt_succ_self i), absent]
      · simp only [Nat.lt_succ_iff_lt_or_eq, same, or_false]
    · rw [if_pos absent]
      simp only [writeEntries_concat, symbol, Vector.getElem_set, ih]
      by_cases same : i = n
      · subst same
        rw [if_pos rfl, if_pos (Nat.lt_succ_self i)]
      · simp only [Ne.symm same, Nat.lt_succ_iff_lt_or_eq, same, or_false, if_false]

theorem writeEntries_presentBelow_256 (freq : Vector (BitVec 32) 256) :
    writeEntries (Vector.replicate 256 0) (presentBelow freq 256) = freq :=
  Vector.ext fun i hi => by rw [writeEntries_presentBelow freq (Nat.le_refl _) hi, if_pos hi]

theorem freq_eq_replicate_of_freqOf {s : State} (h : ∀ b : Byte, s.freqOf b = 0) : s.freq = Vector.replicate 256 0 :=
  Vector.ext fun i hi => by
    simpa [State.freqOf, Nat.mod_eq_of_lt hi] using h (BitVec.ofNat 8 i)

end Sys2Proof.Machine

open Sys2Proof Sys2Proof.Machine

/-- Settles O60: the contents that a table gives are well formed, and the writes of its entries run over the table. -/
theorem containerRoundTrip : Obligations.ContainerRoundTrip := by
  intro freq bitCount payload length empty
  refine ⟨(Container.ofTable_wellFormed length empty).parse_serialize, ?_, fun s idle cleared => ?_⟩
  · rw [Container.serialize_length, ← presentBelow_256_length]
    rfl
  · rw [(loadEntries_freq s _ idle).1, freq_eq_replicate_of_freqOf cleared]
    exact writeEntries_presentBelow_256 freq
end

section
/-! No trap (60_exceptions.md R187, R193): in a sound state every instruction answers a next state, whoever's turn
it is. -/

namespace Sys2Proof.Machine

/-- On the core's turn a command performs a core step, of which none stops in a sound state, or holds. -/
theorem coreTurn_next {i : Instr} {s : State} (hs : Inv s) (ha : s.agent = .core) (hr : ∀ a d, i ≠ .rd a d)
    (hw : ∀ a v, i ≠ .wr a v) : ∃ t, exec i s = .next t := by
  rcases coreTurn_cases ha hr hw with ⟨c, hc, hp⟩ | hold
  · rw [hp]
    exact CoreStep.perform_next hs hc
  · exact ⟨s, hold⟩

theorem exec_next {s : State} (hs : Inv s) (i : Instr) : ∃ t, exec i s = .next t := by
  cases i with
  | rd a d => exact ⟨_, exec_rd a d s⟩
  | wr a v => exact ⟨_, exec_wr a v s⟩
  | _ =>
    cases ha : s.agent with
    | host => exact ⟨_, hostTurn_eq ha rfl⟩
    | core => exact coreTurn_next hs ha (by simp) (by simp)

/-- The three kinds of turn (R15, R64): the agents' instructions run in a sound state again. -/
theorem step_next {s : State} (hs : Inv s) : ∃ t, step s = .next t := by
  unfold step
  split
  · exact ⟨_, rfl⟩
  · split
    · exact exec_next (inv_forAgent hs .core) _
    · exact ⟨_, rfl⟩
  · split
    · exact exec_next (inv_forAgent hs .host) _
    · exact ⟨_, rfl⟩

end Sys2Proof.Machine

open Sys2Proof Sys2Proof.Machine

/-- Settles O59: `gencodesExec_next` and `decWalk_next` rule out the two faults, `exec_next` and `step_next` carry
this to the step. -/
theorem soundStatesNeverStop : Obligations.SoundStatesNeverStop := fun _ => step_next
end

section
/-! The first error of a running command (60_exceptions.md R188, R189): the host can only reset it away, the core
drains the rest of the job, and BUSY falls with DONE. -/

namespace Sys2Proof.Machine

/-! ### The host's transactions while a command runs (R56, R93) -/

/-- A command runs, with the error that was recorded before. -/
structure RunsOn (s t : State) : Prop where
  busy : t.busy = true
  err : t.err = s.err

theorem cmdWrite_runsOn {s : State} (hb : s.busy = true) (w : Word) :
    s.cmdWrite w = s.softreset ∨ RunsOn s (s.cmdWrite w) := by
  by_cases hw : w = 0x0000000F
  · exact .inl (hw ▸ cmdWrite_softreset s)
  · exact .inr (cmdWrite_busy hw hb ▸ ⟨hb, rfl⟩)

theorem busWrite_runsOn {s : State} (hb : s.busy = true) (a : Addr) (v : Word) :
    s.busWrite a v = s.softreset ∨ RunsOn s (s.busWrite a v) := by
  cases ht : target a <;> rw [busWrite_eq v ht] <;> simp only [writeTarget]
  case cmd => exact cmdWrite_runsOn hb v
  case inlenLo | inlenHi | bitcntLo | bitcntHi | freq => exact .inr (by rw [if_pos hb]; exact ⟨hb, rfl⟩)
  case inData =>
    unfold State.pushIn
    split <;> exact .inr ⟨hb, rfl⟩
  all_goals exact .inr ⟨hb, rfl⟩

theorem busRead_runsOn {s : State} (hb : s.busy = true) (a : Addr) : RunsOn s (s.busRead a).2 := by
  rcases busRead_state_cases s a with e | ⟨-, b, q, -, e⟩ | e <;> rw [e] <;> exact ⟨hb, rfl⟩

theorem error_of_runsOn {s t : State} (h : t = s.softreset ∨ RunsOn s t) : t.err = s.err ∨ t = s.softreset :=
  h.symm.imp_left RunsOn.err

theorem done_of_runsOn {s t : State} (h : t = s.softreset ∨ RunsOn s t) (hb : t.busy = false) :
    t.done = true ∨ t = s.softreset :=
  .inr (h.resolve_right fun runs => Bool.false_ne_true (hb.symm.trans runs.busy))

/-! ### The core steps after an error (R188) -/

/-- R185, R190: only a stream command runs on with an error. -/
theorem stream_of_error {s : State} (hs : Inv s) (hb : s.busy = true) (he : s.err ≠ .noError) :
    s.op = opCount ∨ s.op = opEncode ∨ s.op = opDecode := by
  have recorded := hs.job.err_of hb
  simp only [errOf, Bool.or_eq_true, Bool.and_eq_true, beq_iff_eq, he, false_or] at recorded
  obtain (⟨ho, -⟩ | ⟨ho, -⟩) | ⟨ho, -⟩ := recorded
  · exact .inl ho
  · exact .inr (.inl ho)
  · exact .inr (.inr ho)

/-- The error and the results are the same, and pending bits are at most discarded. -/
structure Drains (s t : State) : Prop where
  err : t.err = s.err
  freq : t.freq = s.freq
  outq : t.outq = s.outq
  pb : t.pb = s.pb ∨ t.pb = []
  arena : t.arena = s.arena
  codes : t.codes = s.codes

theorem consume_drains {s : State} (f : Byte → State → State) (he : s.err ≠ .noError) : Drains s (s.consume f) := by
  cases hq : s.inq with
  | nil => rw [consume_nil f hq]; exact ⟨rfl, rfl, rfl, .inl rfl, rfl, rfl⟩
  | cons b q => rw [consume_cons f hq, if_neg he]; exact ⟨rfl, rfl, rfl, .inl rfl, rfl, rfl⟩

/-- R188: the core steps that an error leaves enabled drain the job or complete it. -/
theorem CoreStep.perform_drains {c : CoreStep} {s t : State} (hs : Inv s) (hc : c.enabled s = true)
    (he : s.err ≠ .noError) (h : c.perform s = .next t) : Drains s t := by
  obtain ⟨hb, ho⟩ := (running_iff s c.op).1 (running_of_enabled hc)
  have stream : c.op = opCount ∨ c.op = opEncode ∨ c.op = opDecode := ho ▸ stream_of_error hs hb he
  cases c with
  | nopExec | clrfreqExec | buildExec | gencodesExec | flushExec => simp [op] at stream
  | countByte | encConsume | decLoad => cases h; exact consume_drains _ he
  | encEmit =>
    obtain ⟨-, noError, -⟩ := (encEmitEnabled_iff s).1 hc
    exact absurd noError he
  | decWalk =>
    obtain ⟨-, noError, -⟩ := (decWalkEnabled_iff s).1 hc
    exact absurd noError he
  | countDone => cases h; exact ⟨rfl, rfl, rfl, .inl rfl, rfl, rfl⟩
  | encDone =>
    cases h
    rw [encDone_pushes_nothing fun noError => absurd noError he]
    exact ⟨rfl, rfl, rfl, .inr rfl, rfl, rfl⟩
  | decDone => cases h; rw [decDone_of_error he]; exact ⟨rfl, rfl, rfl, .inl rfl, rfl, rfl⟩

/-! ### Completion (R94, R189) -/

/-- A byte taken from INQ leaves BUSY as it is when its use does. -/
theorem consume_busy {f : Byte → State → State} (hf : ∀ b s, (f b s).busy = s.busy) (s : State) :
    (s.consume f).busy = s.busy := by
  cases hq : s.inq with
  | nil => rw [consume_nil f hq]
  | cons b q =>
    rw [consume_cons f hq]
    split
    · exact hf b _
    · rfl

theorem countSymbol_busy (b : Byte) (s : State) : (countSymbol b s).busy = s.busy := by
  unfold countSymbol
  split <;> rfl

theorem encodeSymbol_busy (b : Byte) (s : State) : (encodeSymbol b s).busy = s.busy := by
  unfold encodeSymbol
  split <;> rfl

theorem decWalk_busy {s t : State} (h : decWalk s = .next t) : t.busy = s.busy := by
  unfold decWalk at h
  split at h
  · cases h; rfl
  · dsimp only at h
    split at h <;> cases h <;> rfl

theorem gencodesExec_done {s t : State} (h : gencodesExec s = .next t) : t.done = true := by
  unfold gencodesExec at h
  split at h
  · cases h; rfl
  · split at h <;> cases h
    rfl

/-- A core step leaves BUSY as it is or completes the command. -/
theorem CoreStep.perform_busy_or_done {c : CoreStep} {s t : State} (h : c.perform s = .next t) :
    t.busy = s.busy ∨ t.done = true := by
  cases c with
  | countByte => cases h; exact .inl (consume_busy countSymbol_busy s)
  | encConsume => cases h; exact .inl (consume_busy encodeSymbol_busy s)
  | decLoad => cases h; exact .inl (consume_busy (f := loadByte) (fun _ _ => rfl) s)
  | encEmit => cases h; exact .inl rfl
  | decWalk => exact .inl (decWalk_busy h)
  | gencodesExec => exact .inr (gencodesExec_done h)
  | nopExec | clrfreqExec | countDone | buildExec | encDone | decDone | flushExec => cases h; exact .inr rfl

end Sys2Proof.Machine

open Sys2Proof Sys2Proof.Machine

/-- Settles O55: the host's transactions reset or run on, and after an error the core's steps only drain. -/
theorem firstErrorStaysUntilCompletion : Obligations.FirstErrorStaysUntilCompletion := by
  intro i s t hs hb h
  rcases exec_cases h with ⟨ha, w, -, rfl⟩ | ⟨-, c, hc, hp⟩ | rfl | ⟨a, d, rfl, rfl⟩ | ⟨a, v, rfl, rfl⟩
  · have runs := cmdWrite_runsOn hb w
    exact ⟨fun _ => error_of_runsOn runs, fun _ core => absurd (ha.symm.trans core) (by decide), done_of_runsOn runs⟩
  · rw [hp] at h
    refine ⟨fun he => .inl (CoreStep.perform_drains hs hc he h).err, fun he _ _ _ => ?_, fun idle => .inl ?_⟩
    · obtain ⟨-, freq, outq, pb, arena, codes⟩ := CoreStep.perform_drains hs hc he h
      exact ⟨freq, outq, pb, arena, codes⟩
    · exact (CoreStep.perform_busy_or_done h).resolve_left fun same => by simp [idle, hb] at same
  · exact ⟨fun _ => .inl rfl, fun _ _ _ _ => ⟨rfl, rfl, .inl rfl, rfl, rfl⟩, fun idle => by simp [hb] at idle⟩
  · have ⟨busy, err⟩ := busRead_runsOn hb a
    exact ⟨fun _ => .inl err, fun _ _ noRead => absurd rfl (noRead a d), fun idle => by simp [busy] at idle⟩
  · have runs := busWrite_runsOn hb a v
    exact ⟨fun _ => error_of_runsOn runs, fun _ _ _ noWrite => absurd rfl (noWrite a v), done_of_runsOn runs⟩
end
